-- ==== Sys2Proof/Word.lean ====
section
/-!
DEFINITION. The word types of the block. The byte is the only addressable unit (R40); registers are 16 or 32 bits wide (R11, R16, R22).
-/

namespace Sys2Proof

/-- One byte, an unsigned value 0 to 255 (R6). -/
abbrev Byte := BitVec 8

/-- A 16-bit value: `CRC`, `STATUS`, `EXPLEN`, an MBAP field. -/
abbrev Half := BitVec 16

/-- A 32-bit value: a delay, a timeout, a baud rate. -/
abbrev Word := BitVec 32

/-- `zext_16` of a byte (R6). -/
abbrev zext16 (b : Byte) : Half := b.zeroExtend 16

end Sys2Proof
end

