-- ==== Sys2Proof/Syntax.lean ====
section
/-!
DEFINITION. The twenty commands of R74, one constructor per row of the opcode table, with their operands.
-/

namespace Sys2Proof

/-- A command of the block (R74). The frame operand of `TX` and `XCHG` is `TXBUF`; the count of a `LOAD` is the length of its data. -/
inductive Instr where
  | crcInit
  | crcUpd (b : Byte)
  | mkctxRtu (unitId : Byte) (sequence : Half)
  | encapRtu
  | decapRtu
  | xctxRtu
  | mkctxTcp (unitId : Byte) (sequence : Half)
  | encapTcp
  | decapTcp
  | xctxTcp
  | tx
  | rx (timeout : Word) (expectedLength : Half)
  | xchg (timeout : Word) (expectedLength : Half)
  | setbaud (baud : Word)
  | setpoll (ms : Word)
  | seterr (ms : Word)
  | loadP (data : List Byte)
  | loadR (data : List Byte)
  | loadC (data : List Byte)
  | loadT (data : List Byte)
deriving DecidableEq, Repr

/-- The twenty opcodes by name (R74). -/
inductive Opcode where
  | crcInit | crcUpd
  | mkctxRtu | encapRtu | decapRtu | xctxRtu
  | mkctxTcp | encapTcp | decapTcp | xctxTcp
  | tx | rx | xchg
  | setbaud | setpoll | seterr
  | loadP | loadR | loadC | loadT
deriving DecidableEq, Repr

/-- The opcode of a command. -/
def Instr.opcode : Instr → Opcode
  | .crcInit => .crcInit
  | .crcUpd _ => .crcUpd
  | .mkctxRtu _ _ => .mkctxRtu
  | .encapRtu => .encapRtu
  | .decapRtu => .decapRtu
  | .xctxRtu => .xctxRtu
  | .mkctxTcp _ _ => .mkctxTcp
  | .encapTcp => .encapTcp
  | .decapTcp => .decapTcp
  | .xctxTcp => .xctxTcp
  | .tx => .tx
  | .rx _ _ => .rx
  | .xchg _ _ => .xchg
  | .setbaud _ => .setbaud
  | .setpoll _ => .setpoll
  | .seterr _ => .seterr
  | .loadP _ => .loadP
  | .loadR _ => .loadR
  | .loadC _ => .loadC
  | .loadT _ => .loadT

end Sys2Proof
end

