-- ==== Sys2Proof/WellFormed.lean ====
section
/-!
DEFINITION. Which commands can be written down as bytes. The only limit is the 16-bit count of the four `LOAD` commands (R74); a count
beyond a buffer's capacity is well formed and is refused by the command itself (R77, R153 to R156).
-/

namespace Sys2Proof

/-- The data of a `LOAD` fits its 2-byte count (R74). -/
def countFits (data : List Byte) : Bool := decide (data.length < 65536)

/-- A command that has an encoding (R74). -/
def Instr.wellFormed : Instr → Bool
  | .crcInit => true
  | .crcUpd _ => true
  | .mkctxRtu _ _ => true
  | .encapRtu => true
  | .decapRtu => true
  | .xctxRtu => true
  | .mkctxTcp _ _ => true
  | .encapTcp => true
  | .decapTcp => true
  | .xctxTcp => true
  | .tx => true
  | .rx _ _ => true
  | .xchg _ _ => true
  | .setbaud _ => true
  | .setpoll _ => true
  | .seterr _ => true
  | .loadP data => countFits data
  | .loadR data => countFits data
  | .loadC data => countFits data
  | .loadT data => countFits data

end Sys2Proof
end

