-- ==== Sys2Proof/Decode.lean ====
section
/-!
DEFINITION. Byte order of multi-byte values (R6, R47), the decoder of command byte strings, total on any bytes (R74, R75, R80), and the
encoder written from the same table.
-/

namespace Sys2Proof

/-- `lo8(v) = v[7:0]` (R6). -/
def lo8 (v : Half) : Byte := v.extractLsb' 0 8

/-- `hi8(v) = v[15:8]` (R6). -/
def hi8 (v : Half) : Byte := v.extractLsb' 8 8

/-- `be16(a, b) = a * 256 + b` (R6). -/
def be16 (a b : Byte) : Half := a ++ b

/-- `BE16(n)`: the two bytes `hi8(n), lo8(n)` (R6). -/
def bytesBE16 (v : Half) : List Byte := [hi8 v, lo8 v]

/-- Four bytes, most significant first, as one 32-bit operand (R47 item 3, R74). -/
def be32 (a b c d : Byte) : Word := a ++ b ++ c ++ d

/-- The four bytes of a 32-bit operand, most significant first (R47 item 3, R74). -/
def bytesBE32 (v : Word) : List Byte :=
  [v.extractLsb' 24 8, v.extractLsb' 16 8, v.extractLsb' 8 8, v.extractLsb' 0 8]

/-- The opcode byte (R74). -/
def Opcode.byte : Opcode → Byte
  | .crcInit => 0x01#8
  | .crcUpd => 0x02#8
  | .mkctxRtu => 0x10#8
  | .encapRtu => 0x11#8
  | .decapRtu => 0x12#8
  | .xctxRtu => 0x13#8
  | .mkctxTcp => 0x18#8
  | .encapTcp => 0x19#8
  | .decapTcp => 0x1A#8
  | .xctxTcp => 0x1B#8
  | .tx => 0x20#8
  | .rx => 0x21#8
  | .xchg => 0x22#8
  | .setbaud => 0x30#8
  | .setpoll => 0x31#8
  | .seterr => 0x32#8
  | .loadP => 0x40#8
  | .loadR => 0x41#8
  | .loadC => 0x42#8
  | .loadT => 0x43#8

/-- All opcodes, in the order of R74. -/
def Opcode.all : List Opcode :=
  [.crcInit, .crcUpd, .mkctxRtu, .encapRtu, .decapRtu, .xctxRtu, .mkctxTcp, .encapTcp, .decapTcp, .xctxTcp,
   .tx, .rx, .xchg, .setbaud, .setpoll, .seterr, .loadP, .loadR, .loadC, .loadT]

/-- The opcode a first byte stands for; none for the bytes that R75 calls illegal. -/
def opcodeOf? (b : Byte) : Option Opcode := Opcode.all.find? fun o => o.byte == b

/-- Why a byte string is not a whole command. -/
inductive DecodeError where
  /-- No byte at all: the command port never delivers it (R75, U12). -/
  | empty
  /-- The first byte is none of the twenty opcodes (R75). -/
  | illegalOpcode (b : Byte)
  /-- Operand or data bytes are missing: the command port never delivers it (D28, U12). -/
  | cutShort
  /-- Bytes are left over after the command: the command port never delivers it (D28, U12). -/
  | leftOver
deriving DecidableEq, Repr

/-- A one-byte operand (R74 `CRC.UPD`). -/
def readByteOperand (mk : Byte → Instr) : List Byte → Option (Instr × List Byte)
  | b :: rest => some (mk b, rest)
  | [] => none

/-- Operands `unit_id`:1, `sequence`:2 (R74 `MKCTX`). -/
def readContextOperands (mk : Byte → Half → Instr) : List Byte → Option (Instr × List Byte)
  | u :: s1 :: s0 :: rest => some (mk u (be16 s1 s0), rest)
  | _ => none

/-- Operands `timeout`:4, `expected_length`:2 (R74 `RX`, `XCHG`). -/
def readReceiveOperands (mk : Word → Half → Instr) : List Byte → Option (Instr × List Byte)
  | t3 :: t2 :: t1 :: t0 :: e1 :: e0 :: rest => some (mk (be32 t3 t2 t1 t0) (be16 e1 e0), rest)
  | _ => none

/-- One 32-bit operand (R74 `SETBAUD`, `SETPOLL`, `SETERR`). -/
def readWordOperand (mk : Word → Instr) : List Byte → Option (Instr × List Byte)
  | b3 :: b2 :: b1 :: b0 :: rest => some (mk (be32 b3 b2 b1 b0), rest)
  | _ => none

/-- A 2-byte count `n` and `n` data bytes (R74 `LOAD`, R80 item 1). -/
def readDataOperand (mk : List Byte → Instr) : List Byte → Option (Instr × List Byte)
  | n1 :: n0 :: rest =>
    let n := (be16 n1 n0).toNat
    if n ≤ rest.length then some (mk (rest.take n), rest.drop n) else none
  | _ => none

/-- The operands of each opcode, read from the bytes after it; none when they are cut short (R74). -/
def readOperands (o : Opcode) (bs : List Byte) : Option (Instr × List Byte) :=
  match o with
  | .crcInit => some (.crcInit, bs)
  | .crcUpd => readByteOperand .crcUpd bs
  | .mkctxRtu => readContextOperands .mkctxRtu bs
  | .encapRtu => some (.encapRtu, bs)
  | .decapRtu => some (.decapRtu, bs)
  | .xctxRtu => some (.xctxRtu, bs)
  | .mkctxTcp => readContextOperands .mkctxTcp bs
  | .encapTcp => some (.encapTcp, bs)
  | .decapTcp => some (.decapTcp, bs)
  | .xctxTcp => some (.xctxTcp, bs)
  | .tx => some (.tx, bs)
  | .rx => readReceiveOperands .rx bs
  | .xchg => readReceiveOperands .xchg bs
  | .setbaud => readWordOperand .setbaud bs
  | .setpoll => readWordOperand .setpoll bs
  | .seterr => readWordOperand .seterr bs
  | .loadP => readDataOperand .loadP bs
  | .loadR => readDataOperand .loadR bs
  | .loadC => readDataOperand .loadC bs
  | .loadT => readDataOperand .loadT bs

/-- The command at the front of a byte string, with the bytes after it. -/
def decodePrefix : List Byte → Except DecodeError (Instr × List Byte)
  | [] => .error .empty
  | b :: bs =>
    match opcodeOf? b with
    | none => .error (.illegalOpcode b)
    | some o =>
      match readOperands o bs with
      | none => .error .cutShort
      | some r => .ok r

/-- One whole command, as the command port delivers it (R74, R75, D28). -/
def decode (bs : List Byte) : Except DecodeError Instr :=
  match decodePrefix bs with
  | .error e => .error e
  | .ok (i, []) => .ok i
  | .ok (_, _ :: _) => .error .leftOver

/-- The operand bytes of a command, most significant byte first (R74). -/
def Instr.operandBytes : Instr → List Byte
  | .crcInit => []
  | .crcUpd b => [b]
  | .mkctxRtu u s => u :: bytesBE16 s
  | .encapRtu => []
  | .decapRtu => []
  | .xctxRtu => []
  | .mkctxTcp u s => u :: bytesBE16 s
  | .encapTcp => []
  | .decapTcp => []
  | .xctxTcp => []
  | .tx => []
  | .rx t e => bytesBE32 t ++ bytesBE16 e
  | .xchg t e => bytesBE32 t ++ bytesBE16 e
  | .setbaud w => bytesBE32 w
  | .setpoll w => bytesBE32 w
  | .seterr w => bytesBE32 w
  | .loadP data => bytesBE16 (BitVec.ofNat 16 data.length) ++ data
  | .loadR data => bytesBE16 (BitVec.ofNat 16 data.length) ++ data
  | .loadC data => bytesBE16 (BitVec.ofNat 16 data.length) ++ data
  | .loadT data => bytesBE16 (BitVec.ofNat 16 data.length) ++ data

/-- The bytes of a command (R74). -/
def encode (i : Instr) : List Byte := i.opcode.byte :: i.operandBytes

/-- The length in bytes of the command a byte string begins with, from its opcode and, for a `LOAD`, its count (R74, R80 item 1). How many bytes
an illegal command occupies is not defined (R75); DESIGN CHOICE: one, its first byte. A missing first byte counts as one too. Only
`tableWordBytes` reads this: the command port takes commands already cut. Log 25. -/
def commandLength : List Byte → Nat
  | [] => 1
  | b :: bs =>
    match opcodeOf? b with
    | none => 1
    | some .crcUpd => 2
    | some .mkctxRtu => 4
    | some .mkctxTcp => 4
    | some .rx => 7
    | some .xchg => 7
    | some .setbaud => 5
    | some .setpoll => 5
    | some .seterr => 5
    | some .loadP => dataLength bs
    | some .loadR => dataLength bs
    | some .loadC => dataLength bs
    | some .loadT => dataLength bs
    | some .crcInit => 1
    | some .encapRtu => 1
    | some .decapRtu => 1
    | some .xctxRtu => 1
    | some .encapTcp => 1
    | some .decapTcp => 1
    | some .xctxTcp => 1
    | some .tx => 1
where
  /-- `3 + n` for the count in the first two operand bytes, a missing one counting as 0. -/
  dataLength : List Byte → Nat
    | n1 :: n0 :: _ => 3 + (be16 n1 n0).toNat
    | [n1] => 3 + (be16 n1 0#8).toNat
    | [] => 3

/-- The first `k` bytes of a table word: bit 0 is the least significant bit of the first byte, a later byte's bits count on from it. -/
def wordBytes : Nat → Nat → List Byte
  | 0, _ => []
  | k + 1, w => BitVec.ofNat 8 w :: wordBytes k (w / 256)

/-- The whole command a table word of `nbits` bits stands for, every byte past the word being 0. Log 25. -/
def tableWordBytes (nbits w : Nat) : List Byte :=
  let bs := wordBytes (nbits / 8) w
  (bs ++ List.replicate (commandLength bs - bs.length) 0#8).take (commandLength bs)

/-- The command the decoder reads from a table word; none where it refuses. -/
def decodeTableWord (nbits w : Nat) : Option Instr :=
  match decode (tableWordBytes nbits w) with
  | .ok i => some i
  | .error _ => none

end Sys2Proof
end

