-- ==== Sys2Proof/Config.lean ====
section
/-!
DEFINITION. The implementation parameters of R5 and the free values. A constant with no body stands for a parameter that the spec leaves
open, or for a value it lets the environment draw; nothing can be proved of it but its type.
-/

namespace Sys2Proof

/-- The constant XORed in when a 1 is shifted out (R5, R90). -/
@[simp] abbrev Config.CRC_POLY : Half := 0xA001#16
/-- The CRC value before the first byte (R5, R90). -/
@[simp] abbrev Config.CRC_INIT : Half := 0xFFFF#16
/-- Bytes in the fixed first receive chunk (R5). -/
@[simp] abbrev Config.HEAD_LEN : Nat := 5
/-- Least length of a received RTU frame that passes validation (R5). -/
@[simp] abbrev Config.FRAME_MIN : Nat := 5
/-- Greatest length of an RTU frame (R5). -/
@[simp] abbrev Config.FRAME_MAX : Nat := 256
/-- The unit id for which no response is expected (R5, R69). -/
@[simp] abbrev Config.BROADCAST : Byte := 0x00#8
/-- Greatest PDU length a buffer holds (R5, D3). -/
@[simp] abbrev Config.PDU_MAX : Nat := 253
/-- Capacity in bytes of `TXBUF` and `RXBUF` (R5, D3). -/
@[simp] abbrev Config.BUF_CAP : Nat := 260
/-- A receive stops storing at this count (R5, D3, D9). -/
@[simp] abbrev Config.RX_STOP : Nat := 257
/-- Bytes in an RTU transport context (R5). -/
@[simp] abbrev Config.CTX_RTU_LEN : Nat := 1
/-- Bytes in a TCP transport context (R5; conflict C2). -/
@[simp] abbrev Config.CTX_TCP_LEN : Nat := 7
/-- Least length of an RTU ADU the codec accepts (R102, R105). -/
@[simp] abbrev Config.CODEC_MIN : Nat := 3
/-- Reset value of the delay between polls, in ms (R5, R24). -/
@[simp] abbrev Config.DELAY_POLL_RESET : Word := 20#32
/-- Reset value of the error-backoff delay, in ms (R5, R25). -/
@[simp] abbrev Config.DELAY_ERR_RESET : Word := 200#32

/-- The allow-list of baud rates (R5 `BAUD_SET`, R26). -/
@[simp] abbrev Config.BAUD_SET : List Word := [9600#32, 19200#32, 38400#32]

/-- How many requesters there are beyond the first: open (R5 `NREQ`, U3). Log 1. -/
opaque Config.extraRequesters : Nat

/-- `NREQ`, at least 1 (R5). -/
def Config.NREQ : Nat := Config.extraRequesters + 1

/-- One less than the inter-character timeout in ms: open (R5 `T_ICHAR`, R142, U2). Log 2. -/
opaque Config.tIcharLessOne : Nat

/-- Which member of the allow-list the baud rate is after reset: open (R5 `BAUD_RESET`, U1). Log 3. -/
opaque Config.baudResetIndex : Fin 3

/-- `BAUD_RESET`, a member of the allow-list (R5). -/
def Config.BAUD_RESET : Word := Config.BAUD_SET.getD Config.baudResetIndex.val 9600#32

/-- `t_reset`, the value of `NOW` at reset: any value below 2^63 (R30, U8). Log 4. -/
opaque Config.tReset : BitVec 63

/-- How long the `k`-th free draw of a line write lasts, in ms: any value (R128, U5). Log 14. -/
opaque Config.freeSendTime : Nat → Nat

/-- The arbiter's `k`-th free choice: a requester number, or to grant nobody at this instant (R197, U4). Log 13. -/
opaque Config.freeGrant : Nat → Option Nat

/-- The parameters of R5 that the sequencer's rules read, handed to the step as an argument. -/
structure Params where
  /-- `T_ICHAR`, the inter-character timeout in ms (R142). -/
  tIchar : Nat
  /-- Whether a positive status counts as a failure for pacing (R139, D13). -/
  backoffOnException : Bool
  /-- Whether unknown-length receive also returns early on a CRC-valid chunk (R132, D10). -/
  gapShortCheck : Bool
deriving DecidableEq, Repr

/-- The parameters of this block: `T_ICHAR` open and more than 0 (D15), the two decided ones false (D10, D13). Log 6. -/
def Config.params : Params :=
  { tIchar := Config.tIcharLessOne + 1, backoffOnException := false, gapShortCheck := false }

end Sys2Proof
end

