-- ==== Sys2Proof/Machine/State.lean ====
section
/-!
DEFINITION. The state of the block (R10 to R38), as plain data, and its value after reset (R38, R200 to R202).
-/

namespace Sys2Proof.Machine

/-- The five causes of a fatal ending (R17, R67, R186), in the order of their codes 1 to 5. -/
inductive Cause where
  | protocolViolation
  | rxOverflow
  | configError
  | refused
  | illegalCommand
deriving DecidableEq, Repr

/-- The register `FAULT`: `NONE`, or the cause of the last fatal ending (R17). Codes 6 and 7 are never produced (R78). -/
inductive FaultReg where
  | none
  | raised (c : Cause)
deriving DecidableEq, Repr

/-- How a command ends (R189): with a status, by `done` or `fail`, or with a fatal cause. -/
inductive Ending where
  | status (v : Half)
  | fatal (c : Cause)
deriving DecidableEq, Repr

/-- The seven bytes `CTX[0..6]` (R13). -/
structure Ctx where
  b0 : Byte
  b1 : Byte
  b2 : Byte
  b3 : Byte
  b4 : Byte
  b5 : Byte
  b6 : Byte
deriving DecidableEq, Repr

/-- `CTXLEN`: 0 (no context), 1 (an RTU context) or 7 (a TCP context); nothing else is produced (R13, R78). -/
inductive CtxLen where
  | none
  | rtu
  | tcp
deriving DecidableEq, Repr

/-- The bank of one requester (R10 to R18). A buffer is the list of the bytes below its length register, and the length register is the
list's length: a byte at or past it holds no value (R37, U6). Log 7. -/
structure Bank where
  /-- `CRC` (R11). -/
  crc : Half
  /-- `PBUF[0..PLEN-1]` (R12). -/
  pbuf : List Byte
  /-- `CTX[0..6]` (R13), each with a value whatever `CTXLEN` is. DESIGN CHOICE, log 28. -/
  ctx : Ctx
  /-- `CTXLEN` (R13). -/
  ctxLen : CtxLen
  /-- `TXBUF[0..TXLEN-1]` (R14). -/
  txbuf : List Byte
  /-- `RXBUF[0..RXCNT-1]` (R15). -/
  rxbuf : List Byte
  /-- `STATUS` (R16). -/
  status : Half
  /-- `FAULT` (R17). -/
  fault : FaultReg
  /-- `FLOG` (R18). -/
  flog : BitVec 8
deriving DecidableEq, Repr

/-- The six states of the sequencer (R20, R123). -/
inductive Fsm where
  | idle
  | pace
  | send
  | head
  | bodyLen
  | bodyGap
deriving DecidableEq, Repr

/-- `CUR`: the lock-taking command in progress, or none (R20). -/
inductive Cur where
  | none
  | tx
  | rx
  | xchg
  | setbaud
  | setpoll
  | seterr
deriving DecidableEq, Repr

/-- `LOCK`: `FREE` or `HELD(r)` (R32). -/
inductive Lock where
  | free
  | held (r : Nat)
deriving DecidableEq, Repr

/-- A record of `TRACE` (R35): its kind, the requester, and the bytes of the frame or the ending. Log 18. -/
inductive TraceRecord where
  | txFrame (r : Nat) (frame : List Byte)
  | rxFrame (r : Nat) (frame : List Byte)
  | error (r : Nat) (how : Ending)
deriving DecidableEq, Repr

/-- A command the host hands over: its bytes, and the instant it is issued at, none meaning the instant the one before it ended
(R81). Log 9. -/
structure Issue where
  due : Option Nat
  bytes : List Byte
deriving DecidableEq, Repr

/-- What the outside world will do: the block's inputs, as plain data the step reads (R36). MODEL's own. Logs 9, 13 to 16. -/
structure Env where
  /-- Each requester's commands, the first being the one in progress or the next one (R36 item 2). -/
  hosts : List (List Issue)
  /-- The bytes the line will deliver, each with the earliest instant of its arrival (R36 item 3). -/
  line : List (Nat × Byte)
  /-- The arbiter's coming choices; none is to grant nobody at this instant (R36 item 4). -/
  grants : List (Option Nat)
  /-- The durations of the coming line writes (R36 item 5). -/
  sends : List Nat
  /-- The instants of the coming resets (U22). -/
  resets : List Nat
  /-- How many free values have been drawn. -/
  draws : Nat
deriving DecidableEq, Repr

/-- The block: the banks (R10), the sequencing state (R20, R22, R23), the configuration registers (R24 to R26), the shared and hidden
state (R30 to R35), and the model's own `active`, `sendEnd` and `env` (R36). Times are natural numbers of milliseconds (R145). Log 5. -/
structure State where
  /-- One bank per requester, `NREQ` of them (R10). -/
  banks : List Bank
  /-- `FSM` (R20). -/
  fsm : Fsm
  /-- `CUR` (R20). -/
  cur : Cur
  /-- `LOCK`, with `OWNER` in it (R20, R32). -/
  lock : Lock
  /-- `TMO` (R22). -/
  tmo : Word
  /-- `EXPLEN` (R22). -/
  explen : Half
  /-- `DEADLINE` (R23). -/
  deadline : Nat
  /-- `DELAY_POLL` (R24). -/
  delayPoll : Word
  /-- `DELAY_ERR` (R25). -/
  delayErr : Word
  /-- `BAUD` (R26). -/
  baud : Word
  /-- `LAST_POLL` (R31). -/
  lastPoll : Nat
  /-- `NOW` (R30). -/
  now : Nat
  /-- `SERQ`: pairs of a byte and its arrival time, the oldest first (R33). -/
  serq : List (Byte × Nat)
  /-- `SEROUT` (R34). -/
  serout : List Byte
  /-- `TRACE` (R35). -/
  trace : List TraceRecord
  /-- MODEL's own: the instant `t3` of R128 at which the line write in progress ends. Log 21. -/
  sendEnd : Nat
  /-- MODEL's own: the requester whose command runs. Log 20. -/
  active : Nat
  /-- MODEL's own: the inputs. -/
  env : Env
deriving DecidableEq, Repr

/-- Where the machine stops with a fault. No step from a state that meets the invariant of `Safety.lean` does. Log 19. -/
inductive Fault where
  /-- Raised by a command or a sequencer transition for a requester number that is not below `NREQ`: there is no such bank (R10). Safe. -/
  | noSuchRequester
  /-- Raised by the sequencer in a combination of `FSM`, `CUR`, `LOCK` and `TXLEN` that no run reaches (R124). Safe. -/
  | sequencerInconsistent
deriving DecidableEq, Repr

/-- Where the model gives no meaning. -/
inductive Refusal where
  /-- Raised by the dispatcher for a command with no meaning yet; no command of this model is left so. Safe. -/
  | notModelled (mnemonic : String)
  /-- Raised by the step for a byte string that is no whole command: the command port does not deliver it (U12: "refuse"). Log 10. Safe. -/
  | malformedCommand
  /-- Raised by a command of a requester whose command in progress holds the lock: the command port does not accept it
  (U12: "refuse"). Log 11. Safe. -/
  | commandInProgress
deriving DecidableEq, Repr

/-- What a command, a sequencer transition or a step answers. -/
abbrev Result := Host.Outcome State Fault Refusal

/-- `STATUS_NONE` (R16, R66). -/
@[simp] abbrev STATUS_NONE : Half := 0x8000#16

/-- `CTX` of seven zero bytes (R13). -/
def Ctx.zero : Ctx := ⟨0, 0, 0, 0, 0, 0, 0⟩

/-- A bank after reset (R38, R201). -/
def Bank.reset : Bank :=
  { crc := 0xFFFF#16, pbuf := [], ctx := Ctx.zero, ctxLen := .none, txbuf := [], rxbuf := [],
    status := STATUS_NONE, fault := .none, flog := 0#8 }

/-- The inputs when the outside world does nothing: no commands, no line bytes, no resets, every choice a free value. -/
def Env.quiet : Env := { hosts := [], line := [], grants := [], sends := [], resets := [], draws := 0 }

/-- The block right after a reset at the instant `t`, with `nreq` requesters and the reset baud rate `baud` (R38). -/
def State.resetAt (nreq : Nat) (baud : Word) (t : Nat) (env : Env) : State :=
  { banks := List.replicate nreq Bank.reset, fsm := .idle, cur := .none, lock := .free, tmo := 0#32, explen := 0#16,
    deadline := 0, delayPoll := Config.DELAY_POLL_RESET, delayErr := Config.DELAY_ERR_RESET, baud := baud, lastPoll := t,
    now := t, serq := [], serout := [], trace := [], sendEnd := 0, active := 0, env := env }

/-- The machine right after reset (R38, R200). -/
def State.reset : State := State.resetAt Config.NREQ Config.BAUD_RESET Config.tReset.toNat Env.quiet

end Sys2Proof.Machine
end

