-- ==== Sys2Proof/Machine/Operands.lean ====
section
/-!
DEFINITION. How commands name what they work on: the length registers of a bank (R12 to R15), the bytes of a context (R13), and the
fields of a frame at their fixed offsets (R51, R60 to R65, R72, R73).
-/

namespace Sys2Proof.Machine

/-- `PLEN` (R12). -/
def Bank.plen (b : Bank) : Nat := b.pbuf.length
/-- `TXLEN` (R14). -/
def Bank.txlen (b : Bank) : Nat := b.txbuf.length
/-- `RXCNT` (R15). -/
def Bank.rxcnt (b : Bank) : Nat := b.rxbuf.length

/-- `CTXLEN` as a number (R13). -/
def CtxLen.toNat : CtxLen → Nat
  | .none => 0
  | .rtu => Config.CTX_RTU_LEN
  | .tcp => Config.CTX_TCP_LEN

/-- `CTX[0..6]` as bytes (R13). -/
def Ctx.bytes (c : Ctx) : List Byte := [c.b0, c.b1, c.b2, c.b3, c.b4, c.b5, c.b6]

/-- The context of an RTU frame: `CTX[0]` the unit id, `CTX[1..6]` zero (R13, R65, R100). -/
def Ctx.ofUnit (u : Byte) : Ctx := ⟨u, 0, 0, 0, 0, 0, 0⟩

/-- The context a fresh TCP header is made from: transaction id, protocol id 0, length 0, unit id (R64, R71, R110). -/
def Ctx.ofUnitSequence (u : Byte) (sequence : Half) : Ctx := ⟨hi8 sequence, lo8 sequence, 0, 0, 0, 0, u⟩

/-- The first seven bytes of a byte sequence as a context; none when it is shorter (R64, R113). -/
def Ctx.ofBytes? : List Byte → Option Ctx
  | b0 :: b1 :: b2 :: b3 :: b4 :: b5 :: b6 :: _ => some ⟨b0, b1, b2, b3, b4, b5, b6⟩
  | _ => none

/-- The protocol id of a TCP context, `CTX[2..3]`, high byte first (R46, R71). -/
def Ctx.protocolId (c : Ctx) : Half := be16 c.b2 c.b3

/-- The length field of a TCP context, `CTX[4..5]`, high byte first (R46, R72). -/
def Ctx.lengthField (c : Ctx) : Half := be16 c.b4 c.b5

/-- The exception bit of a function-code byte: bit 7 (R68). -/
def exceptionBit (functionCode : Byte) : Bool := functionCode.getLsbD 7

/-- The value of a single-byte read of a buffer; none at or past its length, where the byte holds no value (R37, R42, U6). -/
def bufferRead (buf : List Byte) (i : Nat) : Option Byte := buf[i]?

/-- The allow-list test of `SETBAUD` (R26, R150). -/
def baudLegal (baud : Word) : Bool := Config.BAUD_SET.contains baud

end Sys2Proof.Machine
end

