-- ==== Sys2Proof/Machine/Flags.lean ====
section
/-!
DEFINITION. The codes and flags: `STATUS` and `FAULT` encodings (R66, R67), `FLOG` (R18), and the derived flags of R21.
-/

namespace Sys2Proof.Machine

/-- Status `SUCCESS`, 0 (R66). -/
@[simp] abbrev SUCCESS : Half := 0x0000#16
/-- Status `TIMEOUT`, -1 (R66, R181). -/
@[simp] abbrev TIMEOUT : Half := 0xFFFF#16
/-- Status `CRC_ERROR`, -2 (R66, R182). -/
@[simp] abbrev CRC_ERROR : Half := 0xFFFE#16
/-- Status `LENGTH_MISMATCH`, -3 (R66, R183). -/
@[simp] abbrev LENGTH_MISMATCH : Half := 0xFFFD#16

/-- The number of a fatal cause (R17, R67). -/
def Cause.code : Cause → Nat
  | .protocolViolation => 1
  | .rxOverflow => 2
  | .configError => 3
  | .refused => 4
  | .illegalCommand => 5

/-- The three bits of `FAULT` (R67). -/
def FaultReg.bits : FaultReg → BitVec 3
  | .none => 0#3
  | .raised c => BitVec.ofNat 3 c.code

/-- `FLOG | (1 << c)` (R8, R18). -/
def flogSet (flog : BitVec 8) (c : Cause) : BitVec 8 := flog ||| (1#8 <<< c.code)

/-- A status is negative, in two's complement (R16). -/
def statusNegative (v : Half) : Bool := v.msb

/-- What the end of a command writes into its bank: `STATUS`, `FAULT`, `FLOG` (R16, R17, R18, R189). -/
def Bank.ending (b : Bank) : Ending → Bank
  | .status v => { b with status := v, fault := .none }
  | .fatal c => { b with status := STATUS_NONE, fault := .raised c, flog := flogSet b.flog c }

/-- An ending that gets an `ERROR` record in `TRACE`: a negative status or a fault (R35, R139). -/
def Ending.isError : Ending → Bool
  | .status v => statusNegative v
  | .fatal _ => true

/-- `BUSY` = (`LOCK` is not `FREE`) (R21). -/
def busyFlag (s : State) : Bool := s.lock != .free

/-- `EXC` = (`RXCNT >= 2` and `RXBUF[1][7] = 1`) (R21). -/
def excFlag (b : Bank) : Bool :=
  match b.rxbuf with
  | _ :: functionCode :: _ => exceptionBit functionCode
  | _ => false

/-- `FRAME_VALID` = (`FAULT = NONE` and `STATUS >= 0` and `RXCNT >= 1`) (R21). -/
def frameValidFlag (b : Bank) : Bool := b.fault == .none && !statusNegative b.status && decide (1 ≤ b.rxcnt)

end Sys2Proof.Machine
end

