-- ==== Sys2Proof/Machine/Ops.lean ====
section
/-!
DEFINITION. The named operations every command is written over: the command port's gate, the lock (R196), the serial primitives of R8,
the ending of a command (R139, R189), and `Memory.wf`.
-/

namespace Sys2Proof.Machine

/-- The capacities of the buffers of one bank (R12, R14, R15, R41). -/
def Bank.fits (b : Bank) : Bool :=
  decide (b.pbuf.length ≤ Config.PDU_MAX) && decide (b.txbuf.length ≤ Config.BUF_CAP) && decide (b.rxbuf.length ≤ Config.BUF_CAP)

/-- The canonical form of the block's storage: every buffer holds exactly the bytes below its length, within its capacity (R40, R41).
There is no addressed memory (R29, R40). Log 23. -/
def Memory.wf (banks : List Bank) : Bool := banks.all Bank.fits

/-- The gate of the command port. A requester that does not exist has no bank (R10); a requester whose command holds the lock has a
command in progress, and a second one is refused (R53, U12). Otherwise the command runs on its bank. Logs 11, 19. -/
def withRequester (s : State) (k : Bank → Result) : Result :=
  match s.banks[s.active]? with
  | none => .fault .noSuchRequester
  | some b => if s.lock = .held s.active then .refused .commandInProgress else k b

/-- The lock may be taken: `LOCK = FREE`, with the sequencer in `IDLE` (R125, R196). -/
def State.lockFree (s : State) : Bool := s.lock == .free && s.fsm == .idle

/-- `lock(r)` of a lock-taking command: it waits, nothing changing, until the lock is free (R196, R197). -/
def whenLockFree (s : State) (k : Result) : Result := if s.lockFree then k else .next s

/-- Bank `r` becomes `b`; no other bank is touched (R10). -/
def State.setBank (s : State) (r : Nat) (b : Bank) : State := { s with banks := s.banks.set r b }

/-- `LOCK <- HELD(r)`, `CUR <-` the command (R125). -/
def State.takeLock (s : State) (r : Nat) (c : Cur) : State := { s with lock := .held r, cur := c }

/-- `CUR <- none`, `FSM <- IDLE`, `LOCK <- FREE` (R139). -/
def State.release (s : State) : State := { s with cur := .none, fsm := .idle, lock := .free }

/-- `SerWrite(s)`: append to `SEROUT` in index order (R8, R44). -/
def State.serWrite (s : State) (frame : List Byte) : State := { s with serout := s.serout ++ frame }

/-- `SerFlush()`: `SERQ <- empty` (R8, R55). -/
def State.serFlush (s : State) : State := { s with serq := [] }

/-- A record is appended to `TRACE` (R35). -/
def State.log (s : State) (records : List TraceRecord) : State := { s with trace := s.trace ++ records }

/-- The completion handshake: requester `r`'s command is done, and its next one may come (R53, R187). Log 9. -/
def State.handshake (s : State) (r : Nat) : State :=
  { s with env := { s.env with hosts := s.env.hosts.modify r List.tail } }

/-- The `ERROR` record of an ending, if it is one (R35, R139, R198). -/
def errorRecord (r : Nat) (e : Ending) : List TraceRecord := if e.isError then [.error r e] else []

/-- The ending of a command of requester `r` whose bank it leaves as `b`: `done`, `fail` or `fatal` (R8, R189). -/
def State.conclude (s : State) (r : Nat) (b : Bank) (e : Ending) : State :=
  ((s.setBank r (b.ending e)).log (errorRecord r e)).handshake r

/-- The ending of a lock-free command of the active requester (R189). -/
def finish (s : State) (b : Bank) (e : Ending) : Result := .next (s.conclude s.active b e)

/-- `done(s)` (R8). -/
def endDone (s : State) (b : Bank) : Result := finish s b (.status SUCCESS)

/-- `fail(s)`, with a negative status (R8). -/
def endFail (s : State) (b : Bank) (v : Half) : Result := finish s b (.status v)

/-- `fatal(c)` (R8). -/
def endFatal (s : State) (b : Bank) (c : Cause) : Result := finish s b (.fatal c)

/-- `refuse()`: `fatal(REFUSED)` with no other state change (R8, R185). -/
def endRefuse (s : State) (b : Bank) : Result := endFatal s b .refused

/-- `failed(s)` of R122 and R139: a negative status or a fault; a positive status when the parameter says so. -/
def Ending.failed (p : Params) : Ending → Bool
  | .status v => statusNegative v || (v != 0#16 && p.backoffOnException)
  | .fatal _ => true

/-- `LAST_POLL` at the completion of an `XCHG`: now on success, now and the error backoff on failure (R139). -/
def pollAfter (p : Params) (s : State) (e : Ending) : Nat :=
  if e.failed p then s.now + s.delayErr.toNat else s.now

/-- The `RXFRAME` record of a completion: `CUR` is `RX` or `XCHG`, the status is not negative and a frame was received (R139). -/
def frameRecord (r : Nat) (b : Bank) (c : Cur) (e : Ending) : List TraceRecord :=
  if (c = .rx ∨ c = .xchg) ∧ e.isError = false ∧ b.rxbuf ≠ [] then [.rxFrame r b.rxbuf] else []

/-- Completion of a lock-taking command of requester `r` whose bank it leaves as `b` (R139). -/
def State.complete (p : Params) (s : State) (r : Nat) (b : Bank) (e : Ending) : State :=
  let lastPoll := if s.cur = .xchg then pollAfter p s e else s.lastPoll
  ((({ s with lastPoll := lastPoll }).log (frameRecord r b s.cur e)).conclude r b e).release

end Sys2Proof.Machine
end

