-- ==== Sys2Proof/Machine/ConfigLoad.lean ====
section
/-!
DEFINITION. The configuration commands (R150 to R152, R157) and the buffer loads (R153 to R156).
-/

namespace Sys2Proof.Machine

/-- A `SET` command: it waits for the lock, holds it for one step with `FSM` staying `IDLE`, and completes (R157). `write` is what it does to
the configuration registers, and `e` how it ends. -/
def underLock (s : State) (c : Cur) (write : State → State) (e : Ending) : Result :=
  withRequester s fun b =>
    whenLockFree s (.next ((write (s.takeLock s.active c)).complete Config.params s.active b e))

/-- `SETBAUD baud` (R150). -/
def execSetbaud (baud : Word) (s : State) : Result :=
  if baudLegal baud then underLock s .setbaud (fun t => { t with baud := baud }) (.status SUCCESS)
  else underLock s .setbaud (fun t => t) (.fatal .configError)

/-- `SETPOLL ms` (R151). -/
def execSetpoll (ms : Word) (s : State) : Result :=
  underLock s .setpoll (fun t => { t with delayPoll := ms }) (.status SUCCESS)

/-- `SETERR ms` (R152). -/
def execSeterr (ms : Word) (s : State) : Result :=
  underLock s .seterr (fun t => { t with delayErr := ms }) (.status SUCCESS)

/-- `LOAD.P n, data` (R153). -/
def execLoadP (data : List Byte) (s : State) : Result :=
  withRequester s fun b =>
    if data.length ≤ Config.PDU_MAX then endDone s { b with pbuf := data } else endRefuse s b

/-- `LOAD.R n, data` (R154). -/
def execLoadR (data : List Byte) (s : State) : Result :=
  withRequester s fun b =>
    if data.length ≤ Config.BUF_CAP then endDone s { b with rxbuf := data } else endRefuse s b

/-- `LOAD.C n, data` (R155): one byte is an RTU context, seven a TCP context, any other count is refused. -/
def execLoadC (data : List Byte) (s : State) : Result :=
  withRequester s fun b =>
    match data with
    | [u] => endDone s { b with ctx := Ctx.ofUnit u, ctxLen := .rtu }
    | [b0, b1, b2, b3, b4, b5, b6] => endDone s { b with ctx := ⟨b0, b1, b2, b3, b4, b5, b6⟩, ctxLen := .tcp }
    | _ => endRefuse s b

/-- `LOAD.T n, data` (R156). -/
def execLoadT (data : List Byte) (s : State) : Result :=
  withRequester s fun b =>
    if data.length ≤ Config.BUF_CAP then endDone s { b with txbuf := data } else endRefuse s b

end Sys2Proof.Machine
end

