-- ==== Sys2Proof/Machine/Crc.lean ====
section
/-!
DEFINITION. The CRC16 generator (R90 to R99) and its two commands, `CRC.INIT` and `CRC.UPD`. The constant is 0xA001, the register shifts
right (R91; conflict C1). Log 24.
-/

namespace Sys2Proof.Machine

/-- One of the eight shift steps of R91: a 1 that leaves at the bottom XORs the constant in. -/
def crcShift (c : Half) : Half :=
  if c.getLsbD 0 then (c >>> 1) ^^^ Config.CRC_POLY else c >>> 1

/-- `k` shift steps (R91). -/
def crcShifts : Nat → Half → Half
  | 0, c => c
  | k + 1, c => crcShifts k (crcShift c)

/-- `crc_byte(c, b)`: the byte enters the low 8 bits, then eight shift steps (R91). -/
def crcByte (c : Half) (b : Byte) : Half := crcShifts 8 (c ^^^ zext16 b)

/-- The accumulator of `CRC16` run on over a byte sequence (R92). -/
def crcRun (c : Half) (s : List Byte) : Half := s.foldl crcByte c

/-- `CRC16(s)` (R92). It does not touch the register `CRC`. -/
def crc16 (s : List Byte) : Half := crcRun Config.CRC_INIT s

/-- `CRC.INIT` (R94). -/
def execCrcInit (s : State) : Result :=
  withRequester s fun b => endDone s { b with crc := Config.CRC_INIT }

/-- `CRC.UPD b` (R95). -/
def execCrcUpd (byte : Byte) (s : State) : Result :=
  withRequester s fun b => endDone s { b with crc := crcByte b.crc byte }

end Sys2Proof.Machine
end

