-- ==== Sys2Proof/Machine/MbapCodec.lean ====
section
/-!
DEFINITION. The MBAP header formatter and parser (R110 to R117): the pure functions of R114 and the four commands over them. The header
has seven bytes (R64; conflict C2).
-/

namespace Sys2Proof.Machine

/-- `tcp_encap(x, p)`: transaction and protocol id verbatim, the length field recomputed, the unit id, the PDU (R72, R111, R114). -/
def tcpEncap (x : Ctx) (pdu : List Byte) : List Byte :=
  let n : Half := BitVec.ofNat 16 (pdu.length + 1)
  [x.b0, x.b1, x.b2, x.b3] ++ bytesBE16 n ++ [x.b6] ++ pdu

/-- The header of a TCP ADU; none when there is no room for one (R112, R113). -/
def tcpHeader (adu : List Byte) : Option Ctx := Ctx.ofBytes? adu

/-- `tcp_decap(a)`: the PDU, when the length field counts the unit id and the PDU; else a protocol violation (R112, R114). -/
def tcpDecap (adu : List Byte) : Option (List Byte) :=
  match tcpHeader adu with
  | none => none
  | some h => if h.lengthField.toNat = adu.length - 6 then some (adu.drop 7) else none

/-- `tcp_xctx(a)`: the raw header, when the protocol id is zero; else a protocol violation (R113, R114). -/
def tcpXctx (adu : List Byte) : Option Ctx :=
  match tcpHeader adu with
  | none => none
  | some h => if h.protocolId = 0#16 then some h else none

/-- `MKCTX.TCP` (R110). -/
def execMkctxTcp (unitId : Byte) (sequence : Half) (s : State) : Result :=
  withRequester s fun b => endDone s { b with ctx := Ctx.ofUnitSequence unitId sequence, ctxLen := .tcp }

/-- `ENCAP.TCP` (R111). -/
def execEncapTcp (s : State) : Result :=
  withRequester s fun b =>
    match b.ctxLen with
    | .tcp => endDone s { b with txbuf := tcpEncap b.ctx b.pbuf }
    | .none => endRefuse s b
    | .rtu => endRefuse s b

/-- `DECAP.TCP` (R112). -/
def execDecapTcp (s : State) : Result :=
  withRequester s fun b =>
    match tcpDecap b.rxbuf with
    | none => endFatal s { b with pbuf := [] } .protocolViolation
    | some pdu => endDone s { b with pbuf := pdu }

/-- `XCTX.TCP` (R113). A violation leaves `CTX[0..6]` as it was (DEDUCED, log 8). -/
def execXctxTcp (s : State) : Result :=
  withRequester s fun b =>
    match tcpXctx b.rxbuf with
    | none => endFatal s { b with ctxLen := .none } .protocolViolation
    | some h => endDone s { b with ctx := h, ctxLen := .tcp }

end Sys2Proof.Machine
end

