-- ==== Sys2Proof/Machine/RtuCodec.lean ====
section
/-!
DEFINITION. The RTU frame encoder and decoder (R100 to R107): the pure functions of R105 and the four commands over them.
-/

namespace Sys2Proof.Machine

/-- `rtu_encap([u], p)`: unit id, PDU, and the CRC over both, low byte first (R45, R61, R105). -/
def rtuEncap (u : Byte) (pdu : List Byte) : List Byte :=
  let c := crc16 (u :: pdu)
  u :: pdu ++ [lo8 c, hi8 c]

/-- The length guard of the RTU decoder: 3 to 256 bytes (R102, R103, R105). -/
def rtuLengthOk (adu : List Byte) : Bool :=
  decide (Config.CODEC_MIN ≤ adu.length) && decide (adu.length ≤ Config.FRAME_MAX)

/-- The CRC test: zero over the whole frame, check bytes included (R70, R102). -/
def crcOk (adu : List Byte) : Bool := crc16 adu == 0#16

/-- `a[1 .. len(a)-3]`, the PDU inside an RTU frame (R61, R105). -/
def rtuPdu (adu : List Byte) : List Byte := (adu.drop 1).take (adu.length - 3)

/-- Why the RTU decoder fails on a frame, length before CRC; none for a valid one (R102, R188 item 4). -/
def rtuFailure (adu : List Byte) : Option Half :=
  if rtuLengthOk adu then
    if crcOk adu then none else some CRC_ERROR
  else some LENGTH_MISMATCH

/-- `MKCTX.RTU` (R100). The sequence is ignored. -/
def execMkctxRtu (unitId : Byte) (_sequence : Half) (s : State) : Result :=
  withRequester s fun b => endDone s { b with ctx := Ctx.ofUnit unitId, ctxLen := .rtu }

/-- `ENCAP.RTU` (R101). -/
def execEncapRtu (s : State) : Result :=
  withRequester s fun b =>
    match b.ctxLen with
    | .rtu => endDone s { b with txbuf := rtuEncap b.ctx.b0 b.pbuf }
    | .none => endRefuse s b
    | .tcp => endRefuse s b

/-- `DECAP.RTU` (R102). -/
def execDecapRtu (s : State) : Result :=
  withRequester s fun b =>
    match rtuFailure b.rxbuf with
    | some v => endFail s { b with pbuf := [] } v
    | none => endDone s { b with pbuf := rtuPdu b.rxbuf }

/-- `XCTX.RTU` (R103). A valid frame is not empty, so its first byte is there. A failure leaves `CTX[0..6]` as it was (DEDUCED, log 8). -/
def execXctxRtu (s : State) : Result :=
  withRequester s fun b =>
    match rtuFailure b.rxbuf with
    | some v => endFail s { b with ctxLen := .none } v
    | none => endDone s { b with ctx := Ctx.ofUnit (b.rxbuf.headD 0), ctxLen := .rtu }

end Sys2Proof.Machine
end

