-- ==== Sys2Proof/Machine/Transport.lean ====
section
/-!
DEFINITION. The serial transport: the commands `TX`, `RX`, `XCHG`, which the grant of the lock starts (R120 to R122, R125), and the
transitions of the sequencer that carry them to their end (R126 to R139).
-/

namespace Sys2Proof.Machine

/-- `TX` (R120): granted, it enters the pacing wait (R125). -/
def execTx (s : State) : Result :=
  withRequester s fun _ =>
    whenLockFree s (.next { s.takeLock s.active .tx with fsm := .pace })

/-- Entry to `HEAD` with an empty `RXBUF` and a response deadline counted from now (R125, R128, R141). -/
def State.enterHead (s : State) (r : Nat) (b : Bank) : State :=
  { s.setBank r { b with rxbuf := [] } with deadline := s.now + s.tmo.toNat, fsm := .head }

/-- `RX timeout, expected_length` (R121): granted, it latches its operands and enters `HEAD` (R125). -/
def execRx (timeout : Word) (expectedLength : Half) (s : State) : Result :=
  withRequester s fun b =>
    whenLockFree s
      (.next ({ s.takeLock s.active .rx with tmo := timeout, explen := expectedLength }.enterHead s.active b))

/-- `XCHG timeout, expected_length` (R122): refused with an empty frame, before any lock is taken; granted, it latches its operands and
enters the pacing wait (R125). -/
def execXchg (timeout : Word) (expectedLength : Half) (s : State) : Result :=
  withRequester s fun b =>
    if b.txbuf = [] then endRefuse s b
    else whenLockFree s
      (.next { s.takeLock s.active .xchg with tmo := timeout, explen := expectedLength, fsm := .pace })

/-- The requester that holds the lock, with its bank: the one whose command the sequencer is running (R20, R124). -/
def withOwner (s : State) (k : Nat → Bank → Result) : Result :=
  match s.lock with
  | .free => .fault .sequencerInconsistent
  | .held r =>
    match s.banks[r]? with
    | none => .fault .noSuchRequester
    | some b => k r b

/-- The duration of the next line write: the next one the environment lists, else a free value (R128, U5). Log 14. -/
def Env.nextSend (e : Env) : Nat :=
  match e.sends with
  | d :: _ => d
  | [] => Config.freeSendTime e.draws

/-- The environment after that choice. -/
def Env.takeSend (e : Env) : Env :=
  match e.sends with
  | _ :: rest => { e with sends := rest }
  | [] => { e with draws := e.draws + 1 }

/-- End of the pacing wait: flush, and the write begins (R126, R127, R128). -/
def paceDone (s : State) : Result :=
  withOwner s fun _ _ =>
    .next { s.serFlush with fsm := .send, sendEnd := s.now + s.env.nextSend, env := s.env.takeSend }

/-- `classify()`: the exception code of a frame whose exception bit is set, else success (R138). It is applied to frames of at least five
bytes only (R132, R137), so both bytes are there. -/
def classify (frame : List Byte) : Half :=
  if exceptionBit (frame.getD 1 0) then zext16 (frame.getD 2 0) else SUCCESS

/-- `validate()`: length bounds, then CRC, then the exception bit (R137, R188). -/
def validate (frame : List Byte) : Half :=
  if frame.length < Config.FRAME_MIN ∨ Config.FRAME_MAX < frame.length then LENGTH_MISMATCH
  else if crcOk frame then classify frame
  else CRC_ERROR

/-- End of the line write: the frame is on `SEROUT`, `LAST_POLL` is now; a `TX` and a broadcast `XCHG` complete, any other `XCHG` starts to
receive (R128, R129). -/
def sendDone (p : Params) (s : State) : Result :=
  withOwner s fun r b =>
    let t := { (s.serWrite b.txbuf).log [.txFrame r b.txbuf] with lastPoll := s.now }
    match s.cur with
    | .tx => .next (t.complete p r b (.status SUCCESS))
    | .xchg =>
      match b.txbuf with
      | [] => .fault .sequencerInconsistent
      | u :: _ =>
        if u = Config.BROADCAST then .next (t.complete p r { b with rxbuf := [] } (.status SUCCESS))
        else .next (t.enterHead r b)
    | _ => .fault .sequencerInconsistent

/-- What follows the fifth byte of the head chunk (R132): in expected-length mode the short-frame return, the validation of a chunk that is
all that was asked for, or the remainder with a fresh deadline; in unknown-length mode the gap loop. `b` holds the chunk. -/
def headDone (p : Params) (s : State) (r : Nat) (b : Bank) : State :=
  if s.explen ≠ 0#16 then
    if crcOk b.rxbuf then s.complete p r b (.status (classify b.rxbuf))
    else if s.explen.toNat ≤ Config.HEAD_LEN then s.complete p r b (.status (validate b.rxbuf))
    else { s.setBank r b with deadline := s.now + s.tmo.toNat, fsm := .bodyLen }
  else if p.gapShortCheck ∧ crcOk b.rxbuf then s.complete p r b (.status (classify b.rxbuf))
  else { s.setBank r b with deadline := s.now + p.tIchar, fsm := .bodyGap }

/-- A byte in `HEAD`; the fifth ends the chunk (R130, R132). `b` already holds the byte. -/
def headByte (p : Params) (s : State) (r : Nat) (b : Bank) : State :=
  if b.rxbuf.length = Config.HEAD_LEN then headDone p s r b else s.setBank r b

/-- The count at which a receive of known length stops: `min(EXPLEN, 257)` (R133). -/
def bodyTarget (s : State) : Nat := min s.explen.toNat Config.RX_STOP

/-- A byte in `BODY_LEN`; the last expected one ends the frame (R133). `b` already holds the byte. -/
def bodyLenByte (p : Params) (s : State) (r : Nat) (b : Bank) : State :=
  if b.rxbuf.length = bodyTarget s then s.complete p r b (.status (validate b.rxbuf)) else s.setBank r b

/-- A byte in `BODY_GAP`: the 257th is a fatal overflow, any other starts the silence anew (R135). `b` already holds the byte. -/
def gapByte (p : Params) (s : State) (r : Nat) (b : Bank) : State :=
  if Config.FRAME_MAX < b.rxbuf.length then s.complete p r b (.fatal .rxOverflow)
  else { s.setBank r b with deadline := s.now + p.tIchar }

/-- A byte is stored at `RXBUF[RXCNT]` and counted (R130, R133, R135). -/
def Bank.storeByte (b : Bank) (x : Byte) : Bank := { b with rxbuf := b.rxbuf ++ [x] }

/-- A receive state: a byte that is available is taken, before a timeout is looked at (R143). -/
def receiveTurn (s : State) (onByte : State → Nat → Bank → State) (onTimeout : State → Nat → Bank → State) : Result :=
  withOwner s fun r b =>
    match s.serq with
    | (x, _) :: rest => .next (onByte { s with serq := rest } r (b.storeByte x))
    | [] => .next (onTimeout s r b)

/-- The transition of the sequencer whose condition holds (R123 overview, R126 to R136). -/
def sequencerTurn (p : Params) (s : State) : Result :=
  match s.fsm with
  | .idle => .fault .sequencerInconsistent
  | .pace => paceDone s
  | .send => sendDone p s
  | .head => receiveTurn s (headByte p) fun t r b => t.complete p r b (.status TIMEOUT)
  | .bodyLen => receiveTurn s (bodyLenByte p) fun t r b => t.complete p r b (.status (validate b.rxbuf))
  | .bodyGap => receiveTurn s (gapByte p) fun t r b => t.complete p r b (.status (validate b.rxbuf))

/-- The condition of the sequencer's next transition (R123 overview): the pacing delay over (R126), the write over (R128), a byte available
or the deadline reached (R130 to R136, R143). -/
def sequencerReady (s : State) : Bool :=
  match s.fsm with
  | .idle => false
  | .pace => decide (s.lastPoll + s.delayPoll.toNat ≤ s.now)
  | .send => decide (s.sendEnd ≤ s.now)
  | .head => !s.serq.isEmpty || decide (s.deadline ≤ s.now)
  | .bodyLen => !s.serq.isEmpty || decide (s.deadline ≤ s.now)
  | .bodyGap => !s.serq.isEmpty || decide (s.deadline ≤ s.now)

end Sys2Proof.Machine
end

