-- ==== Sys2Proof/Machine/Dispatch.lean ====
section
/-!
DEFINITION. The meaning of every command, by one direct call per constructor.
-/

namespace Sys2Proof.Machine

def exec (i : Instr) (s : State) : Host.Outcome State Fault Refusal :=
  match i with
  | .crcInit => Sys2Proof.Machine.execCrcInit s
  | .crcUpd b => Sys2Proof.Machine.execCrcUpd b s
  | .mkctxRtu unitId sequence => Sys2Proof.Machine.execMkctxRtu unitId sequence s
  | .encapRtu => Sys2Proof.Machine.execEncapRtu s
  | .decapRtu => Sys2Proof.Machine.execDecapRtu s
  | .xctxRtu => Sys2Proof.Machine.execXctxRtu s
  | .mkctxTcp unitId sequence => Sys2Proof.Machine.execMkctxTcp unitId sequence s
  | .encapTcp => Sys2Proof.Machine.execEncapTcp s
  | .decapTcp => Sys2Proof.Machine.execDecapTcp s
  | .xctxTcp => Sys2Proof.Machine.execXctxTcp s
  | .tx => Sys2Proof.Machine.execTx s
  | .rx timeout expectedLength => Sys2Proof.Machine.execRx timeout expectedLength s
  | .xchg timeout expectedLength => Sys2Proof.Machine.execXchg timeout expectedLength s
  | .setbaud baud => Sys2Proof.Machine.execSetbaud baud s
  | .setpoll ms => Sys2Proof.Machine.execSetpoll ms s
  | .seterr ms => Sys2Proof.Machine.execSeterr ms s
  | .loadP data => Sys2Proof.Machine.execLoadP data s
  | .loadR data => Sys2Proof.Machine.execLoadR data s
  | .loadC data => Sys2Proof.Machine.execLoadC data s
  | .loadT data => Sys2Proof.Machine.execLoadT data s

end Sys2Proof.Machine
end

