-- ==== Sys2Proof/Machine/Schedule.lean ====
section
/-!
DEFINITION. Whose turn it is. One step is one turn: a reset, a command of a requester, the arrival of a line byte, a transition of the
sequencer, or the passing of a millisecond. Everything but a grant and the passing of time is urgent (R123); within a millisecond, bytes
are queued before a timer is looked at (R143). Log 12.
-/

namespace Sys2Proof.Machine

/-- The turn a step takes. -/
inductive Turn where
  /-- A reset event (R200, R203). -/
  | reset
  /-- A lock-free command of requester `r` runs (R49, R196). -/
  | command (r : Nat)
  /-- The arbiter grants the lock to the waiting command of requester `r` (R125, R197). -/
  | grant (r : Nat)
  /-- A byte arrives from the line (R33, R43). -/
  | line
  /-- The sequencer takes its transition (R126 to R139). -/
  | sequencer
  /-- A millisecond passes (R30, R143). -/
  | tick
deriving DecidableEq, Repr

/-- The command at the front of a requester's stream has been issued (R81): at the instant it names, or when the one before it ended. -/
def issued (now : Nat) (c : Issue) : Bool :=
  match c.due with
  | none => true
  | some t => decide (t ≤ now)

/-- The command at requester `r`'s port, issued and not yet started; none when it has none, when its command in progress holds the lock
(R53), or when there is no such requester (R10). -/
def pendingCommand (s : State) (r : Nat) (stream : List Issue) : Option (List Byte × Bank) :=
  if s.lock = .held r then none
  else
    match s.banks[r]?, stream with
    | some b, c :: _ => if issued s.now c then some (c.bytes, b) else none
    | _, _ => none

/-- Whether a command must wait for the lock (R196): the six lock-taking commands, but for an `XCHG` whose frame is empty, which is refused
before any lock is taken (R125, R185). -/
def needsLock (bytes : List Byte) (b : Bank) : Bool :=
  match decode bytes with
  | .error _ => false
  | .ok i =>
    match i.opcode with
    | .tx => true
    | .rx => true
    | .xchg => !b.txbuf.isEmpty
    | .setbaud => true
    | .setpoll => true
    | .seterr => true
    | .crcInit => false
    | .crcUpd => false
    | .mkctxRtu => false
    | .encapRtu => false
    | .decapRtu => false
    | .xctxRtu => false
    | .mkctxTcp => false
    | .encapTcp => false
    | .decapTcp => false
    | .xctxTcp => false
    | .loadP => false
    | .loadR => false
    | .loadC => false
    | .loadT => false

/-- Requester `r` has a command that runs at once (R196). -/
def runnable (s : State) (r : Nat) (stream : List Issue) : Bool :=
  match pendingCommand s r stream with
  | none => false
  | some (bytes, b) => !needsLock bytes b

/-- Requester `r` has a command that waits for the lock (R125, R196). -/
def waiting (s : State) (r : Nat) (stream : List Issue) : Bool :=
  match pendingCommand s r stream with
  | none => false
  | some (bytes, b) => needsLock bytes b

/-- The first requester, counting from `r`, whose stream satisfies `p`. -/
def firstRequester (p : Nat → List Issue → Bool) : Nat → List (List Issue) → Option Nat
  | _, [] => none
  | r, q :: qs => if p r q then some r else firstRequester p (r + 1) qs

/-- Some requester waits for a lock that is free: a grant may be made (R125). -/
def grantOpen (s : State) : Bool := s.lockFree && (firstRequester (waiting s) 0 s.env.hosts).isSome

/-- The arbiter's next choice: the next one the environment lists, else a free value (R197, U4). Log 13. -/
def Env.nextGrant (e : Env) : Option Nat :=
  match e.grants with
  | g :: _ => g
  | [] => Config.freeGrant e.draws

/-- The environment after that choice. -/
def Env.takeGrant (e : Env) : Env :=
  match e.grants with
  | _ :: rest => { e with grants := rest }
  | [] => { e with draws := e.draws + 1 }

/-- The requester the lock is granted to now: the arbiter's choice, if that requester waits (R125, R197). -/
def grantTo (s : State) : Option Nat :=
  if grantOpen s then
    match s.env.nextGrant with
    | none => none
    | some r => if waiting s r (s.env.hosts.getD r []) then some r else none
  else none

/-- A byte of the line is due (R33). -/
def lineDue (s : State) : Bool :=
  match s.env.line with
  | [] => false
  | (t, _) :: _ => decide (t ≤ s.now)

/-- A reset is due (R200). -/
def resetDue (s : State) : Bool :=
  match s.env.resets with
  | [] => false
  | t :: _ => decide (t ≤ s.now)

/-- Whose turn it is. -/
def nextTurn (s : State) : Turn :=
  if resetDue s then .reset
  else
    match firstRequester (runnable s) 0 s.env.hosts with
    | some r => .command r
    | none =>
      match grantTo s with
      | some r => .grant r
      | none => if lineDue s then .line else if sequencerReady s then .sequencer else .tick

/-- The requester whose command runs next. Log 20. -/
def State.select (s : State) (r : Nat) : State := { s with active := r }

/-- The arbiter's choice is used up, and its requester's command runs next. -/
def State.selectGranted (s : State) (r : Nat) : State := { s with active := r, env := s.env.takeGrant }

/-- The decoded command at requester `r`'s port (R74, R75). -/
def portCommand (s : State) (r : Nat) : Except DecodeError Instr :=
  match s.env.hosts.getD r [] with
  | [] => .error .empty
  | c :: _ => decode c.bytes

/-- An illegal command ends with `fatal(ILLEGAL_COMMAND)` and changes nothing else (R75, D28). -/
def illegalCommand (s : State) : Result := withRequester s fun b => endFatal s b .illegalCommand

/-- A byte string the command port does not deliver: an illegal opcode ends as R75 says, a command cut short or too long is given no
meaning (D28, U12). Log 10. -/
def undecoded (e : DecodeError) (s : State) : Result :=
  match e with
  | .illegalOpcode _ => illegalCommand s
  | .empty => .refused .malformedCommand
  | .cutShort => .refused .malformedCommand
  | .leftOver => .refused .malformedCommand

/-- The line delivers its next byte: it is queued with the instant it arrives (R33, R43). -/
def deliverByte (s : State) : State :=
  match s.env.line with
  | [] => s
  | (_, b) :: rest => { s with serq := s.serq ++ [(b, s.now)], env := { s.env with line := rest } }

/-- A millisecond passes (R30). If a grant could have been made, the arbiter has chosen to make none at this instant (R123, R197). -/
def passTime (s : State) : State :=
  { s with now := s.now + 1, env := if grantOpen s then s.env.takeGrant else s.env }

/-- The stream of a requester after a reset: the command in progress or waiting is abandoned (R203). -/
def abandonIssued (now : Nat) (stream : List Issue) : List Issue :=
  match stream with
  | [] => []
  | c :: rest => if issued now c then rest else c :: rest

/-- A reset event: every state element takes its reset value, at the present instant; the commands in progress are abandoned with no
completion (R200, R203). Log 16. -/
def resetEvent (s : State) : State :=
  State.resetAt s.banks.length Config.BAUD_RESET s.now
    { s.env with hosts := s.env.hosts.map (abandonIssued s.now), resets := s.env.resets.tail }

/-- The host's command, placed at the front of requester 0's stream. -/
def Env.offer (e : Env) (c : Issue) : Env :=
  match e.hosts with
  | [] => { e with hosts := [[c]] }
  | q :: qs => { e with hosts := (c :: q) :: qs }

end Sys2Proof.Machine
end

