-- ==== Sys2Proof/Machine/Step.lean ====
section
/-!
DEFINITION. One step: the turn of the agent whose turn it is. There is no program counter and no fetch (R20, R57): a command comes to run by
standing at its requester's command port. Log 9.
-/

namespace Sys2Proof.Machine

/-- The command at requester `r`'s port runs; `s` has it selected. -/
def runCommand (r : Nat) (s : State) : Result :=
  match portCommand s r with
  | .ok i => exec i s
  | .error e => undecoded e s

/-- One step under the parameters `p`. -/
def stepWith (p : Params) (s : State) : Result :=
  match nextTurn s with
  | .reset => .next (resetEvent s)
  | .command r => runCommand r (s.select r)
  | .grant r => runCommand r (s.selectGranted r)
  | .line => .next (deliverByte s)
  | .sequencer => sequencerTurn p s
  | .tick => .next (passTime s)

/-- One step of the block. -/
def step (s : State) : Host.Outcome State Fault Refusal := stepWith Config.params s

/-- `s` with the command of a table word standing at requester 0's port, issued at once, and the arbiter's next choice being requester 0, so
that the next step runs it. It stands for the host handing the command over. Logs 9, 25. -/
def State.withFetchWord (s : State) (nbits w : Nat) : State :=
  { s with env := { s.env.offer ⟨none, tableWordBytes nbits w⟩ with grants := some 0 :: s.env.grants } }

end Sys2Proof.Machine
end

