-- ==== Sys2Proof/Machine/HostPort.lean ====
section
/-!
DEFINITION. What a host sees of its bank and of the shared registers (R27, R42), and the pseudo-commands of R82 as lists of commands.
No step reads anything of this file.
-/

namespace Sys2Proof.Machine

/-- Requester `r` has a command in progress: it holds the lock, or a command of it has been issued and has not run (R53, R196). The spec does
not say whether a command that takes no lock is in progress between its issue and its one step; DESIGN CHOICE: it is, as one that waits for
the lock is. Log 26. -/
def commandInProgress (s : State) (r : Nat) : Bool :=
  s.lock == .held r || (pendingCommand s r (s.env.hosts.getD r [])).isSome

/-- What requester `r` may read of its own bank: all of it when it has no command in progress, else nothing (R42, U13). Log 26. All seven bytes of
`CTX` are in it whatever `CTXLEN` is: the spec does not say whether R37 covers a `CTX` byte at or past `CTXLEN`; DESIGN CHOICE: it does not.
Log 28. -/
def hostReadsBank (s : State) (r : Nat) : Option Bank :=
  if commandInProgress s r then none else s.banks[r]?

/-- A byte of `PBUF` as its host reads it; no value at or past `PLEN` (R37, U6). -/
def hostReadsPbuf (s : State) (r i : Nat) : Option Byte := (hostReadsBank s r).bind fun b => bufferRead b.pbuf i

/-- A byte of `TXBUF` as its host reads it; no value at or past `TXLEN` (R37, U6). -/
def hostReadsTxbuf (s : State) (r i : Nat) : Option Byte := (hostReadsBank s r).bind fun b => bufferRead b.txbuf i

/-- A byte of `RXBUF` as its host reads it; no value at or past `RXCNT` (R37, U6). -/
def hostReadsRxbuf (s : State) (r i : Nat) : Option Byte := (hostReadsBank s r).bind fun b => bufferRead b.rxbuf i

/-- A byte of `CTX` as its host reads it: a value at every index below 7, whatever `CTXLEN` is (R13, R38). DESIGN CHOICE, log 28. -/
def hostReadsCtx (s : State) (r i : Nat) : Option Byte := (hostReadsBank s r).bind fun b => bufferRead b.ctx.bytes i

/-- What any host reads of the shared registers, at any time: `DELAY_POLL`, `DELAY_ERR`, `BAUD`, `FSM`, `LAST_POLL` (R27). -/
def hostReadsShared (s : State) : Word × Word × Word × Fsm × Nat := (s.delayPoll, s.delayErr, s.baud, s.fsm, s.lastPoll)

/-- `REQUEST.RTU u, [pdu], t, e` (R82). -/
def requestRtu (u : Byte) (pdu : List Byte) (timeout : Word) (expectedLength : Half) : List Instr :=
  [.loadP pdu, .mkctxRtu u 0#16, .encapRtu, .xchg timeout expectedLength, .decapRtu]

/-- `BYPASS u, [pdu]`: `REQUEST.RTU` with the PDU taken verbatim, in unknown-length mode; the timeout is the host's (R82, R169, D29). -/
def bypass (u : Byte) (pdu : List Byte) (timeout : Word) : List Instr := requestRtu u pdu timeout 0#16

/-- `READREGS u, [pdu], q, t`: the reply has `5 + 2*q` bytes (R82, R162). The spec does not say what becomes of a quantity above 32765, whose
`5 + 2*q` has more than the 16 bits of `expected_length`; DESIGN CHOICE: its low 16 bits are taken. Log 27. -/
def readRegs (u : Byte) (pdu : List Byte) (quantity : Nat) (timeout : Word) : List Instr :=
  requestRtu u pdu timeout (BitVec.ofNat 16 (5 + 2 * quantity))

/-- `TCPFRAME u, seq, [pdu]` (R82). -/
def tcpFrame (u : Byte) (sequence : Half) (pdu : List Byte) : List Instr :=
  [.loadP pdu, .mkctxTcp u sequence, .encapTcp]

/-- `TCPPARSE [adu]` (R82). -/
def tcpParse (adu : List Byte) : List Instr := [.loadR adu, .xctxTcp, .decapTcp]

end Sys2Proof.Machine
end

