-- ==== Sys2Proof/Machine/Sequential.lean ====
section
/-!
DEFINITION. The sequential restatement of the transport (R146): blocking reads from a list of arrivals, with the instant at which each ends.
No step reads anything of this file; the claims compare the sequencer's runs with it.
-/

namespace Sys2Proof.Machine

/-- Where a blocking read leaves off: the bytes in `RXBUF`, the instant, and the arrivals not taken. -/
structure Reading where
  bytes : List Byte
  now : Nat
  rest : List (Nat × Byte)
deriving DecidableEq, Repr

/-- `ReadUpTo(k, D)`: take bytes until `RXCNT = k`, or until nothing has come at `NOW >= D` (R146). An arrival at or before the present instant
is queued already; a later one is waited for up to the deadline. -/
def readUpTo (k deadline : Nat) : List Byte → Nat → List (Nat × Byte) → Reading
  | bytes, now, [] => if bytes.length = k then ⟨bytes, now, []⟩ else ⟨bytes, max now deadline, []⟩
  | bytes, now, (t, b) :: rest =>
    if bytes.length = k then ⟨bytes, now, (t, b) :: rest⟩
    else if t ≤ max now deadline then readUpTo k deadline (bytes ++ [b]) (max now t) rest
    else ⟨bytes, max now deadline, (t, b) :: rest⟩

/-- How a receive ends, and where it leaves off. -/
structure Received where
  ending : Ending
  reading : Reading
deriving DecidableEq, Repr

/-- The gap loop of unknown-length mode: one byte at a time until a silence of `gap` ms ends the frame or the 257th byte overflows it
(R146, R135, R136). -/
def gapLoop (gap : Nat) : List Byte → Nat → List (Nat × Byte) → Received
  | bytes, now, [] => ⟨.status (validate bytes), ⟨bytes, now + gap, []⟩⟩
  | bytes, now, (t, b) :: rest =>
    if t ≤ now + gap then
      if Config.FRAME_MAX < (bytes ++ [b]).length then ⟨.fatal .rxOverflow, ⟨bytes ++ [b], max now t, rest⟩⟩
      else gapLoop gap (bytes ++ [b]) (max now t) rest
    else ⟨.status (validate bytes), ⟨bytes, now + gap, (t, b) :: rest⟩⟩

/-- `receive()` (R146), begun at the instant `now` with the arrivals `arrivals`. -/
def receive (p : Params) (timeout explen now : Nat) (arrivals : List (Nat × Byte)) : Received :=
  let head := readUpTo Config.HEAD_LEN (now + timeout) [] now arrivals
  if head.bytes.length < Config.HEAD_LEN then ⟨.status TIMEOUT, head⟩
  else if 0 < explen then
    if crcOk head.bytes then ⟨.status (classify head.bytes), head⟩
    else if Config.HEAD_LEN < explen then
      let body := readUpTo (min explen Config.RX_STOP) (head.now + timeout) head.bytes head.now head.rest
      ⟨.status (validate body.bytes), body⟩
    else ⟨.status (validate head.bytes), head⟩
  else if p.gapShortCheck ∧ crcOk head.bytes then ⟨.status (classify head.bytes), head⟩
  else gapLoop p.tIchar head.bytes head.now head.rest

/-- The bytes that a receive beginning now can take: those queued, and those the line will deliver. -/
def arrivals (s : State) : List (Nat × Byte) := s.serq.map (fun x => (0, x.1)) ++ s.env.line

/-- Nothing but requester `r`, the line and the sequencer will act: no reset comes, and no other requester has commands. -/
def quietBut (s : State) (r : Nat) : Prop := s.env.resets = [] ∧ ∀ q, q ≠ r → s.env.hosts.getD q [] = []

/-- A requester's commands, run one after another (R53). -/
def execAll : List Instr → State → Result
  | [], s => .next s
  | i :: is, s =>
    match exec i s with
    | .next t => execAll is t
    | .fault f => .fault f
    | .refused r => .refused r

/-- The active requester has bank `b` and no command in progress that holds the lock: the command port accepts a command (R53, R187). -/
abbrev State.ready (s : State) (b : Bank) : Prop := s.banks[s.active]? = some b ∧ s.lock ≠ .held s.active

end Sys2Proof.Machine
end

