-- ==== Sys2Proof/Safety.lean ====
section
/-!
DEFINITION. What holds in every state a run reaches: the invariants of R10, R13, R18, R26, R32, R66, R78 and R124, as one predicate.
-/

namespace Sys2Proof.Machine

/-- The values `STATUS` takes: -3, -2, -1, 0, 1 to 255, `STATUS_NONE` (R66). -/
def statusLegal (v : Half) : Bool :=
  v == TIMEOUT || v == CRC_ERROR || v == LENGTH_MISMATCH || v == STATUS_NONE || decide (v.toNat ≤ 255)

/-- `CTX[1..6]` are zero when `CTXLEN = 1` (R13). -/
def ctxLegal (b : Bank) : Bool :=
  match b.ctxLen with
  | .rtu => b.ctx == Ctx.ofUnit b.ctx.b0
  | .none => true
  | .tcp => true

/-- Bits 0, 6 and 7 of `FLOG` are always 0 (R27). -/
def flogLegal (v : BitVec 8) : Bool := (v &&& 0xC1#8) == 0#8

/-- A fault register that holds a cause has its bit set in `FLOG`, and goes with `STATUS_NONE` (R16, R18). -/
def faultLegal (b : Bank) : Bool :=
  match b.fault with
  | .none => true
  | .raised c => b.status == STATUS_NONE && b.flog.getLsbD c.code

/-- The invariant of one bank. -/
def Bank.wf (b : Bank) : Bool := b.fits && ctxLegal b && statusLegal b.status && flogLegal b.flog && faultLegal b

/-- The invariant of the sequencer over the bank of the lock's owner, by state (R124). -/
def sequencerLegal (s : State) (b : Bank) : Bool :=
  match s.fsm with
  | .idle => false
  | .pace => s.cur == .tx || (s.cur == .xchg && !b.txbuf.isEmpty)
  | .send => s.cur == .tx || (s.cur == .xchg && !b.txbuf.isEmpty)
  | .head => (s.cur == .rx || s.cur == .xchg) && decide (b.rxbuf.length ≤ 4)
  | .bodyLen =>
    (s.cur == .rx || s.cur == .xchg) && decide (5 < s.explen.toNat) && decide (5 ≤ b.rxbuf.length)
      && decide (b.rxbuf.length < min s.explen.toNat 257)
  | .bodyGap =>
    (s.cur == .rx || s.cur == .xchg) && s.explen == 0#16 && decide (5 ≤ b.rxbuf.length) && decide (b.rxbuf.length ≤ 256)

/-- The invariant of the lock: between steps it is free exactly when the sequencer is idle, and its owner is a requester (R32, R124). -/
def lockLegal (s : State) : Bool :=
  match s.lock with
  | .free => s.fsm == .idle && s.cur == .none
  | .held r =>
    match s.banks[r]? with
    | none => false
    | some b => sequencerLegal s b

/-- What holds in every state of a run. -/
def State.inv (s : State) : Bool := s.banks.all Bank.wf && baudLegal s.baud && lockLegal s

/-- The active requester's command is done and leaves its bank as `b`: nothing else of the block changes, and its host may hand over the
next command (R53, R187). -/
def State.endedWith (s : State) (b : Bank) : State :=
  { s with banks := s.banks.set s.active b, env := { s.env with hosts := s.env.hosts.modify s.active List.tail } }

/-- As `endedWith`, for an ending that is an error: an `ERROR` record of the requester is appended to `TRACE` (R35, R198). -/
def State.endedInError (s : State) (b : Bank) (how : Ending) : State :=
  { s with
    banks := s.banks.set s.active b,
    trace := s.trace ++ [.error s.active how],
    env := { s.env with hosts := s.env.hosts.modify s.active List.tail } }

/-- The active requester's command ends in an error and leaves its bank as `b`. What the `ERROR` record says beyond its kind and its requester
is left open (U14). -/
def EndsInError (s : State) (b : Bank) (o : Result) : Prop := ∃ how, o = .next (s.endedInError b how)

/-- What `refuse()` leaves in a bank (R185). -/
def Bank.refused (b : Bank) : Bank :=
  { b with status := 0x8000#16, fault := .raised .refused, flog := b.flog ||| 0x10#8 }

/-- What an ending with `PROTOCOL_VIOLATION` leaves in a bank (R186). -/
def Bank.violated (b : Bank) : Bank :=
  { b with status := 0x8000#16, fault := .raised .protocolViolation, flog := b.flog ||| 0x02#8 }

/-- The precondition a command breaks when it is refused (R185). -/
def refusedBy (i : Instr) (b : Bank) : Bool :=
  match i with
  | .encapRtu => b.ctxLen != .rtu
  | .encapTcp => b.ctxLen != .tcp
  | .xchg _ _ => b.txbuf == []
  | .loadP data => decide (253 < data.length)
  | .loadR data => decide (260 < data.length)
  | .loadT data => decide (260 < data.length)
  | .loadC data => data.length != 1 && data.length != 7
  | .crcInit => false
  | .crcUpd _ => false
  | .mkctxRtu _ _ => false
  | .decapRtu => false
  | .xctxRtu => false
  | .mkctxTcp _ _ => false
  | .decapTcp => false
  | .xctxTcp => false
  | .tx => false
  | .rx _ _ => false
  | .setbaud _ => false
  | .setpoll _ => false
  | .seterr _ => false

/-- The six commands that take the lock (R196). -/
def takesLock (i : Instr) : Bool :=
  match i.opcode with
  | .tx => true
  | .rx => true
  | .xchg => true
  | .setbaud => true
  | .setpoll => true
  | .seterr => true
  | _ => false

/-- A state and one it steps to agree on everything that is shared but not an input: the sequencer, the lock, the latched operands, the
configuration, `LAST_POLL` and `SEROUT` (R52). -/
def sameShared (s t : State) : Prop :=
  t.fsm = s.fsm ∧ t.cur = s.cur ∧ t.lock = s.lock ∧ t.tmo = s.tmo ∧ t.explen = s.explen ∧ t.deadline = s.deadline ∧
  t.delayPoll = s.delayPoll ∧ t.delayErr = s.delayErr ∧ t.baud = s.baud ∧ t.lastPoll = s.lastPoll ∧ t.serout = s.serout ∧
  t.sendEnd = s.sendEnd

end Sys2Proof.Machine
end

