-- ==== Sys2Proof/Certificates/Slice0/Obligations.lean ====
section
/-!
DEFINITION. The statements about this block, one for each rule or family of rules of the spec that says what the block does. `s.ready b`
says that the active requester has bank `b` and no command in progress that holds the lock; `endedWith` and `EndsInError` are the two
shapes of an ending, each of which names all that changes. The content of a `TRACE` record beyond its kind and requester is left open in
every statement (U14; log 18). A statement about a step speaks of the model's order of turns (`nextTurn`; log 12).
-/

open Sys2Proof Sys2Proof.Machine

/-! ### The CRC unit -/

/-- R91, R92: eight shift steps a byte, started from 0xFFFF, each byte continuing from the one before. The loop's direction and the place
the byte enters are marked "from general knowledge, not in source" by R91 (G1; log 24). -/
def Obligations.CrcFollowsTheBitLoop : Prop :=
  (∀ (c : Half) (b : Byte), crcByte c b =
    (fun d : Half => if d.getLsbD 0 then (d >>> 1) ^^^ 0xA001#16 else d >>> 1)^[8] (c ^^^ b.zeroExtend 16)) ∧
  crc16 [] = 0xFFFF#16 ∧
  (∀ (f : List Byte) (b : Byte), crc16 (f ++ [b]) = crcByte (crc16 f) b)

/-- R93: the laws of the CRC unit, which the spec derives from R91 and R92. -/
def Obligations.CrcUnitLaws : Prop :=
  (∀ b : Byte, Function.Bijective fun c : Half => crcByte c b) ∧
  (∀ c : Half, Function.Injective fun b : Byte => crcByte c b) ∧
  (∀ (c : Half) (b : Byte), crcByte c b = crcByte (c ^^^ b.zeroExtend 16) 0x00#8) ∧
  crcByte 0x0000#16 0x00#8 = 0x0000#16 ∧
  (∀ f : List Byte, crc16 f = 0#16 → crc16 (f ++ [0x00#8]) = 0#16) ∧
  (∀ f g h : List Byte, f.length = g.length → g.length = h.length →
    crc16 (List.zipWith (· ^^^ ·) (List.zipWith (· ^^^ ·) f g) h) = crc16 f ^^^ crc16 g ^^^ crc16 h)

/-- R96: appending the CRC, low byte first, leaves residue zero; the short sequences with residue zero, which the spec derives by enumeration. -/
def Obligations.CrcResidueIsZero : Prop :=
  (∀ f : List Byte, crc16 (f ++ [lo8 (crc16 f), hi8 (crc16 f)]) = 0#16) ∧
  (∀ a b : Byte, crc16 [a, b] = 0#16 ↔ a = 0xFF#8 ∧ b = 0xFF#8) ∧
  (∀ a : Byte, crc16 [a] ≠ 0#16) ∧
  crc16 [] = 0xFFFF#16

/-- R97: one flipped bit of a frame with residue zero is always seen. -/
def Obligations.CrcDetectsSingleBitError : Prop :=
  ∀ (f g : List Byte) (x : Byte) (k : Nat), k < 8 → crc16 (f ++ x :: g) = 0#16 →
    crc16 (f ++ (x ^^^ (1#8 <<< k)) :: g) ≠ 0#16

/-- R94. -/
def Obligations.CrcInitSetsTheRegister : Prop :=
  encode .crcInit = [0x01#8] ∧
  ∀ (s : State) (b : Bank), s.ready b →
    exec .crcInit s = .next (s.endedWith { b with crc := 0xFFFF#16, status := 0#16, fault := .none })

/-- R95, with the run over a byte sequence and the example. -/
def Obligations.CrcUpdContinuesTheRegister : Prop :=
  (∀ x : Byte, encode (.crcUpd x) = [0x02#8, x]) ∧
  (∀ (s : State) (b : Bank) (x : Byte), s.ready b →
    exec (.crcUpd x) s = .next (s.endedWith { b with crc := crcByte b.crc x, status := 0#16, fault := .none })) ∧
  (∀ (s : State) (b : Bank) (f : List Byte), s.ready b →
    ∃ t c, execAll (.crcInit :: f.map .crcUpd) s = .next t ∧ t.banks[s.active]? = some c ∧ c.crc = crc16 f) ∧
  Bank.reset.crc = 0xFFFF#16 ∧ crcByte 0xFFFF#16 0x01#8 = 0x807E#16

/-! ### The RTU codec -/

/-- R100: the sequence is ignored. -/
def Obligations.MakeContextRtuKeepsTheUnit : Prop :=
  (∀ (u : Byte) (q : Half), encode (.mkctxRtu u q) = [0x10#8, u, hi8 q, lo8 q]) ∧
  ∀ (s : State) (b : Bank) (u : Byte) (q : Half), s.ready b →
    exec (.mkctxRtu u q) s =
      .next (s.endedWith { b with ctx := ⟨u, 0, 0, 0, 0, 0, 0⟩, ctxLen := .rtu, status := 0#16, fault := .none })

/-- R101. -/
def Obligations.EncapRtuAppendsTheCrc : Prop :=
  encode .encapRtu = [0x11#8] ∧
  ∀ (s : State) (b : Bank), s.ready b →
    (b.ctxLen = .rtu →
      exec .encapRtu s = .next (s.endedWith { b with
        txbuf := b.ctx.b0 :: b.pbuf ++ [lo8 (crc16 (b.ctx.b0 :: b.pbuf)), hi8 (crc16 (b.ctx.b0 :: b.pbuf))],
        status := 0#16, fault := .none })) ∧
    (b.ctxLen ≠ .rtu → EndsInError s b.refused (exec .encapRtu s))

/-- R102: length guard, then CRC, then the PDU. -/
def Obligations.DecapRtuChecksThenUnwraps : Prop :=
  encode .decapRtu = [0x12#8] ∧
  ∀ (s : State) (b : Bank), s.ready b →
    (b.rxbuf.length < 3 ∨ 256 < b.rxbuf.length →
      EndsInError s { b with pbuf := [], status := 0xFFFD#16, fault := .none } (exec .decapRtu s)) ∧
    (3 ≤ b.rxbuf.length → b.rxbuf.length ≤ 256 → crc16 b.rxbuf ≠ 0#16 →
      EndsInError s { b with pbuf := [], status := 0xFFFE#16, fault := .none } (exec .decapRtu s)) ∧
    (3 ≤ b.rxbuf.length → b.rxbuf.length ≤ 256 → crc16 b.rxbuf = 0#16 →
      exec .decapRtu s = .next (s.endedWith { b with
        pbuf := (b.rxbuf.drop 1).take (b.rxbuf.length - 3), status := 0#16, fault := .none }))

/-- R103: the same guards, and the unit id. That a failure leaves `CTX[0..6]` as it was is the model's reading of R103, which names no write of
`CTX` there (log 8, DEDUCED). -/
def Obligations.ExtractContextRtuTakesTheUnit : Prop :=
  encode .xctxRtu = [0x13#8] ∧
  ∀ (s : State) (b : Bank), s.ready b →
    (b.rxbuf.length < 3 ∨ 256 < b.rxbuf.length →
      EndsInError s { b with ctxLen := .none, status := 0xFFFD#16, fault := .none } (exec .xctxRtu s)) ∧
    (3 ≤ b.rxbuf.length → b.rxbuf.length ≤ 256 → crc16 b.rxbuf ≠ 0#16 →
      EndsInError s { b with ctxLen := .none, status := 0xFFFE#16, fault := .none } (exec .xctxRtu s)) ∧
    (∀ (u : Byte) (rest : List Byte), b.rxbuf = u :: rest →
      3 ≤ b.rxbuf.length → b.rxbuf.length ≤ 256 → crc16 b.rxbuf = 0#16 →
      exec .xctxRtu s =
        .next (s.endedWith { b with ctx := ⟨u, 0, 0, 0, 0, 0, 0⟩, ctxLen := .rtu, status := 0#16, fault := .none }))

/-- R104: what `ENCAP.RTU` makes, `DECAP.RTU` and `XCTX.RTU` take apart again. The spec derives this command form from R100 to R103. -/
def Obligations.RtuRoundTrip : Prop :=
  ∀ (s : State) (b : Bank) (u : Byte) (q : Half) (pdu : List Byte), s.ready b → pdu.length ≤ 253 →
    ∃ t1 b1, execAll [.loadP pdu, .mkctxRtu u q, .encapRtu] s = .next t1 ∧ t1.banks[s.active]? = some b1 ∧
      (∃ t2 b2, execAll [.loadR b1.txbuf, .decapRtu] t1 = .next t2 ∧ t2.banks[s.active]? = some b2 ∧
        b2.pbuf = pdu ∧ b2.status = 0#16) ∧
      (∃ t3 b3, execAll [.loadR b1.txbuf, .xctxRtu] t1 = .next t3 ∧ t3.banks[s.active]? = some b3 ∧
        b3.ctx.b0 = u ∧ b3.status = 0#16)

/-! ### The MBAP codec -/

/-- R110. -/
def Obligations.MakeContextTcpBuildsTheHeader : Prop :=
  (∀ (u : Byte) (q : Half), encode (.mkctxTcp u q) = [0x18#8, u, hi8 q, lo8 q]) ∧
  ∀ (s : State) (b : Bank) (u : Byte) (q : Half), s.ready b →
    exec (.mkctxTcp u q) s =
      .next (s.endedWith { b with ctx := ⟨hi8 q, lo8 q, 0, 0, 0, 0, u⟩, ctxLen := .tcp, status := 0#16, fault := .none })

/-- R111. -/
def Obligations.EncapTcpWritesTheLength : Prop :=
  encode .encapTcp = [0x19#8] ∧
  ∀ (s : State) (b : Bank), s.ready b →
    (b.ctxLen = .tcp →
      exec .encapTcp s = .next (s.endedWith { b with
        txbuf := [b.ctx.b0, b.ctx.b1, b.ctx.b2, b.ctx.b3, hi8 (BitVec.ofNat 16 (b.pbuf.length + 1)),
          lo8 (BitVec.ofNat 16 (b.pbuf.length + 1)), b.ctx.b6] ++ b.pbuf,
        status := 0#16, fault := .none })) ∧
    (b.ctxLen ≠ .tcp → EndsInError s b.refused (exec .encapTcp s))

/-- R112: a missing header or a wrong length field is a protocol violation. -/
def Obligations.DecapTcpChecksTheLength : Prop :=
  encode .decapTcp = [0x1A#8] ∧
  ∀ (s : State) (b : Bank), s.ready b →
    (b.rxbuf.length < 7 →
      EndsInError s ({ b with pbuf := [] }.violated) (exec .decapTcp s)) ∧
    (∀ (x0 x1 x2 x3 l1 l0 u : Byte) (pdu : List Byte), b.rxbuf = [x0, x1, x2, x3, l1, l0, u] ++ pdu →
      (256 * l1.toNat + l0.toNat ≠ b.rxbuf.length - 6 →
        EndsInError s ({ b with pbuf := [] }.violated) (exec .decapTcp s)) ∧
      (256 * l1.toNat + l0.toNat = b.rxbuf.length - 6 →
        exec .decapTcp s = .next (s.endedWith { b with pbuf := pdu, status := 0#16, fault := .none })))

/-- R113: a missing header or a protocol id other than zero is a protocol violation. That it leaves `CTX[0..6]` as it was is the model's reading
of R113, which names no write of `CTX` there (log 8, DEDUCED). -/
def Obligations.ExtractContextTcpChecksTheProtocol : Prop :=
  encode .xctxTcp = [0x1B#8] ∧
  ∀ (s : State) (b : Bank), s.ready b →
    (b.rxbuf.length < 7 →
      EndsInError s ({ b with ctxLen := .none }.violated) (exec .xctxTcp s)) ∧
    (∀ (x0 x1 p1 p0 x4 x5 u : Byte) (pdu : List Byte), b.rxbuf = [x0, x1, p1, p0, x4, x5, u] ++ pdu →
      (256 * p1.toNat + p0.toNat ≠ 0 →
        EndsInError s ({ b with ctxLen := .none }.violated) (exec .xctxTcp s)) ∧
      (256 * p1.toNat + p0.toNat = 0 →
        exec .xctxTcp s = .next (s.endedWith { b with
          ctx := ⟨x0, x1, p1, p0, x4, x5, u⟩, ctxLen := .tcp, status := 0#16, fault := .none })))

/-- R115: what `ENCAP.TCP` makes, `DECAP.TCP` and `XCTX.TCP` take apart again. The spec derives this command form from R110 to R113. -/
def Obligations.TcpRoundTrip : Prop :=
  ∀ (s : State) (b : Bank) (u : Byte) (q : Half) (pdu : List Byte), s.ready b → pdu.length ≤ 253 →
    ∃ t1 b1, execAll [.loadP pdu, .mkctxTcp u q, .encapTcp] s = .next t1 ∧ t1.banks[s.active]? = some b1 ∧
      (∃ t2 b2, execAll [.loadR b1.txbuf, .decapTcp] t1 = .next t2 ∧ t2.banks[s.active]? = some b2 ∧
        b2.pbuf = pdu ∧ b2.status = 0#16) ∧
      (∃ t3 b3, execAll [.loadR b1.txbuf, .xctxTcp] t1 = .next t3 ∧ t3.banks[s.active]? = some b3 ∧
        [b3.ctx.b0, b3.ctx.b1] = [hi8 q, lo8 q] ∧ [b3.ctx.b2, b3.ctx.b3] = [0x00#8, 0x00#8] ∧
        [b3.ctx.b4, b3.ctx.b5] = [hi8 (BitVec.ofNat 16 (pdu.length + 1)), lo8 (BitVec.ofNat 16 (pdu.length + 1))] ∧
        b3.ctx.b6 = u)

/-- R50: the eight codec commands, run twice, leave the bank they leave when run once. -/
def Obligations.CodecCommandsAreIdempotent : Prop :=
  ∀ (i : Instr), i.opcode ∈ [Opcode.mkctxRtu, .encapRtu, .decapRtu, .xctxRtu, .mkctxTcp, .encapTcp, .decapTcp, .xctxTcp] →
    ∀ (s : State) (b : Bank), s.ready b →
      ∃ t u, exec i s = .next t ∧ exec i t = .next u ∧ u.banks = t.banks

/-! ### Configuration and loads -/

/-- R153, R154, R156. -/
def Obligations.LoadsFillTheirBuffer : Prop :=
  (∀ d : List Byte, encode (.loadP d) = 0x40#8 :: bytesBE16 (BitVec.ofNat 16 d.length) ++ d ∧
    encode (.loadR d) = 0x41#8 :: bytesBE16 (BitVec.ofNat 16 d.length) ++ d ∧
    encode (.loadT d) = 0x43#8 :: bytesBE16 (BitVec.ofNat 16 d.length) ++ d) ∧
  ∀ (s : State) (b : Bank) (d : List Byte), s.ready b →
    (d.length ≤ 253 → exec (.loadP d) s = .next (s.endedWith { b with pbuf := d, status := 0#16, fault := .none })) ∧
    (253 < d.length → EndsInError s b.refused (exec (.loadP d) s)) ∧
    (d.length ≤ 260 → exec (.loadR d) s = .next (s.endedWith { b with rxbuf := d, status := 0#16, fault := .none })) ∧
    (260 < d.length → EndsInError s b.refused (exec (.loadR d) s)) ∧
    (d.length ≤ 260 → exec (.loadT d) s = .next (s.endedWith { b with txbuf := d, status := 0#16, fault := .none })) ∧
    (260 < d.length → EndsInError s b.refused (exec (.loadT d) s))

/-- R155. -/
def Obligations.LoadContextTakesOneOrSevenBytes : Prop :=
  (∀ d : List Byte, encode (.loadC d) = 0x42#8 :: bytesBE16 (BitVec.ofNat 16 d.length) ++ d) ∧
  ∀ (s : State) (b : Bank), s.ready b →
    (∀ u : Byte, exec (.loadC [u]) s =
      .next (s.endedWith { b with ctx := ⟨u, 0, 0, 0, 0, 0, 0⟩, ctxLen := .rtu, status := 0#16, fault := .none })) ∧
    (∀ x0 x1 x2 x3 x4 x5 x6 : Byte, exec (.loadC [x0, x1, x2, x3, x4, x5, x6]) s =
      .next (s.endedWith { b with ctx := ⟨x0, x1, x2, x3, x4, x5, x6⟩, ctxLen := .tcp, status := 0#16, fault := .none })) ∧
    (∀ d : List Byte, d.length ≠ 1 → d.length ≠ 7 →
      EndsInError s b.refused (exec (.loadC d) s))

/-- R150: under the lock, and waiting for it. -/
def Obligations.SetBaudAcceptsTheAllowList : Prop :=
  (∀ w : Word, encode (.setbaud w) = 0x30#8 :: bytesBE32 w) ∧
  (∀ (s : State) (b : Bank) (w : Word), s.ready b → (s.lock ≠ .free ∨ s.fsm ≠ .idle) → exec (.setbaud w) s = .next s) ∧
  ∀ (s : State) (b : Bank) (w : Word), s.ready b → s.lock = .free → s.fsm = .idle →
    (w = 9600#32 ∨ w = 19200#32 ∨ w = 38400#32 →
      exec (.setbaud w) s =
        .next { s.endedWith { b with status := 0#16, fault := .none } with baud := w, cur := .none }) ∧
    (w ≠ 9600#32 → w ≠ 19200#32 → w ≠ 38400#32 →
      ∃ how, exec (.setbaud w) s =
        .next { s.endedInError { b with status := 0x8000#16, fault := .raised .configError, flog := b.flog ||| 0x08#8 }
          how with cur := .none })

/-- R151, R152: every delay is legal; under the lock, and waiting for it. -/
def Obligations.SetDelaysWriteTheirRegister : Prop :=
  (∀ w : Word, encode (.setpoll w) = 0x31#8 :: bytesBE32 w ∧ encode (.seterr w) = 0x32#8 :: bytesBE32 w) ∧
  (∀ (s : State) (b : Bank) (w : Word), s.ready b → (s.lock ≠ .free ∨ s.fsm ≠ .idle) →
    exec (.setpoll w) s = .next s ∧ exec (.seterr w) s = .next s) ∧
  ∀ (s : State) (b : Bank) (w : Word), s.ready b → s.lock = .free → s.fsm = .idle →
    exec (.setpoll w) s = .next { s.endedWith { b with status := 0#16, fault := .none } with delayPoll := w, cur := .none } ∧
    exec (.seterr w) s = .next { s.endedWith { b with status := 0#16, fault := .none } with delayErr := w, cur := .none }

/-- R157: a `SET` command waits for the lock, runs in one step with `FSM` staying `IDLE`, frees the lock, and touches neither `SERQ` nor
`LAST_POLL`; while the lock is held no step but a reset changes a configuration register. -/
def Obligations.SetCommandsRunUnderTheLock : Prop :=
  (∀ (i : Instr), i.opcode ∈ [Opcode.setbaud, .setpoll, .seterr] → ∀ (s : State) (b : Bank), s.ready b →
    ((s.lock ≠ .free ∨ s.fsm ≠ .idle) → exec i s = .next s) ∧
    (s.lock = .free → s.fsm = .idle →
      ∃ t, exec i s = .next t ∧ t.fsm = .idle ∧ t.lock = .free ∧ t.serq = s.serq ∧ t.lastPoll = s.lastPoll)) ∧
  (∀ (s t : State) (r : Nat), s.lock = .held r → nextTurn s ≠ .reset → step s = .next t →
    t.baud = s.baud ∧ t.delayPoll = s.delayPoll ∧ t.delayErr = s.delayErr)

/-- R185: a refused command changes nothing but `STATUS`, `FAULT` and `FLOG`, and takes no lock. -/
def Obligations.RefusalChangesOnlyTheVerdict : Prop :=
  ∀ (s : State) (b : Bank) (i : Instr), s.ready b → refusedBy i b = true →
    EndsInError s b.refused (exec i s)

/-- R196: the lock-taking commands wait, nothing changing, until the lock is free; a refused `XCHG` takes no lock. -/
def Obligations.LockTakingCommandsWait : Prop :=
  ∀ (s : State) (b : Bank) (i : Instr), s.ready b → takesLock i = true → refusedBy i b = false →
    (s.lock ≠ .free ∨ s.fsm ≠ .idle) → exec i s = .next s

/-! ### The transport, from the grant to the end -/

/-- R120, from the grant: a `TX` waits out the pacing delay, flushes, writes its frame and ends with status 0. The instants are those of R126
and R128; the duration of the write is the environment's (a free value where it lists none; log 14). -/
def Obligations.TxRunsToItsEnd : Prop :=
  encode .tx = [0x20#8] ∧
  ∀ (s : State) (b : Bank), s.ready b → s.lock = .free → s.fsm = .idle → quietBut s s.active →
    ∃ t0, exec .tx s = .next t0 ∧ t0 = { s with lock := .held s.active, cur := .tx, fsm := .pace } ∧
    ∃ n t, Sys2Proof.core.run n t0 = .next t ∧
      t.now = max s.now (s.lastPoll + s.delayPoll.toNat) + s.env.nextSend ∧
      t.lastPoll = t.now ∧
      t.serout = s.serout ++ b.txbuf ∧
      t.serq.map Prod.fst ++ t.env.line.map Prod.snd =
        (s.env.line.dropWhile fun x => decide (x.1 ≤ max s.now (s.lastPoll + s.delayPoll.toNat))).map Prod.snd ∧
      t.banks = s.banks.set s.active { b with status := 0#16, fault := .none } ∧
      (∃ x, t.trace = s.trace ++ [TraceRecord.txFrame s.active x]) ∧
      t.env.hosts = s.env.hosts.modify s.active List.tail ∧
      t.lock = .free ∧ t.fsm = .idle ∧ t.cur = .none ∧
      t.delayPoll = s.delayPoll ∧ t.delayErr = s.delayErr ∧ t.baud = s.baud ∧ t.tmo = s.tmo ∧ t.explen = s.explen ∧
      t.deadline = s.deadline

/-- R121, from the grant: an `RX` receives as R146 says, without flush, pacing or a write of `LAST_POLL`. -/
def Obligations.RxRunsToItsEnd : Prop :=
  (∀ (t : Word) (e : Half), encode (.rx t e) = 0x21#8 :: bytesBE32 t ++ bytesBE16 e) ∧
  ∀ (s : State) (b : Bank) (timeout : Word) (explen : Half), s.ready b → s.lock = .free → s.fsm = .idle →
    quietBut s s.active →
    let got := receive Config.params timeout.toNat explen.toNat s.now (arrivals s)
    ∃ t0, exec (.rx timeout explen) s = .next t0 ∧
    t0 = { s with
      lock := .held s.active, cur := .rx, fsm := .head, tmo := timeout, explen := explen, deadline := s.now + timeout.toNat,
      banks := s.banks.set s.active { b with rxbuf := [] } } ∧
    ∃ n t, Sys2Proof.core.run n t0 = .next t ∧
      t.now = got.reading.now ∧
      t.banks = s.banks.set s.active ({ b with rxbuf := got.reading.bytes }.ending got.ending) ∧
      t.serq.map Prod.fst ++ t.env.line.map Prod.snd = got.reading.rest.map Prod.snd ∧
      t.lastPoll = s.lastPoll ∧ t.serout = s.serout ∧
      t.env.hosts = s.env.hosts.modify s.active List.tail ∧
      t.lock = .free ∧ t.fsm = .idle ∧ t.cur = .none ∧
      t.delayPoll = s.delayPoll ∧ t.delayErr = s.delayErr ∧ t.baud = s.baud ∧ t.tmo = timeout ∧ t.explen = explen

/-- R122: with an empty frame an `XCHG` is refused. From the grant, it waits out the pacing delay, flushes, writes its frame, and then, unless
it is a broadcast, receives as R146 says; `LAST_POLL` ends at now, or at now and the backoff after a failure. -/
def Obligations.XchgRunsToItsEnd : Prop :=
  (∀ (t : Word) (e : Half), encode (.xchg t e) = 0x22#8 :: bytesBE32 t ++ bytesBE16 e) ∧
  (∀ (s : State) (b : Bank) (timeout : Word) (explen : Half), s.ready b → b.txbuf = [] →
    EndsInError s b.refused (exec (.xchg timeout explen) s)) ∧
  ∀ (s : State) (b : Bank) (u : Byte) (frame : List Byte) (timeout : Word) (explen : Half), s.ready b →
    b.txbuf = u :: frame → s.lock = .free → s.fsm = .idle → quietBut s s.active →
    let t2 := max s.now (s.lastPoll + s.delayPoll.toNat)
    let t3 := t2 + s.env.nextSend
    let kept := s.env.line.dropWhile fun x => decide (x.1 ≤ t2)
    let got := receive Config.params timeout.toNat explen.toNat t3 kept
    ∃ t0, exec (.xchg timeout explen) s = .next t0 ∧
    t0 = { s with lock := .held s.active, cur := .xchg, fsm := .pace, tmo := timeout, explen := explen } ∧
    ∃ n t, Sys2Proof.core.run n t0 = .next t ∧
      t.serout = s.serout ++ b.txbuf ∧
      (u = 0x00#8 →
        t.now = t3 ∧ t.lastPoll = t3 ∧
        t.serq.map Prod.fst ++ t.env.line.map Prod.snd = kept.map Prod.snd ∧
        t.banks = s.banks.set s.active { b with rxbuf := [], status := 0#16, fault := .none }) ∧
      (u ≠ 0x00#8 →
        t.now = got.reading.now ∧
        t.lastPoll = got.reading.now + (if got.ending.failed Config.params then s.delayErr.toNat else 0) ∧
        t.serq.map Prod.fst ++ t.env.line.map Prod.snd = got.reading.rest.map Prod.snd ∧
        t.banks = s.banks.set s.active ({ b with rxbuf := got.reading.bytes }.ending got.ending)) ∧
      t.env.hosts = s.env.hosts.modify s.active List.tail ∧
      t.lock = .free ∧ t.fsm = .idle ∧ t.cur = .none ∧
      t.delayPoll = s.delayPoll ∧ t.delayErr = s.delayErr ∧ t.baud = s.baud ∧ t.tmo = timeout ∧ t.explen = explen

/-- R146: from the entry to `HEAD`, the sequencer's run is the blocking receive: same ending, same bytes, same instant, same bytes left. -/
def Obligations.SequencerRefinesBlockingReads : Prop :=
  ∀ (s : State) (r : Nat) (b : Bank), s.lock = .held r → s.banks[r]? = some b → s.cur = .rx ∨ s.cur = .xchg →
    s.fsm = .head → b.rxbuf = [] → s.deadline = s.now + s.tmo.toNat → quietBut s r →
    let got := receive Config.params s.tmo.toNat s.explen.toNat s.now (arrivals s)
    ∃ n t, Sys2Proof.core.run n s = .next t ∧
      t.now = got.reading.now ∧
      t.banks = s.banks.set r ({ b with rxbuf := got.reading.bytes }.ending got.ending) ∧
      t.serq.map Prod.fst ++ t.env.line.map Prod.snd = got.reading.rest.map Prod.snd ∧
      t.lock = .free ∧ t.fsm = .idle ∧ t.cur = .none

/-! ### The sequencer, one transition at a time -/

/-- R123: the sequencer moves exactly when its condition holds and no reset, command, grant or line byte comes first. -/
def Obligations.SequencerMovesWhenItsConditionHolds : Prop :=
  ∀ s : State, nextTurn s = .sequencer ↔
    (resetDue s = false ∧ firstRequester (runnable s) 0 s.env.hosts = none ∧ grantTo s = none ∧ lineDue s = false) ∧
    ((s.fsm = .pace ∧ s.lastPoll + s.delayPoll.toNat ≤ s.now) ∨
     (s.fsm = .send ∧ s.sendEnd ≤ s.now) ∨
     ((s.fsm = .head ∨ s.fsm = .bodyLen ∨ s.fsm = .bodyGap) ∧ (s.serq ≠ [] ∨ s.deadline ≤ s.now)))

/-- R126, R127: the pacing wait is left at the first allowed instant, with a flush. -/
def Obligations.PacingEndsWithAFlush : Prop :=
  ∀ (p : Params) (s : State) (r : Nat) (b : Bank), s.lock = .held r → s.banks[r]? = some b → s.fsm = .pace →
    (s.now < s.lastPoll + s.delayPoll.toNat → nextTurn s ≠ .sequencer) ∧
    (s.lastPoll + s.delayPoll.toNat ≤ s.now → nextTurn s ≠ .tick) ∧
    (nextTurn s = .sequencer →
      stepWith p s = .next { s with serq := [], fsm := .send, sendEnd := s.now + s.env.nextSend, env := s.env.takeSend })

/-- R128, R129: on leaving `PACE` the end of the write is set to now and a duration that is the environment's, a free value where it lists none
(log 14). The write ends at that instant `sendEnd`, with the frame on `SEROUT`, a `TXFRAME` record and `LAST_POLL` at now; a `TX` then
completes, a broadcast `XCHG` completes with no frame, and any other `XCHG` enters `HEAD`. -/
def Obligations.WriteEndsAsItsCommandSays : Prop :=
  (∀ (p : Params) (s : State) (r : Nat) (b : Bank), s.lock = .held r → s.banks[r]? = some b → s.fsm = .pace → nextTurn s = .sequencer →
    ∃ t, stepWith p s = .next t ∧ t.fsm = .send ∧ t.sendEnd = s.now + s.env.nextSend) ∧
  ∀ (p : Params) (s : State) (r : Nat) (b : Bank), s.lock = .held r → s.banks[r]? = some b → s.fsm = .send →
    (s.now < s.sendEnd → nextTurn s ≠ .sequencer) ∧
    (s.sendEnd ≤ s.now → nextTurn s ≠ .tick) ∧
    (nextTurn s = .sequencer → ∃ x,
      let written := { s with
        serout := s.serout ++ b.txbuf, trace := s.trace ++ [TraceRecord.txFrame r x], lastPoll := s.now }
      (s.cur = .tx → stepWith p s = .next (written.complete p r b (.status 0#16))) ∧
      (∀ (u : Byte) (rest : List Byte), s.cur = .xchg → b.txbuf = u :: rest →
        (u = 0x00#8 → stepWith p s = .next (written.complete p r { b with rxbuf := [] } (.status 0#16))) ∧
        (u ≠ 0x00#8 → stepWith p s = .next { written with
          banks := s.banks.set r { b with rxbuf := [] }, deadline := s.now + s.tmo.toNat, fsm := .head })))

/-- R130, R131, R132: the head chunk takes bytes up to five, or times out; what follows the fifth byte. -/
def Obligations.HeadChunkTakesFiveBytes : Prop :=
  ∀ (p : Params) (s : State) (r : Nat) (b : Bank), s.lock = .held r → s.banks[r]? = some b → s.fsm = .head →
    nextTurn s = .sequencer → b.rxbuf.length < 5 →
    (s.serq = [] → s.deadline ≤ s.now ∧ stepWith p s = .next (s.complete p r b (.status 0xFFFF#16))) ∧
    (∀ (x : Byte) (a : Nat) (q : List (Byte × Nat)), s.serq = (x, a) :: q →
      let c := { b with rxbuf := b.rxbuf ++ [x] }
      let taken := { s with serq := q }
      (b.rxbuf.length < 4 → stepWith p s = .next { taken with banks := s.banks.set r c }) ∧
      (b.rxbuf.length = 4 →
        (s.explen ≠ 0#16 → crc16 c.rxbuf = 0#16 →
          stepWith p s = .next (taken.complete p r c (.status (classify c.rxbuf)))) ∧
        (s.explen ≠ 0#16 → crc16 c.rxbuf ≠ 0#16 → s.explen.toNat ≤ 5 →
          stepWith p s = .next (taken.complete p r c (.status (validate c.rxbuf)))) ∧
        (5 < s.explen.toNat → crc16 c.rxbuf ≠ 0#16 →
          stepWith p s = .next { taken with
            banks := s.banks.set r c, deadline := s.now + s.tmo.toNat, fsm := .bodyLen }) ∧
        (s.explen = 0#16 → p.gapShortCheck = false →
          stepWith p s = .next { taken with banks := s.banks.set r c, deadline := s.now + p.tIchar, fsm := .bodyGap })))

/-- R133, R134: the remainder of a frame of known length. -/
def Obligations.RemainderStopsAtTheExpectedCount : Prop :=
  ∀ (p : Params) (s : State) (r : Nat) (b : Bank), s.lock = .held r → s.banks[r]? = some b → s.fsm = .bodyLen →
    nextTurn s = .sequencer →
    (s.serq = [] → s.deadline ≤ s.now ∧ stepWith p s = .next (s.complete p r b (.status (validate b.rxbuf)))) ∧
    (∀ (x : Byte) (a : Nat) (q : List (Byte × Nat)), s.serq = (x, a) :: q →
      let c := { b with rxbuf := b.rxbuf ++ [x] }
      let taken := { s with serq := q }
      (c.rxbuf.length = min s.explen.toNat 257 →
        stepWith p s = .next (taken.complete p r c (.status (validate c.rxbuf)))) ∧
      (c.rxbuf.length ≠ min s.explen.toNat 257 → stepWith p s = .next { taken with banks := s.banks.set r c }))

/-- R135, R136: the gap loop ends with a silence, or overflows at the 257th byte. -/
def Obligations.GapLoopEndsBySilenceOrOverflow : Prop :=
  ∀ (p : Params) (s : State) (r : Nat) (b : Bank), s.lock = .held r → s.banks[r]? = some b → s.fsm = .bodyGap →
    nextTurn s = .sequencer →
    (s.serq = [] → s.deadline ≤ s.now ∧ stepWith p s = .next (s.complete p r b (.status (validate b.rxbuf)))) ∧
    (∀ (x : Byte) (a : Nat) (q : List (Byte × Nat)), s.serq = (x, a) :: q →
      let c := { b with rxbuf := b.rxbuf ++ [x] }
      let taken := { s with serq := q }
      (256 < c.rxbuf.length → stepWith p s = .next (taken.complete p r c (.fatal .rxOverflow))) ∧
      (c.rxbuf.length ≤ 256 →
        stepWith p s = .next { taken with banks := s.banks.set r c, deadline := s.now + p.tIchar }))

/-- R137, R138: length bounds, then CRC, then the exception bit; the code is the third byte, unchanged. -/
def Obligations.ValidateOrdersItsTests : Prop :=
  (∀ f : List Byte, f.length < 5 ∨ 256 < f.length → validate f = 0xFFFD#16) ∧
  (∀ f : List Byte, 5 ≤ f.length → f.length ≤ 256 → crc16 f ≠ 0#16 → validate f = 0xFFFE#16) ∧
  (∀ f : List Byte, 5 ≤ f.length → f.length ≤ 256 → crc16 f = 0#16 → validate f = classify f) ∧
  (∀ (u functionCode code : Byte) (rest : List Byte),
    (functionCode.getLsbD 7 = true → classify (u :: functionCode :: code :: rest) = code.zeroExtend 16) ∧
    (functionCode.getLsbD 7 = false → classify (u :: functionCode :: code :: rest) = 0#16))

/-- R139: what the completion of a lock-taking command writes, and that it writes nothing else. -/
def Obligations.CompletionWritesAndFrees : Prop :=
  ∀ (p : Params) (s : State) (r : Nat) (b : Bank),
    (∀ v : Half, ∃ x how,
      s.complete p r b (.status v) = { s with
        banks := s.banks.set r { b with status := v, fault := .none },
        lastPoll := if s.cur = .xchg then
            (if v.msb = true ∨ (v ≠ 0#16 ∧ p.backoffOnException = true) then s.now + s.delayErr.toNat else s.now)
          else s.lastPoll,
        trace := s.trace ++
          (if (s.cur = .rx ∨ s.cur = .xchg) ∧ v.msb = false ∧ b.rxbuf ≠ [] then [.rxFrame r x] else []) ++
          (if v.msb = true then [.error r how] else []),
        cur := .none, fsm := .idle, lock := .free,
        env := { s.env with hosts := s.env.hosts.modify r List.tail } }) ∧
    (∀ c : Cause, ∃ how,
      s.complete p r b (.fatal c) = { s with
        banks := s.banks.set r { b with status := 0x8000#16, fault := .raised c, flog := b.flog ||| (1#8 <<< c.code) },
        lastPoll := if s.cur = .xchg then s.now + s.delayErr.toNat else s.lastPoll,
        trace := s.trace ++ [.error r how],
        cur := .none, fsm := .idle, lock := .free,
        env := { s.env with hosts := s.env.hosts.modify r List.tail } })

/-! ### Encoding -/

/-- R74: decoding what was encoded gives the command back, every operand included. -/
def Obligations.DecodeEncodeRoundTrip : Prop :=
  ∀ i : Instr, i.wellFormed = true → decode (encode i) = .ok i

/-- R74: a decoded byte string is the encoding of the command it gave, and nothing else decodes to that command. -/
def Obligations.DecodedBytesAreTheEncoding : Prop :=
  ∀ (bs : List Byte) (i : Instr), decode bs = .ok i → i.wellFormed = true ∧ encode i = bs

/-- R74: words written out from the table's encodings. -/
def Obligations.WordsDecodeAsTheTableSays : Prop :=
  decode [0x02#8, 0x80#8] = .ok (.crcUpd 0x80#8) ∧
  decode [0x10#8, 0x11#8, 0xBE#8, 0xEF#8] = .ok (.mkctxRtu 0x11#8 0xBEEF#16) ∧
  decode [0x18#8, 0x11#8, 0x12#8, 0x34#8] = .ok (.mkctxTcp 0x11#8 0x1234#16) ∧
  decode [0x22#8, 0x00#8, 0x00#8, 0x00#8, 0x64#8, 0x01#8, 0x2C#8] = .ok (.xchg 100#32 300#16) ∧
  decode [0x30#8, 0x00#8, 0x00#8, 0x25#8, 0x80#8] = .ok (.setbaud 9600#32) ∧
  decode [0x42#8, 0x00#8, 0x01#8, 0x11#8] = .ok (.loadC [0x11#8]) ∧
  decode [0x03#8] = .error (.illegalOpcode 0x03#8)

/-- R75: a byte string whose first byte is none of the twenty opcodes ends with `ILLEGAL_COMMAND` and changes nothing else. -/
def Obligations.IllegalCommandEndsFatally : Prop :=
  ∀ (s : State) (r : Nat) (b : Bank) (x : Byte) (bs : List Byte) (due : Option Nat) (rest : List Issue),
    x ∉ [0x01#8, 0x02#8, 0x10#8, 0x11#8, 0x12#8, 0x13#8, 0x18#8, 0x19#8, 0x1A#8, 0x1B#8, 0x20#8, 0x21#8, 0x22#8,
      0x30#8, 0x31#8, 0x32#8, 0x40#8, 0x41#8, 0x42#8, 0x43#8] →
    nextTurn s = .command r → s.env.hosts.getD r [] = ⟨due, x :: bs⟩ :: rest → (s.select r).ready b →
    EndsInError (s.select r) { b with status := 0x8000#16, fault := .raised .illegalCommand, flog := b.flog ||| 0x20#8 } (step s)

/-! ### The whole machine -/

/-- A step at which it is a requester's turn runs the decoded command at its port, on that requester's bank. -/
def Obligations.StepRunsTheDecodedCommand : Prop :=
  ∀ (s : State) (r : Nat) (c : Issue) (rest : List Issue) (i : Instr),
    s.env.hosts.getD r [] = c :: rest → decode c.bytes = .ok i →
    (nextTurn s = .command r → step s = exec i { s with active := r }) ∧
    (nextTurn s = .grant r → step s = exec i { s with active := r, env := s.env.takeGrant })

/-- R125: a grant is made only when the lock is free and the sequencer idle, to a requester whose command waits, never to an `XCHG` with an
empty frame; it takes the lock, latches the operands, and starts the command in `PACE` or `HEAD`. -/
def Obligations.GrantStartsTheCommand : Prop :=
  ∀ (s : State) (r : Nat), nextTurn s = .grant r →
    s.lock = .free ∧ s.fsm = .idle ∧
    ∃ b c rest, s.banks[r]? = some b ∧ s.env.hosts.getD r [] = c :: rest ∧ issued s.now c = true ∧
      (decode c.bytes = .ok .tx →
        step s = .next { s with active := r, env := s.env.takeGrant, lock := .held r, cur := .tx, fsm := .pace }) ∧
      (∀ (timeout : Word) (explen : Half), decode c.bytes = .ok (.rx timeout explen) →
        step s = .next { s with
          active := r, env := s.env.takeGrant, lock := .held r, cur := .rx, tmo := timeout, explen := explen,
          banks := s.banks.set r { b with rxbuf := [] }, deadline := s.now + timeout.toNat, fsm := .head }) ∧
      (∀ (timeout : Word) (explen : Half), decode c.bytes = .ok (.xchg timeout explen) →
        b.txbuf ≠ [] ∧
        step s = .next { s with
          active := r, env := s.env.takeGrant, lock := .held r, cur := .xchg, tmo := timeout, explen := explen, fsm := .pace })

/-- R196: a command that runs without a grant takes no lock, or is refused; its requester has no other command in progress. -/
def Obligations.UngrantedCommandsTakeNoLock : Prop :=
  ∀ (s : State) (r : Nat) (i : Instr) (b : Bank), nextTurn s = .command r → portCommand s r = .ok i → s.banks[r]? = some b →
    s.lock ≠ .held r ∧ (takesLock i = true → refusedBy i b = true)

/-- R53, U12: a second command of the requester that holds the lock is not accepted, and there is no command of a requester that does not exist
(R10). That the model stops there by name is its own choice (logs 11, 19). -/
def Obligations.PortAcceptsOneCommandAtATime : Prop :=
  ∀ (i : Instr) (s : State),
    (∀ b : Bank, s.banks[s.active]? = some b → s.lock = .held s.active → exec i s = .refused .commandInProgress) ∧
    (s.banks[s.active]? = none → exec i s = .fault .noSuchRequester)

/-- R10, R13, R16, R18, R26, R32, R66, R78, R124: every step keeps the invariant. -/
def Obligations.StepKeepsTheInvariant : Prop :=
  ∀ s t : State, s.inv = true → step s = .next t → t.inv = true

/-- The invariant holds after reset. -/
def Obligations.ResetMeetsTheInvariant : Prop := State.reset.inv = true

/-- R190 and the last paragraph of `93_implementation_defined.md` part 1: the block is never stuck; only a byte string that the command
port does not deliver stops the model. -/
def Obligations.StepNeverFaults : Prop :=
  ∀ s : State, s.inv = true →
    (∃ t, step s = .next t) ∨
    (step s = .refused .malformedCommand ∧
      ∃ r c rest, s.env.hosts.getD r [] = c :: rest ∧
        (decode c.bytes = .error .empty ∨ decode c.bytes = .error .cutShort ∨ decode c.bytes = .error .leftOver))

/-- R10: a step writes at most the bank of the requester whose command runs; a reset alone writes all. -/
def Obligations.BanksArePrivate : Prop :=
  (∀ (i : Instr) (s t : State), exec i s = .next t → ∀ q, q ≠ s.active → t.banks[q]? = s.banks[q]?) ∧
  (∀ s t : State, step s = .next t → t.banks.length = s.banks.length) ∧
  (∀ s t : State, step s = .next t → nextTurn s ≠ .reset →
    ∀ q, s.lock ≠ .held q → nextTurn s ≠ .command q → nextTurn s ≠ .grant q → t.banks[q]? = s.banks[q]?)

/-- R10: a command reads no bank but its requester's, and the sequencer no bank but the lock's owner's: another bank's contents make no
difference to what they do. -/
def Obligations.BanksAreNotReadByOthers : Prop :=
  (∀ (i : Instr) (s : State) (q : Nat) (c : Bank), q ≠ s.active →
    (∀ t, exec i s = .next t → exec i (s.setBank q c) = .next (t.setBank q c)) ∧
    (∀ f, exec i s = .fault f → exec i (s.setBank q c) = .fault f) ∧
    (∀ f, exec i s = .refused f → exec i (s.setBank q c) = .refused f)) ∧
  (∀ (p : Params) (s : State) (q : Nat) (c : Bank), s.lock ≠ .held q →
    (∀ t, sequencerTurn p s = .next t → sequencerTurn p (s.setBank q c) = .next (t.setBank q c)) ∧
    (∀ f, sequencerTurn p s = .fault f → sequencerTurn p (s.setBank q c) = .fault f))

/-- R52, R124: while a command holds the lock, nothing but the sequencer and a reset changes what it works on, and only a line byte changes
`SERQ`. R33, R43: whoever holds the lock, and in `IDLE` too, a line byte is queued with the instant of its arrival, and nothing else of the
block changes. -/
def Obligations.LockExcludesOtherCommands : Prop :=
  (∀ (s t : State) (r : Nat), s.lock = .held r → step s = .next t → nextTurn s ≠ .reset → nextTurn s ≠ .sequencer →
    sameShared s t ∧ t.banks[r]? = s.banks[r]? ∧ (nextTurn s ≠ .line → t.serq = s.serq)) ∧
  (∀ s : State, nextTurn s = .line →
    ∃ a x rest, s.env.line = (a, x) :: rest ∧ a ≤ s.now ∧
      step s = .next { s with serq := s.serq ++ [(x, s.now)], env := { s.env with line := rest } })

/-- R31, R193: `LAST_POLL` changes only at the end of a write, at the completion of an `XCHG`, or at a reset. -/
def Obligations.LastPollHasTwoWriters : Prop :=
  ∀ s t : State, step s = .next t → t.lastPoll ≠ s.lastPoll →
    nextTurn s = .reset ∨
    (nextTurn s = .sequencer ∧ (s.fsm = .send ∨ (s.cur = .xchg ∧ t.lock = .free)))

/-- R30: `NOW` never decreases, and only the passing of time moves it, a millisecond at a time. -/
def Obligations.TimeOnlyMovesByTicks : Prop :=
  ∀ s t : State, step s = .next t →
    (nextTurn s = .tick → t.now = s.now + 1) ∧ (nextTurn s ≠ .tick → t.now = s.now)

/-- R34, R44, R54: `SEROUT` grows by one whole frame at the end of a write, and otherwise only a reset changes it. -/
def Obligations.OutputGrowsByWholeFrames : Prop :=
  ∀ s t : State, step s = .next t → nextTurn s ≠ .reset →
    t.serout = s.serout ∨
    (nextTurn s = .sequencer ∧ s.fsm = .send ∧ ∃ r b, s.lock = .held r ∧ s.banks[r]? = some b ∧ t.serout = s.serout ++ b.txbuf)

/-- R18: no command and no transition clears a bit of `FLOG`; only a reset does. -/
def Obligations.FaultLogIsSticky : Prop :=
  ∀ s t : State, step s = .next t → nextTurn s ≠ .reset →
    ∀ (q : Nat) (b : Bank), s.banks[q]? = some b →
      ∃ c, t.banks[q]? = some c ∧ ∀ k, b.flog.getLsbD k = true → c.flog.getLsbD k = true

/-- R38: the state after reset, every row of the table. -/
def Obligations.ResetTableHolds : Prop :=
  State.reset.banks.length = Config.NREQ ∧
  (∀ b ∈ State.reset.banks, b.crc = 0xFFFF#16 ∧ b.plen = 0 ∧ b.txlen = 0 ∧ b.rxcnt = 0 ∧ b.ctxLen.toNat = 0 ∧
    b.ctx.bytes = [0, 0, 0, 0, 0, 0, 0] ∧ b.status = 0x8000#16 ∧ b.fault.bits = 0#3 ∧ b.flog = 0#8 ∧
    ∀ k, bufferRead b.pbuf k = none ∧ bufferRead b.txbuf k = none ∧ bufferRead b.rxbuf k = none) ∧
  State.reset.fsm = .idle ∧ State.reset.cur = .none ∧ State.reset.tmo = 0#32 ∧ State.reset.explen = 0#16 ∧
  State.reset.deadline = 0 ∧ State.reset.delayPoll = 20#32 ∧ State.reset.delayErr = 200#32 ∧
  State.reset.baud = Config.BAUD_RESET ∧ baudLegal State.reset.baud = true ∧
  State.reset.now < 2 ^ 63 ∧ State.reset.lastPoll = State.reset.now ∧
  State.reset.lock = .free ∧ State.reset.serq = [] ∧ State.reset.serout = [] ∧ State.reset.trace = []

/-- R200, R203: a reset puts every state element to its reset value at the present instant, whatever was in progress, and the commands in
progress are abandoned. That a reset keeps `NOW`, and abandons every command issued by then and none that is issued later, is the model's
reading (U22; log 16). -/
def Obligations.ResetAbandonsEverything : Prop :=
  ∀ s : State, nextTurn s = .reset →
    ∃ t, step s = .next t ∧ t.banks = List.replicate s.banks.length Bank.reset ∧
      t.fsm = .idle ∧ t.cur = .none ∧ t.lock = .free ∧ t.tmo = 0#32 ∧ t.explen = 0#16 ∧ t.deadline = 0 ∧
      t.delayPoll = 20#32 ∧ t.delayErr = 200#32 ∧ t.baud = Config.BAUD_RESET ∧ t.now = s.now ∧ t.lastPoll = s.now ∧
      t.serq = [] ∧ t.serout = [] ∧ t.trace = [] ∧ t.env.hosts = s.env.hosts.map (abandonIssued s.now)

/-- R21: the derived flags are functions of the registers they are named after; the spec derives them from R15, R16, R17 and R32. -/
def Obligations.DerivedFlagsFollowTheRegisters : Prop :=
  (∀ s : State, busyFlag s = true ↔ s.lock ≠ .free) ∧
  (∀ b : Bank, excFlag b = true ↔ 2 ≤ b.rxbuf.length ∧ ∃ x, b.rxbuf[1]? = some x ∧ x.getLsbD 7 = true) ∧
  (∀ b : Bank, frameValidFlag b = true ↔ b.fault = .none ∧ 0 ≤ b.status.toInt ∧ 1 ≤ b.rxbuf.length)

/-- R37, R42: a host reads its bank only when it has no command in progress, and a byte of `PBUF`, `TXBUF` or `RXBUF` at or past its length has no
value. `CTX` is not among them: a host that reads its bank reads all seven bytes of it whatever `CTXLEN` is, which is the model's choice (log 28,
DESIGN CHOICE, unsafe). A command is in progress when it holds the lock, waits for it, or has been issued and has not run; the last is the
model's choice, and so is that a read then has no value (U13; log 26). -/
def Obligations.HostReadsOnlyBetweenCommands : Prop :=
  (∀ (s : State) (r : Nat), s.lock = .held r → hostReadsBank s r = none) ∧
  (∀ (s : State) (r : Nat), waiting s r (s.env.hosts.getD r []) = true → hostReadsBank s r = none) ∧
  (∀ (s : State) (r : Nat) (c : Issue) (rest : List Issue), s.env.hosts.getD r [] = c :: rest → issued s.now c = true →
    hostReadsBank s r = none) ∧
  (∀ (s : State) (r : Nat) (b : Bank), s.banks[r]? = some b → s.lock ≠ .held r →
    (∀ c ∈ (s.env.hosts.getD r []).head?, issued s.now c = false) →
    hostReadsBank s r = some b ∧
    ∀ k, (hostReadsPbuf s r k = none ↔ b.plen ≤ k) ∧ (hostReadsTxbuf s r k = none ↔ b.txlen ≤ k) ∧
      (hostReadsRxbuf s r k = none ↔ b.rxcnt ≤ k))
end

