-- ==== Sys2Proof/Laws/State.lean ====
section
/-!
SUPPORT. What each named update of the state does to each field, so that no proof unfolds a record update.
-/

namespace Sys2Proof.Machine

@[simp] theorem State.setBank_banks (s : State) (r : Nat) (b : Bank) : (s.setBank r b).banks = s.banks.set r b := rfl
@[simp] theorem State.setBank_fsm (s : State) (r : Nat) (b : Bank) : (s.setBank r b).fsm = s.fsm := rfl
@[simp] theorem State.setBank_cur (s : State) (r : Nat) (b : Bank) : (s.setBank r b).cur = s.cur := rfl
@[simp] theorem State.setBank_lock (s : State) (r : Nat) (b : Bank) : (s.setBank r b).lock = s.lock := rfl
@[simp] theorem State.setBank_tmo (s : State) (r : Nat) (b : Bank) : (s.setBank r b).tmo = s.tmo := rfl
@[simp] theorem State.setBank_explen (s : State) (r : Nat) (b : Bank) : (s.setBank r b).explen = s.explen := rfl
@[simp] theorem State.setBank_deadline (s : State) (r : Nat) (b : Bank) : (s.setBank r b).deadline = s.deadline := rfl
@[simp] theorem State.setBank_delayPoll (s : State) (r : Nat) (b : Bank) : (s.setBank r b).delayPoll = s.delayPoll := rfl
@[simp] theorem State.setBank_delayErr (s : State) (r : Nat) (b : Bank) : (s.setBank r b).delayErr = s.delayErr := rfl
@[simp] theorem State.setBank_baud (s : State) (r : Nat) (b : Bank) : (s.setBank r b).baud = s.baud := rfl
@[simp] theorem State.setBank_lastPoll (s : State) (r : Nat) (b : Bank) : (s.setBank r b).lastPoll = s.lastPoll := rfl
@[simp] theorem State.setBank_now (s : State) (r : Nat) (b : Bank) : (s.setBank r b).now = s.now := rfl
@[simp] theorem State.setBank_serq (s : State) (r : Nat) (b : Bank) : (s.setBank r b).serq = s.serq := rfl
@[simp] theorem State.setBank_serout (s : State) (r : Nat) (b : Bank) : (s.setBank r b).serout = s.serout := rfl
@[simp] theorem State.setBank_trace (s : State) (r : Nat) (b : Bank) : (s.setBank r b).trace = s.trace := rfl
@[simp] theorem State.setBank_sendEnd (s : State) (r : Nat) (b : Bank) : (s.setBank r b).sendEnd = s.sendEnd := rfl
@[simp] theorem State.setBank_active (s : State) (r : Nat) (b : Bank) : (s.setBank r b).active = s.active := rfl
@[simp] theorem State.setBank_env (s : State) (r : Nat) (b : Bank) : (s.setBank r b).env = s.env := rfl

@[simp] theorem State.takeLock_banks (s : State) (r : Nat) (c : Cur) : (s.takeLock r c).banks = s.banks := rfl
@[simp] theorem State.takeLock_fsm (s : State) (r : Nat) (c : Cur) : (s.takeLock r c).fsm = s.fsm := rfl
@[simp] theorem State.takeLock_cur (s : State) (r : Nat) (c : Cur) : (s.takeLock r c).cur = c := rfl
@[simp] theorem State.takeLock_lock (s : State) (r : Nat) (c : Cur) : (s.takeLock r c).lock = .held r := rfl
@[simp] theorem State.takeLock_tmo (s : State) (r : Nat) (c : Cur) : (s.takeLock r c).tmo = s.tmo := rfl
@[simp] theorem State.takeLock_explen (s : State) (r : Nat) (c : Cur) : (s.takeLock r c).explen = s.explen := rfl
@[simp] theorem State.takeLock_deadline (s : State) (r : Nat) (c : Cur) : (s.takeLock r c).deadline = s.deadline := rfl
@[simp] theorem State.takeLock_delayPoll (s : State) (r : Nat) (c : Cur) : (s.takeLock r c).delayPoll = s.delayPoll := rfl
@[simp] theorem State.takeLock_delayErr (s : State) (r : Nat) (c : Cur) : (s.takeLock r c).delayErr = s.delayErr := rfl
@[simp] theorem State.takeLock_baud (s : State) (r : Nat) (c : Cur) : (s.takeLock r c).baud = s.baud := rfl
@[simp] theorem State.takeLock_lastPoll (s : State) (r : Nat) (c : Cur) : (s.takeLock r c).lastPoll = s.lastPoll := rfl
@[simp] theorem State.takeLock_now (s : State) (r : Nat) (c : Cur) : (s.takeLock r c).now = s.now := rfl
@[simp] theorem State.takeLock_serq (s : State) (r : Nat) (c : Cur) : (s.takeLock r c).serq = s.serq := rfl
@[simp] theorem State.takeLock_serout (s : State) (r : Nat) (c : Cur) : (s.takeLock r c).serout = s.serout := rfl
@[simp] theorem State.takeLock_trace (s : State) (r : Nat) (c : Cur) : (s.takeLock r c).trace = s.trace := rfl
@[simp] theorem State.takeLock_sendEnd (s : State) (r : Nat) (c : Cur) : (s.takeLock r c).sendEnd = s.sendEnd := rfl
@[simp] theorem State.takeLock_active (s : State) (r : Nat) (c : Cur) : (s.takeLock r c).active = s.active := rfl
@[simp] theorem State.takeLock_env (s : State) (r : Nat) (c : Cur) : (s.takeLock r c).env = s.env := rfl

@[simp] theorem State.release_banks (s : State) : (s.release).banks = s.banks := rfl
@[simp] theorem State.release_fsm (s : State) : (s.release).fsm = .idle := rfl
@[simp] theorem State.release_cur (s : State) : (s.release).cur = .none := rfl
@[simp] theorem State.release_lock (s : State) : (s.release).lock = .free := rfl
@[simp] theorem State.release_tmo (s : State) : (s.release).tmo = s.tmo := rfl
@[simp] theorem State.release_explen (s : State) : (s.release).explen = s.explen := rfl
@[simp] theorem State.release_deadline (s : State) : (s.release).deadline = s.deadline := rfl
@[simp] theorem State.release_delayPoll (s : State) : (s.release).delayPoll = s.delayPoll := rfl
@[simp] theorem State.release_delayErr (s : State) : (s.release).delayErr = s.delayErr := rfl
@[simp] theorem State.release_baud (s : State) : (s.release).baud = s.baud := rfl
@[simp] theorem State.release_lastPoll (s : State) : (s.release).lastPoll = s.lastPoll := rfl
@[simp] theorem State.release_now (s : State) : (s.release).now = s.now := rfl
@[simp] theorem State.release_serq (s : State) : (s.release).serq = s.serq := rfl
@[simp] theorem State.release_serout (s : State) : (s.release).serout = s.serout := rfl
@[simp] theorem State.release_trace (s : State) : (s.release).trace = s.trace := rfl
@[simp] theorem State.release_sendEnd (s : State) : (s.release).sendEnd = s.sendEnd := rfl
@[simp] theorem State.release_active (s : State) : (s.release).active = s.active := rfl
@[simp] theorem State.release_env (s : State) : (s.release).env = s.env := rfl

@[simp] theorem State.serWrite_banks (s : State) (frame : List Byte) : (s.serWrite frame).banks = s.banks := rfl
@[simp] theorem State.serWrite_fsm (s : State) (frame : List Byte) : (s.serWrite frame).fsm = s.fsm := rfl
@[simp] theorem State.serWrite_cur (s : State) (frame : List Byte) : (s.serWrite frame).cur = s.cur := rfl
@[simp] theorem State.serWrite_lock (s : State) (frame : List Byte) : (s.serWrite frame).lock = s.lock := rfl
@[simp] theorem State.serWrite_tmo (s : State) (frame : List Byte) : (s.serWrite frame).tmo = s.tmo := rfl
@[simp] theorem State.serWrite_explen (s : State) (frame : List Byte) : (s.serWrite frame).explen = s.explen := rfl
@[simp] theorem State.serWrite_deadline (s : State) (frame : List Byte) : (s.serWrite frame).deadline = s.deadline := rfl
@[simp] theorem State.serWrite_delayPoll (s : State) (frame : List Byte) : (s.serWrite frame).delayPoll = s.delayPoll := rfl
@[simp] theorem State.serWrite_delayErr (s : State) (frame : List Byte) : (s.serWrite frame).delayErr = s.delayErr := rfl
@[simp] theorem State.serWrite_baud (s : State) (frame : List Byte) : (s.serWrite frame).baud = s.baud := rfl
@[simp] theorem State.serWrite_lastPoll (s : State) (frame : List Byte) : (s.serWrite frame).lastPoll = s.lastPoll := rfl
@[simp] theorem State.serWrite_now (s : State) (frame : List Byte) : (s.serWrite frame).now = s.now := rfl
@[simp] theorem State.serWrite_serq (s : State) (frame : List Byte) : (s.serWrite frame).serq = s.serq := rfl
@[simp] theorem State.serWrite_serout (s : State) (frame : List Byte) : (s.serWrite frame).serout = s.serout ++ frame := rfl
@[simp] theorem State.serWrite_trace (s : State) (frame : List Byte) : (s.serWrite frame).trace = s.trace := rfl
@[simp] theorem State.serWrite_sendEnd (s : State) (frame : List Byte) : (s.serWrite frame).sendEnd = s.sendEnd := rfl
@[simp] theorem State.serWrite_active (s : State) (frame : List Byte) : (s.serWrite frame).active = s.active := rfl
@[simp] theorem State.serWrite_env (s : State) (frame : List Byte) : (s.serWrite frame).env = s.env := rfl

@[simp] theorem State.serFlush_banks (s : State) : (s.serFlush).banks = s.banks := rfl
@[simp] theorem State.serFlush_fsm (s : State) : (s.serFlush).fsm = s.fsm := rfl
@[simp] theorem State.serFlush_cur (s : State) : (s.serFlush).cur = s.cur := rfl
@[simp] theorem State.serFlush_lock (s : State) : (s.serFlush).lock = s.lock := rfl
@[simp] theorem State.serFlush_tmo (s : State) : (s.serFlush).tmo = s.tmo := rfl
@[simp] theorem State.serFlush_explen (s : State) : (s.serFlush).explen = s.explen := rfl
@[simp] theorem State.serFlush_deadline (s : State) : (s.serFlush).deadline = s.deadline := rfl
@[simp] theorem State.serFlush_delayPoll (s : State) : (s.serFlush).delayPoll = s.delayPoll := rfl
@[simp] theorem State.serFlush_delayErr (s : State) : (s.serFlush).delayErr = s.delayErr := rfl
@[simp] theorem State.serFlush_baud (s : State) : (s.serFlush).baud = s.baud := rfl
@[simp] theorem State.serFlush_lastPoll (s : State) : (s.serFlush).lastPoll = s.lastPoll := rfl
@[simp] theorem State.serFlush_now (s : State) : (s.serFlush).now = s.now := rfl
@[simp] theorem State.serFlush_serq (s : State) : (s.serFlush).serq = [] := rfl
@[simp] theorem State.serFlush_serout (s : State) : (s.serFlush).serout = s.serout := rfl
@[simp] theorem State.serFlush_trace (s : State) : (s.serFlush).trace = s.trace := rfl
@[simp] theorem State.serFlush_sendEnd (s : State) : (s.serFlush).sendEnd = s.sendEnd := rfl
@[simp] theorem State.serFlush_active (s : State) : (s.serFlush).active = s.active := rfl
@[simp] theorem State.serFlush_env (s : State) : (s.serFlush).env = s.env := rfl

@[simp] theorem State.log_banks (s : State) (l : List TraceRecord) : (s.log l).banks = s.banks := rfl
@[simp] theorem State.log_fsm (s : State) (l : List TraceRecord) : (s.log l).fsm = s.fsm := rfl
@[simp] theorem State.log_cur (s : State) (l : List TraceRecord) : (s.log l).cur = s.cur := rfl
@[simp] theorem State.log_lock (s : State) (l : List TraceRecord) : (s.log l).lock = s.lock := rfl
@[simp] theorem State.log_tmo (s : State) (l : List TraceRecord) : (s.log l).tmo = s.tmo := rfl
@[simp] theorem State.log_explen (s : State) (l : List TraceRecord) : (s.log l).explen = s.explen := rfl
@[simp] theorem State.log_deadline (s : State) (l : List TraceRecord) : (s.log l).deadline = s.deadline := rfl
@[simp] theorem State.log_delayPoll (s : State) (l : List TraceRecord) : (s.log l).delayPoll = s.delayPoll := rfl
@[simp] theorem State.log_delayErr (s : State) (l : List TraceRecord) : (s.log l).delayErr = s.delayErr := rfl
@[simp] theorem State.log_baud (s : State) (l : List TraceRecord) : (s.log l).baud = s.baud := rfl
@[simp] theorem State.log_lastPoll (s : State) (l : List TraceRecord) : (s.log l).lastPoll = s.lastPoll := rfl
@[simp] theorem State.log_now (s : State) (l : List TraceRecord) : (s.log l).now = s.now := rfl
@[simp] theorem State.log_serq (s : State) (l : List TraceRecord) : (s.log l).serq = s.serq := rfl
@[simp] theorem State.log_serout (s : State) (l : List TraceRecord) : (s.log l).serout = s.serout := rfl
@[simp] theorem State.log_trace (s : State) (l : List TraceRecord) : (s.log l).trace = s.trace ++ l := rfl
@[simp] theorem State.log_sendEnd (s : State) (l : List TraceRecord) : (s.log l).sendEnd = s.sendEnd := rfl
@[simp] theorem State.log_active (s : State) (l : List TraceRecord) : (s.log l).active = s.active := rfl
@[simp] theorem State.log_env (s : State) (l : List TraceRecord) : (s.log l).env = s.env := rfl

@[simp] theorem State.handshake_banks (s : State) (r : Nat) : (s.handshake r).banks = s.banks := rfl
@[simp] theorem State.handshake_fsm (s : State) (r : Nat) : (s.handshake r).fsm = s.fsm := rfl
@[simp] theorem State.handshake_cur (s : State) (r : Nat) : (s.handshake r).cur = s.cur := rfl
@[simp] theorem State.handshake_lock (s : State) (r : Nat) : (s.handshake r).lock = s.lock := rfl
@[simp] theorem State.handshake_tmo (s : State) (r : Nat) : (s.handshake r).tmo = s.tmo := rfl
@[simp] theorem State.handshake_explen (s : State) (r : Nat) : (s.handshake r).explen = s.explen := rfl
@[simp] theorem State.handshake_deadline (s : State) (r : Nat) : (s.handshake r).deadline = s.deadline := rfl
@[simp] theorem State.handshake_delayPoll (s : State) (r : Nat) : (s.handshake r).delayPoll = s.delayPoll := rfl
@[simp] theorem State.handshake_delayErr (s : State) (r : Nat) : (s.handshake r).delayErr = s.delayErr := rfl
@[simp] theorem State.handshake_baud (s : State) (r : Nat) : (s.handshake r).baud = s.baud := rfl
@[simp] theorem State.handshake_lastPoll (s : State) (r : Nat) : (s.handshake r).lastPoll = s.lastPoll := rfl
@[simp] theorem State.handshake_now (s : State) (r : Nat) : (s.handshake r).now = s.now := rfl
@[simp] theorem State.handshake_serq (s : State) (r : Nat) : (s.handshake r).serq = s.serq := rfl
@[simp] theorem State.handshake_serout (s : State) (r : Nat) : (s.handshake r).serout = s.serout := rfl
@[simp] theorem State.handshake_trace (s : State) (r : Nat) : (s.handshake r).trace = s.trace := rfl
@[simp] theorem State.handshake_sendEnd (s : State) (r : Nat) : (s.handshake r).sendEnd = s.sendEnd := rfl
@[simp] theorem State.handshake_active (s : State) (r : Nat) : (s.handshake r).active = s.active := rfl
@[simp] theorem State.handshake_env (s : State) (r : Nat) : (s.handshake r).env = { s.env with hosts := s.env.hosts.modify r List.tail } := rfl

@[simp] theorem State.conclude_banks (s : State) (r : Nat) (b : Bank) (e : Ending) : (s.conclude r b e).banks = s.banks.set r (b.ending e) := rfl
@[simp] theorem State.conclude_fsm (s : State) (r : Nat) (b : Bank) (e : Ending) : (s.conclude r b e).fsm = s.fsm := rfl
@[simp] theorem State.conclude_cur (s : State) (r : Nat) (b : Bank) (e : Ending) : (s.conclude r b e).cur = s.cur := rfl
@[simp] theorem State.conclude_lock (s : State) (r : Nat) (b : Bank) (e : Ending) : (s.conclude r b e).lock = s.lock := rfl
@[simp] theorem State.conclude_tmo (s : State) (r : Nat) (b : Bank) (e : Ending) : (s.conclude r b e).tmo = s.tmo := rfl
@[simp] theorem State.conclude_explen (s : State) (r : Nat) (b : Bank) (e : Ending) : (s.conclude r b e).explen = s.explen := rfl
@[simp] theorem State.conclude_deadline (s : State) (r : Nat) (b : Bank) (e : Ending) : (s.conclude r b e).deadline = s.deadline := rfl
@[simp] theorem State.conclude_delayPoll (s : State) (r : Nat) (b : Bank) (e : Ending) : (s.conclude r b e).delayPoll = s.delayPoll := rfl
@[simp] theorem State.conclude_delayErr (s : State) (r : Nat) (b : Bank) (e : Ending) : (s.conclude r b e).delayErr = s.delayErr := rfl
@[simp] theorem State.conclude_baud (s : State) (r : Nat) (b : Bank) (e : Ending) : (s.conclude r b e).baud = s.baud := rfl
@[simp] theorem State.conclude_lastPoll (s : State) (r : Nat) (b : Bank) (e : Ending) : (s.conclude r b e).lastPoll = s.lastPoll := rfl
@[simp] theorem State.conclude_now (s : State) (r : Nat) (b : Bank) (e : Ending) : (s.conclude r b e).now = s.now := rfl
@[simp] theorem State.conclude_serq (s : State) (r : Nat) (b : Bank) (e : Ending) : (s.conclude r b e).serq = s.serq := rfl
@[simp] theorem State.conclude_serout (s : State) (r : Nat) (b : Bank) (e : Ending) : (s.conclude r b e).serout = s.serout := rfl
@[simp] theorem State.conclude_trace (s : State) (r : Nat) (b : Bank) (e : Ending) : (s.conclude r b e).trace = s.trace ++ errorRecord r e := rfl
@[simp] theorem State.conclude_sendEnd (s : State) (r : Nat) (b : Bank) (e : Ending) : (s.conclude r b e).sendEnd = s.sendEnd := rfl
@[simp] theorem State.conclude_active (s : State) (r : Nat) (b : Bank) (e : Ending) : (s.conclude r b e).active = s.active := rfl
@[simp] theorem State.conclude_env (s : State) (r : Nat) (b : Bank) (e : Ending) : (s.conclude r b e).env = { s.env with hosts := s.env.hosts.modify r List.tail } := rfl

@[simp] theorem State.complete_banks (s : State) (p : Params) (r : Nat) (b : Bank) (e : Ending) : (s.complete p r b e).banks = s.banks.set r (b.ending e) := rfl
@[simp] theorem State.complete_fsm (s : State) (p : Params) (r : Nat) (b : Bank) (e : Ending) : (s.complete p r b e).fsm = .idle := rfl
@[simp] theorem State.complete_cur (s : State) (p : Params) (r : Nat) (b : Bank) (e : Ending) : (s.complete p r b e).cur = .none := rfl
@[simp] theorem State.complete_lock (s : State) (p : Params) (r : Nat) (b : Bank) (e : Ending) : (s.complete p r b e).lock = .free := rfl
@[simp] theorem State.complete_tmo (s : State) (p : Params) (r : Nat) (b : Bank) (e : Ending) : (s.complete p r b e).tmo = s.tmo := rfl
@[simp] theorem State.complete_explen (s : State) (p : Params) (r : Nat) (b : Bank) (e : Ending) : (s.complete p r b e).explen = s.explen := rfl
@[simp] theorem State.complete_deadline (s : State) (p : Params) (r : Nat) (b : Bank) (e : Ending) : (s.complete p r b e).deadline = s.deadline := rfl
@[simp] theorem State.complete_delayPoll (s : State) (p : Params) (r : Nat) (b : Bank) (e : Ending) : (s.complete p r b e).delayPoll = s.delayPoll := rfl
@[simp] theorem State.complete_delayErr (s : State) (p : Params) (r : Nat) (b : Bank) (e : Ending) : (s.complete p r b e).delayErr = s.delayErr := rfl
@[simp] theorem State.complete_baud (s : State) (p : Params) (r : Nat) (b : Bank) (e : Ending) : (s.complete p r b e).baud = s.baud := rfl
@[simp] theorem State.complete_lastPoll (s : State) (p : Params) (r : Nat) (b : Bank) (e : Ending) : (s.complete p r b e).lastPoll = if s.cur = .xchg then pollAfter p s e else s.lastPoll := rfl
@[simp] theorem State.complete_now (s : State) (p : Params) (r : Nat) (b : Bank) (e : Ending) : (s.complete p r b e).now = s.now := rfl
@[simp] theorem State.complete_serq (s : State) (p : Params) (r : Nat) (b : Bank) (e : Ending) : (s.complete p r b e).serq = s.serq := rfl
@[simp] theorem State.complete_serout (s : State) (p : Params) (r : Nat) (b : Bank) (e : Ending) : (s.complete p r b e).serout = s.serout := rfl
@[simp] theorem State.complete_trace (s : State) (p : Params) (r : Nat) (b : Bank) (e : Ending) : (s.complete p r b e).trace = s.trace ++ frameRecord r b s.cur e ++ errorRecord r e := rfl
@[simp] theorem State.complete_sendEnd (s : State) (p : Params) (r : Nat) (b : Bank) (e : Ending) : (s.complete p r b e).sendEnd = s.sendEnd := rfl
@[simp] theorem State.complete_active (s : State) (p : Params) (r : Nat) (b : Bank) (e : Ending) : (s.complete p r b e).active = s.active := rfl
@[simp] theorem State.complete_env (s : State) (p : Params) (r : Nat) (b : Bank) (e : Ending) : (s.complete p r b e).env = { s.env with hosts := s.env.hosts.modify r List.tail } := rfl

@[simp] theorem State.enterHead_banks (s : State) (r : Nat) (b : Bank) : (s.enterHead r b).banks = s.banks.set r { b with rxbuf := [] } := rfl
@[simp] theorem State.enterHead_fsm (s : State) (r : Nat) (b : Bank) : (s.enterHead r b).fsm = .head := rfl
@[simp] theorem State.enterHead_cur (s : State) (r : Nat) (b : Bank) : (s.enterHead r b).cur = s.cur := rfl
@[simp] theorem State.enterHead_lock (s : State) (r : Nat) (b : Bank) : (s.enterHead r b).lock = s.lock := rfl
@[simp] theorem State.enterHead_tmo (s : State) (r : Nat) (b : Bank) : (s.enterHead r b).tmo = s.tmo := rfl
@[simp] theorem State.enterHead_explen (s : State) (r : Nat) (b : Bank) : (s.enterHead r b).explen = s.explen := rfl
@[simp] theorem State.enterHead_deadline (s : State) (r : Nat) (b : Bank) : (s.enterHead r b).deadline = s.now + s.tmo.toNat := rfl
@[simp] theorem State.enterHead_delayPoll (s : State) (r : Nat) (b : Bank) : (s.enterHead r b).delayPoll = s.delayPoll := rfl
@[simp] theorem State.enterHead_delayErr (s : State) (r : Nat) (b : Bank) : (s.enterHead r b).delayErr = s.delayErr := rfl
@[simp] theorem State.enterHead_baud (s : State) (r : Nat) (b : Bank) : (s.enterHead r b).baud = s.baud := rfl
@[simp] theorem State.enterHead_lastPoll (s : State) (r : Nat) (b : Bank) : (s.enterHead r b).lastPoll = s.lastPoll := rfl
@[simp] theorem State.enterHead_now (s : State) (r : Nat) (b : Bank) : (s.enterHead r b).now = s.now := rfl
@[simp] theorem State.enterHead_serq (s : State) (r : Nat) (b : Bank) : (s.enterHead r b).serq = s.serq := rfl
@[simp] theorem State.enterHead_serout (s : State) (r : Nat) (b : Bank) : (s.enterHead r b).serout = s.serout := rfl
@[simp] theorem State.enterHead_trace (s : State) (r : Nat) (b : Bank) : (s.enterHead r b).trace = s.trace := rfl
@[simp] theorem State.enterHead_sendEnd (s : State) (r : Nat) (b : Bank) : (s.enterHead r b).sendEnd = s.sendEnd := rfl
@[simp] theorem State.enterHead_active (s : State) (r : Nat) (b : Bank) : (s.enterHead r b).active = s.active := rfl
@[simp] theorem State.enterHead_env (s : State) (r : Nat) (b : Bank) : (s.enterHead r b).env = s.env := rfl

@[simp] theorem State.select_banks (s : State) (r : Nat) : (s.select r).banks = s.banks := rfl
@[simp] theorem State.select_fsm (s : State) (r : Nat) : (s.select r).fsm = s.fsm := rfl
@[simp] theorem State.select_cur (s : State) (r : Nat) : (s.select r).cur = s.cur := rfl
@[simp] theorem State.select_lock (s : State) (r : Nat) : (s.select r).lock = s.lock := rfl
@[simp] theorem State.select_tmo (s : State) (r : Nat) : (s.select r).tmo = s.tmo := rfl
@[simp] theorem State.select_explen (s : State) (r : Nat) : (s.select r).explen = s.explen := rfl
@[simp] theorem State.select_deadline (s : State) (r : Nat) : (s.select r).deadline = s.deadline := rfl
@[simp] theorem State.select_delayPoll (s : State) (r : Nat) : (s.select r).delayPoll = s.delayPoll := rfl
@[simp] theorem State.select_delayErr (s : State) (r : Nat) : (s.select r).delayErr = s.delayErr := rfl
@[simp] theorem State.select_baud (s : State) (r : Nat) : (s.select r).baud = s.baud := rfl
@[simp] theorem State.select_lastPoll (s : State) (r : Nat) : (s.select r).lastPoll = s.lastPoll := rfl
@[simp] theorem State.select_now (s : State) (r : Nat) : (s.select r).now = s.now := rfl
@[simp] theorem State.select_serq (s : State) (r : Nat) : (s.select r).serq = s.serq := rfl
@[simp] theorem State.select_serout (s : State) (r : Nat) : (s.select r).serout = s.serout := rfl
@[simp] theorem State.select_trace (s : State) (r : Nat) : (s.select r).trace = s.trace := rfl
@[simp] theorem State.select_sendEnd (s : State) (r : Nat) : (s.select r).sendEnd = s.sendEnd := rfl
@[simp] theorem State.select_active (s : State) (r : Nat) : (s.select r).active = r := rfl
@[simp] theorem State.select_env (s : State) (r : Nat) : (s.select r).env = s.env := rfl

@[simp] theorem State.selectGranted_banks (s : State) (r : Nat) : (s.selectGranted r).banks = s.banks := rfl
@[simp] theorem State.selectGranted_fsm (s : State) (r : Nat) : (s.selectGranted r).fsm = s.fsm := rfl
@[simp] theorem State.selectGranted_cur (s : State) (r : Nat) : (s.selectGranted r).cur = s.cur := rfl
@[simp] theorem State.selectGranted_lock (s : State) (r : Nat) : (s.selectGranted r).lock = s.lock := rfl
@[simp] theorem State.selectGranted_tmo (s : State) (r : Nat) : (s.selectGranted r).tmo = s.tmo := rfl
@[simp] theorem State.selectGranted_explen (s : State) (r : Nat) : (s.selectGranted r).explen = s.explen := rfl
@[simp] theorem State.selectGranted_deadline (s : State) (r : Nat) : (s.selectGranted r).deadline = s.deadline := rfl
@[simp] theorem State.selectGranted_delayPoll (s : State) (r : Nat) : (s.selectGranted r).delayPoll = s.delayPoll := rfl
@[simp] theorem State.selectGranted_delayErr (s : State) (r : Nat) : (s.selectGranted r).delayErr = s.delayErr := rfl
@[simp] theorem State.selectGranted_baud (s : State) (r : Nat) : (s.selectGranted r).baud = s.baud := rfl
@[simp] theorem State.selectGranted_lastPoll (s : State) (r : Nat) : (s.selectGranted r).lastPoll = s.lastPoll := rfl
@[simp] theorem State.selectGranted_now (s : State) (r : Nat) : (s.selectGranted r).now = s.now := rfl
@[simp] theorem State.selectGranted_serq (s : State) (r : Nat) : (s.selectGranted r).serq = s.serq := rfl
@[simp] theorem State.selectGranted_serout (s : State) (r : Nat) : (s.selectGranted r).serout = s.serout := rfl
@[simp] theorem State.selectGranted_trace (s : State) (r : Nat) : (s.selectGranted r).trace = s.trace := rfl
@[simp] theorem State.selectGranted_sendEnd (s : State) (r : Nat) : (s.selectGranted r).sendEnd = s.sendEnd := rfl
@[simp] theorem State.selectGranted_active (s : State) (r : Nat) : (s.selectGranted r).active = r := rfl
@[simp] theorem State.selectGranted_env (s : State) (r : Nat) : (s.selectGranted r).env = s.env.takeGrant := rfl

@[simp] theorem Bank.ending_crc (b : Bank) (e : Ending) : (b.ending e).crc = b.crc := by cases e <;> rfl
@[simp] theorem Bank.ending_pbuf (b : Bank) (e : Ending) : (b.ending e).pbuf = b.pbuf := by cases e <;> rfl
@[simp] theorem Bank.ending_ctx (b : Bank) (e : Ending) : (b.ending e).ctx = b.ctx := by cases e <;> rfl
@[simp] theorem Bank.ending_ctxLen (b : Bank) (e : Ending) : (b.ending e).ctxLen = b.ctxLen := by cases e <;> rfl
@[simp] theorem Bank.ending_txbuf (b : Bank) (e : Ending) : (b.ending e).txbuf = b.txbuf := by cases e <;> rfl
@[simp] theorem Bank.ending_rxbuf (b : Bank) (e : Ending) : (b.ending e).rxbuf = b.rxbuf := by cases e <;> rfl
@[simp] theorem Bank.ending_status_status (b : Bank) (v : Half) : (b.ending (.status v)).status = v := rfl
@[simp] theorem Bank.ending_status_fault (b : Bank) (v : Half) : (b.ending (.status v)).fault = .none := rfl
@[simp] theorem Bank.ending_status_flog (b : Bank) (v : Half) : (b.ending (.status v)).flog = b.flog := rfl
@[simp] theorem Bank.ending_fatal_status (b : Bank) (c : Cause) : (b.ending (.fatal c)).status = STATUS_NONE := rfl
@[simp] theorem Bank.ending_fatal_fault (b : Bank) (c : Cause) : (b.ending (.fatal c)).fault = .raised c := rfl
@[simp] theorem Bank.ending_fatal_flog (b : Bank) (c : Cause) : (b.ending (.fatal c)).flog = flogSet b.flog c := rfl
@[simp] theorem Bank.storeByte_crc (b : Bank) (x : Byte) : (b.storeByte x).crc = b.crc := rfl
@[simp] theorem Bank.storeByte_pbuf (b : Bank) (x : Byte) : (b.storeByte x).pbuf = b.pbuf := rfl
@[simp] theorem Bank.storeByte_ctx (b : Bank) (x : Byte) : (b.storeByte x).ctx = b.ctx := rfl
@[simp] theorem Bank.storeByte_ctxLen (b : Bank) (x : Byte) : (b.storeByte x).ctxLen = b.ctxLen := rfl
@[simp] theorem Bank.storeByte_txbuf (b : Bank) (x : Byte) : (b.storeByte x).txbuf = b.txbuf := rfl
@[simp] theorem Bank.storeByte_status (b : Bank) (x : Byte) : (b.storeByte x).status = b.status := rfl
@[simp] theorem Bank.storeByte_fault (b : Bank) (x : Byte) : (b.storeByte x).fault = b.fault := rfl
@[simp] theorem Bank.storeByte_flog (b : Bank) (x : Byte) : (b.storeByte x).flog = b.flog := rfl
@[simp] theorem Bank.storeByte_rxbuf (b : Bank) (x : Byte) : (b.storeByte x).rxbuf = b.rxbuf ++ [x] := rfl
@[simp] theorem Env.takeSend_hosts (e : Env) : e.takeSend.hosts = e.hosts := by unfold Env.takeSend; split <;> rfl
@[simp] theorem Env.takeSend_line (e : Env) : e.takeSend.line = e.line := by unfold Env.takeSend; split <;> rfl
@[simp] theorem Env.takeSend_resets (e : Env) : e.takeSend.resets = e.resets := by unfold Env.takeSend; split <;> rfl
@[simp] theorem Env.takeGrant_hosts (e : Env) : e.takeGrant.hosts = e.hosts := by unfold Env.takeGrant; split <;> rfl
@[simp] theorem Env.takeGrant_line (e : Env) : e.takeGrant.line = e.line := by unfold Env.takeGrant; split <;> rfl
@[simp] theorem Env.takeGrant_resets (e : Env) : e.takeGrant.resets = e.resets := by unfold Env.takeGrant; split <;> rfl
@[simp] theorem Env.takeSend_grants (e : Env) : e.takeSend.grants = e.grants := by unfold Env.takeSend; split <;> rfl
@[simp] theorem Env.takeGrant_sends (e : Env) : e.takeGrant.sends = e.sends := by unfold Env.takeGrant; split <;> rfl

end Sys2Proof.Machine
end

