-- ==== Sys2Proof/Laws/Ops.lean ====
section
/-!
SUPPORT. One lemma per shared operation: when it answers a next state, and which.
-/

namespace Sys2Proof.Machine

theorem withRequester_ready {s : State} {b : Bank} (h : s.ready b) (k : Bank → Result) : withRequester s k = k b := by
  unfold withRequester
  rw [h.1]
  exact if_neg h.2

theorem withRequester_next {s t : State} {k : Bank → Result} (h : withRequester s k = .next t) :
    ∃ b, s.ready b ∧ k b = .next t := by
  unfold withRequester at h
  split at h
  · cases h
  · rename_i b hb
    split at h
    · cases h
    · exact ⟨b, ⟨hb, ‹_›⟩, h⟩

theorem withRequester_fault {s : State} {k : Bank → Result} {f : Fault} (h : withRequester s k = .fault f) :
    (s.banks[s.active]? = none ∧ f = .noSuchRequester) ∨ ∃ b, s.ready b ∧ k b = .fault f := by
  unfold withRequester at h
  split at h
  · cases h; exact .inl ⟨‹_›, rfl⟩
  · rename_i b hb
    split at h
    · cases h
    · exact .inr ⟨b, ⟨hb, ‹_›⟩, h⟩

theorem lockFree_iff {s : State} : s.lockFree = true ↔ s.lock = .free ∧ s.fsm = .idle := by
  simp [State.lockFree]

theorem whenLockFree_free {s : State} (h : s.lockFree = true) (k : Result) : whenLockFree s k = k := by
  simp [whenLockFree, h]

theorem whenLockFree_waits {s : State} (h : s.lockFree = false) (k : Result) : whenLockFree s k = .next s := by
  simp [whenLockFree, h]

theorem whenLockFree_next {s t : State} {k : Result} (h : whenLockFree s k = .next t) :
    (s.lockFree = true ∧ k = .next t) ∨ (s.lockFree = false ∧ t = s) := by
  cases hl : s.lockFree
  · rw [whenLockFree_waits hl] at h; cases h; exact .inr ⟨rfl, rfl⟩
  · rw [whenLockFree_free hl] at h; exact .inl ⟨rfl, h⟩

theorem withOwner_held {s : State} {r : Nat} {b : Bank} (hl : s.lock = .held r) (hb : s.banks[r]? = some b)
    (k : Nat → Bank → Result) : withOwner s k = k r b := by
  simp [withOwner, hl, hb]

theorem withOwner_next {s t : State} {k : Nat → Bank → Result} (h : withOwner s k = .next t) :
    ∃ r b, s.lock = .held r ∧ s.banks[r]? = some b ∧ k r b = .next t := by
  unfold withOwner at h
  split at h
  · cases h
  · rename_i r hl
    split at h
    · cases h
    · exact ⟨r, _, hl, ‹_›, h⟩

theorem finish_next {s t : State} {b : Bank} {e : Ending} (h : finish s b e = .next t) : t = s.conclude s.active b e := by
  cases h; rfl

/-- `done(0)`: what it leaves, and nothing else (R189). -/
theorem endDone_eq (s : State) (b : Bank) :
    endDone s b = .next (s.endedWith { b with status := 0#16, fault := .none }) := by
  simp [endDone, finish, State.conclude, State.endedWith, errorRecord, Ending.isError, statusNegative, State.setBank,
    State.log, State.handshake, Bank.ending]

/-- `fail(s)` with a negative status (R189). -/
theorem endFail_eq (s : State) (b : Bank) {v : Half} (hv : v.msb = true) :
    endFail s b v = .next (s.endedInError { b with status := v, fault := .none } (.status v)) := by
  simp [endFail, finish, State.conclude, State.endedInError, errorRecord, Ending.isError, statusNegative, State.setBank,
    State.log, State.handshake, Bank.ending, hv]

/-- `fatal(c)` (R189). -/
theorem endFatal_eq (s : State) (b : Bank) (c : Cause) :
    endFatal s b c = .next (s.endedInError
      { b with status := 0x8000#16, fault := .raised c, flog := b.flog ||| (1#8 <<< c.code) } (.fatal c)) := by
  simp [endFatal, finish, State.conclude, State.endedInError, errorRecord, Ending.isError, State.setBank, State.log,
    State.handshake, Bank.ending, flogSet]

/-- `refuse()` (R185). -/
theorem endRefuse_eq (s : State) (b : Bank) : endRefuse s b = .next (s.endedInError b.refused (.fatal .refused)) :=
  endFatal_eq s b .refused

/-- A bank written by `setBank` reads back; every other bank is as before. -/
theorem set_getElem? {banks : List Bank} {r : Nat} {b c : Bank} (h : banks[r]? = some b) :
    (banks.set r c)[r]? = some c := by
  have hr : r < banks.length := (List.getElem?_eq_some_iff.mp h).1
  simp [hr]

theorem set_getElem?_other {banks : List Bank} {r q : Nat} {c : Bank} (h : q ≠ r) :
    (banks.set r c)[q]? = banks[q]? := by
  simp [Ne.symm h]

theorem all_set {banks : List Bank} {r : Nat} {c : Bank} {P : Bank → Bool} (h : banks.all P = true) (hc : P c = true) :
    (banks.set r c).all P = true := by
  simp only [List.all_eq_true] at *
  intro x hx
  rcases List.mem_or_eq_of_mem_set hx with hx | rfl
  · exact h x hx
  · exact hc

theorem all_getElem? {banks : List Bank} {r : Nat} {b : Bank} {P : Bank → Bool} (h : banks.all P = true)
    (hb : banks[r]? = some b) : P b = true :=
  List.all_eq_true.mp h b (List.mem_of_getElem? hb)

/-- The port accepts the next command after one has ended. -/
theorem ready_endedWith {s : State} {b c : Bank} (h : s.ready b) : (s.endedWith c).ready c := ⟨set_getElem? h.1, h.2⟩

theorem ready_endedInError {s : State} {b c : Bank} {e : Ending} (h : s.ready b) : (s.endedInError c e).ready c :=
  ⟨set_getElem? h.1, h.2⟩

/-- A receive state with a byte queued takes it. -/
theorem receiveTurn_byte {s : State} {r : Nat} {b : Bank} {x : Byte × Nat} {q : List (Byte × Nat)}
    (hl : s.lock = .held r) (hb : s.banks[r]? = some b) (hq : s.serq = x :: q)
    (f g : State → Nat → Bank → State) :
    receiveTurn s f g = .next (f { s with serq := q } r (b.storeByte x.1)) := by
  simp [receiveTurn, withOwner_held hl hb, hq]

/-- A receive state with nothing queued times out. -/
theorem receiveTurn_silence {s : State} {r : Nat} {b : Bank} (hl : s.lock = .held r) (hb : s.banks[r]? = some b)
    (hq : s.serq = []) (f g : State → Nat → Bank → State) :
    receiveTurn s f g = .next (g s r b) := by
  simp [receiveTurn, withOwner_held hl hb, hq]

theorem receiveTurn_next {s t : State} {f g : State → Nat → Bank → State} (h : receiveTurn s f g = .next t) :
    ∃ r b, s.lock = .held r ∧ s.banks[r]? = some b ∧
      ((∃ x q, s.serq = x :: q ∧ t = f { s with serq := q } r (b.storeByte x.1)) ∨ (s.serq = [] ∧ t = g s r b)) := by
  obtain ⟨r, b, hl, hb, h⟩ := withOwner_next h
  refine ⟨r, b, hl, hb, ?_⟩
  split at h
  · rename_i x y q hq; cases h; exact .inl ⟨(x, y), q, hq, rfl⟩
  · cases h; exact .inr ⟨‹_›, rfl⟩

end Sys2Proof.Machine
end

