-- ==== Sys2Proof/Laws/Codec.lean ====
section
/-!
SUPPORT. The codec functions: what they answer, and the lengths of what they make.
-/

namespace Sys2Proof.Machine

theorem be16_toNat (a b : Byte) : (be16 a b).toNat = 256 * a.toNat + b.toNat := by
  have ha := a.isLt
  have hb := b.isLt
  have h : (be16 a b).toNat = a.toNat <<< 8 ||| b.toNat := BitVec.toNat_append a b
  rw [h, ← Nat.shiftLeft_add_eq_or_of_lt (by omega), Nat.shiftLeft_eq]
  omega

theorem be16_eq_zero {a b : Byte} : be16 a b = 0#16 ↔ 256 * a.toNat + b.toNat = 0 := by
  rw [← be16_toNat]
  exact ⟨fun h => by simp [h], fun h => BitVec.eq_of_toNat_eq (by simpa using h)⟩

theorem be16_hi_lo (v : Half) : be16 (hi8 v) (lo8 v) = v := by
  refine BitVec.eq_of_toNat_eq ?_
  have := v.isLt
  simp only [be16_toNat, hi8, lo8, BitVec.extractLsb'_toNat, Nat.shiftRight_eq_div_pow]
  omega

/-- A frame shorter than a header has none. -/
theorem tcpHeader_short {f : List Byte} (h : f.length < 7) : tcpHeader f = none := by
  unfold tcpHeader Ctx.ofBytes?
  split
  · simp at h; omega
  · rfl

theorem tcpDecap_short {f : List Byte} (h : f.length < 7) : tcpDecap f = none := by simp [tcpDecap, tcpHeader_short h]

theorem tcpXctx_short {f : List Byte} (h : f.length < 7) : tcpXctx f = none := by simp [tcpXctx, tcpHeader_short h]

theorem tcpDecap_frame (x0 x1 x2 x3 l1 l0 u : Byte) (pdu : List Byte) :
    tcpDecap ([x0, x1, x2, x3, l1, l0, u] ++ pdu) = if 256 * l1.toNat + l0.toNat = pdu.length + 1 then some pdu else none := by
  simp [tcpDecap, tcpHeader, Ctx.ofBytes?, Ctx.lengthField, be16_toNat]

theorem tcpXctx_frame (x0 x1 p1 p0 x4 x5 u : Byte) (pdu : List Byte) :
    tcpXctx ([x0, x1, p1, p0, x4, x5, u] ++ pdu) =
      if 256 * p1.toNat + p0.toNat = 0 then some ⟨x0, x1, p1, p0, x4, x5, u⟩ else none := by
  simp only [tcpXctx, tcpHeader, Ctx.ofBytes?, Ctx.protocolId, List.cons_append, be16_eq_zero]

theorem rtuFailure_length {f : List Byte} (h : f.length < 3 ∨ 256 < f.length) : rtuFailure f = some LENGTH_MISMATCH := by
  have : rtuLengthOk f = false := by simp [rtuLengthOk]; omega
  simp [rtuFailure, this]

theorem rtuFailure_crc {f : List Byte} (h1 : 3 ≤ f.length) (h2 : f.length ≤ 256) (h : crc16 f ≠ 0#16) :
    rtuFailure f = some CRC_ERROR := by
  simp [rtuFailure, rtuLengthOk, crcOk, h1, h2, h]

theorem rtuFailure_valid {f : List Byte} (h1 : 3 ≤ f.length) (h2 : f.length ≤ 256) (h : crc16 f = 0#16) :
    rtuFailure f = none := by
  simp [rtuFailure, rtuLengthOk, crcOk, h1, h2, h]

/-- A frame the RTU decoder accepts has 3 to 256 bytes and residue zero. -/
theorem rtuFailure_none {f : List Byte} (h : rtuFailure f = none) : 3 ≤ f.length ∧ f.length ≤ 256 ∧ crc16 f = 0#16 := by
  by_cases h1 : f.length < 3 ∨ 256 < f.length
  · rw [rtuFailure_length h1] at h; cases h
  · by_cases h2 : crc16 f = 0#16
    · exact ⟨by omega, by omega, h2⟩
    · rw [rtuFailure_crc (by omega) (by omega) h2] at h; cases h

/-- What the RTU decoder fails with is one of the two negative statuses of R102. -/
theorem rtuFailure_some {f : List Byte} {v : Half} (h : rtuFailure f = some v) : v = LENGTH_MISMATCH ∨ v = CRC_ERROR := by
  unfold rtuFailure at h
  split at h
  · split at h <;> cases h; exact .inr rfl
  · cases h; exact .inl rfl

theorem rtuEncap_length (u : Byte) (pdu : List Byte) : (rtuEncap u pdu).length = pdu.length + 3 := by
  simp [rtuEncap]

theorem tcpEncap_length (x : Ctx) (pdu : List Byte) : (tcpEncap x pdu).length = pdu.length + 7 := by
  simp [tcpEncap, bytesBE16]

theorem rtuPdu_length (f : List Byte) : (rtuPdu f).length ≤ f.length - 3 := by simp [rtuPdu]

theorem tcpDecap_length {f pdu : List Byte} (h : tcpDecap f = some pdu) : pdu.length = f.length - 7 := by
  unfold tcpDecap at h
  split at h
  · cases h
  · split at h <;> cases h; simp

end Sys2Proof.Machine
end

