-- ==== Sys2Proof/Laws/Encoding.lean ====
section
/-!
SUPPORT. Byte order and operand fields: what is written is what is read, and what is read is what was written.
-/

namespace Sys2Proof.Machine

theorem hi8_be16 (a b : Byte) : hi8 (be16 a b) = a := by
  refine BitVec.eq_of_toNat_eq ?_
  have := b.isLt
  simp only [hi8, BitVec.extractLsb'_toNat, be16_toNat, Nat.shiftRight_eq_div_pow]
  omega

theorem lo8_be16 (a b : Byte) : lo8 (be16 a b) = b := by
  refine BitVec.eq_of_toNat_eq ?_
  have := b.isLt
  simp only [lo8, BitVec.extractLsb'_toNat, be16_toNat, Nat.shiftRight_eq_div_pow]
  omega

theorem bytesBE16_be16 (a b : Byte) : bytesBE16 (be16 a b) = [a, b] := by simp only [bytesBE16, hi8_be16, lo8_be16]

theorem be32_toNat (a b c d : Byte) :
    (be32 a b c d).toNat = 16777216 * a.toNat + 65536 * b.toNat + 256 * c.toNat + d.toNat := by
  have ha := a.isLt
  have hb := b.isLt
  have hc := c.isLt
  have hd := d.isLt
  have h : (be32 a b c d).toNat = ((a.toNat <<< 8 ||| b.toNat) <<< 8 ||| c.toNat) <<< 8 ||| d.toNat := by
    simp only [be32, BitVec.toNat_append]
  rw [h, ← Nat.shiftLeft_add_eq_or_of_lt (by omega), ← Nat.shiftLeft_add_eq_or_of_lt (by omega),
    ← Nat.shiftLeft_add_eq_or_of_lt (by omega), Nat.shiftLeft_eq, Nat.shiftLeft_eq, Nat.shiftLeft_eq]
  omega

theorem bytesBE32_be32 (a b c d : Byte) : bytesBE32 (be32 a b c d) = [a, b, c, d] := by
  have ha := a.isLt
  have hb := b.isLt
  have hc := c.isLt
  have hd := d.isLt
  simp only [bytesBE32, List.cons.injEq, and_true]
  refine ⟨?_, ?_, ?_, ?_⟩ <;> refine BitVec.eq_of_toNat_eq ?_ <;>
    simp only [BitVec.extractLsb'_toNat, be32_toNat, Nat.shiftRight_eq_div_pow] <;> omega

theorem be32_bytes (w : Word) :
    be32 (w.extractLsb' 24 8) (w.extractLsb' 16 8) (w.extractLsb' 8 8) (w.extractLsb' 0 8) = w := by
  refine BitVec.eq_of_toNat_eq ?_
  have := w.isLt
  simp only [be32_toNat, BitVec.extractLsb'_toNat, Nat.shiftRight_eq_div_pow]
  omega

theorem opcodeOf?_byte (o : Opcode) : opcodeOf? o.byte = some o := by cases o <;> rfl

/-- A first byte that stands for an opcode is that opcode's byte (R74). -/
theorem byte_of_opcodeOf? {b : Byte} {o : Opcode} (h : opcodeOf? b = some o) : o.byte = b := by
  have := List.find?_some h
  simpa using this

/-- The first bytes that stand for no opcode (R75). -/
theorem opcodeOf?_eq_none {b : Byte} : opcodeOf? b = none ↔ ∀ o : Opcode, o.byte ≠ b := by
  simp only [opcodeOf?, List.find?_eq_none, beq_iff_eq, ne_eq]
  refine ⟨fun h o => h o ?_, fun h o _ => h o⟩
  cases o <;> decide

/-- A `LOAD`'s count and data read back (R74). -/
theorem readDataOperand_bytes (mk : List Byte → Instr) {data : List Byte} (h : countFits data = true) (rest : List Byte) :
    readDataOperand mk (bytesBE16 (BitVec.ofNat 16 data.length) ++ data ++ rest) = some (mk data, rest) := by
  have h' : data.length < 65536 := by simpa [countFits] using h
  simp only [bytesBE16, List.cons_append, List.nil_append, readDataOperand, be16_hi_lo, BitVec.toNat_ofNat,
    Nat.mod_eq_of_lt h', List.length_append]
  simp

/-- What a `LOAD`'s operand was read from (R74). -/
theorem readDataOperand_some {mk : List Byte → Instr} {bs rest : List Byte} {i : Instr}
    (h : readDataOperand mk bs = some (i, rest)) :
    ∃ data, i = mk data ∧ countFits data = true ∧ bs = bytesBE16 (BitVec.ofNat 16 data.length) ++ data ++ rest := by
  match bs, h with
  | n1 :: n0 :: tail, h =>
    simp only [readDataOperand] at h
    split at h
    · rename_i hn
      cases h
      have hl : (tail.take (be16 n1 n0).toNat).length = (be16 n1 n0).toNat := by simpa using hn
      refine ⟨_, rfl, ?_, ?_⟩
      · have := (be16 n1 n0).isLt
        simp only [countFits, hl, decide_eq_true_eq]
        omega
      · rw [hl, BitVec.ofNat_toNat, BitVec.setWidth_eq, bytesBE16_be16]
        simp
    · cases h

end Sys2Proof.Machine
end

