-- ==== Sys2Proof/Laws/Commands.lean ====
section
/-!
SUPPORT. All that a command can do, said once (`exec_next`), and that every command and every memory operation keeps `Memory.wf`.
-/

namespace Sys2Proof.Machine

/-- What the ending of a lock-free command may leave in its bank `b`: `c` is the bank before the verdict. -/
structure Bank.EndsAs (b c : Bank) (e : Ending) : Prop where
  flog : c.flog = b.flog
  wf : b.wf = true → (c.ending e).wf = true
  fits : b.fits = true → c.fits = true

/-- A `SET` command's effect on a state that holds its lock (R150 to R152). -/
structure State.Configures (s t : State) (c : Cur) : Prop where
  cur : c = .setbaud ∨ c = .setpoll ∨ c = .seterr
  same : t = { s.takeLock s.active c with baud := t.baud, delayPoll := t.delayPoll, delayErr := t.delayErr }
  baud : baudLegal s.baud = true → baudLegal t.baud = true

theorem Bank.wf_iff {b : Bank} : b.wf = true ↔
    b.fits = true ∧ ctxLegal b = true ∧ statusLegal b.status = true ∧ flogLegal b.flog = true ∧ faultLegal b = true := by
  simp [Bank.wf, and_assoc]

theorem flogLegal_set {v : BitVec 8} (h : flogLegal v = true) (c : Cause) : flogLegal (flogSet v c) = true := by
  simp only [flogLegal, flogSet, beq_iff_eq] at *
  have e : (v ||| 1#8 <<< c.code) &&& 0xC1#8 = (v &&& 0xC1#8) ||| ((1#8 <<< c.code) &&& 0xC1#8) := by
    ext i hi
    simp [Bool.and_or_distrib_right]
  rw [e, h]
  cases c <;> rfl

theorem flogSet_sticky (v : BitVec 8) (c : Cause) (k : Nat) (h : v.getLsbD k = true) : (flogSet v c).getLsbD k = true := by
  simp [flogSet, h]

theorem flogSet_bit (v : BitVec 8) (c : Cause) : (flogSet v c).getLsbD c.code = true := by
  unfold flogSet
  rw [BitVec.getLsbD_or]
  have : (1#8 <<< c.code).getLsbD c.code = true := by cases c <;> rfl
  rw [this, Bool.or_true]

theorem fits_ending (b : Bank) (e : Ending) : (b.ending e).fits = b.fits := by cases e <;> rfl

/-- An ending with a legal status, or a fatal one, leaves a bank well formed that was so but for its verdict. -/
theorem wf_ending {b c : Bank} (hb : b.wf = true) (hfits : c.fits = true) (hctx : ctxLegal c = true) (hflog : c.flog = b.flog)
    (e : Ending) (he : ∀ v, e = .status v → statusLegal v = true) : (c.ending e).wf = true := by
  have h := Bank.wf_iff.mp hb
  rw [Bank.wf_iff]
  cases e with
  | status v => exact ⟨hfits, hctx, he v rfl, by rw [← hflog] at h; exact h.2.2.2.1, rfl⟩
  | fatal x =>
    refine ⟨hfits, hctx, rfl, ?_, ?_⟩
    · rw [← hflog] at h
      exact flogLegal_set h.2.2.2.1 x
    · simp only [faultLegal, Bank.ending, beq_self_eq_true, Bool.true_and]
      exact flogSet_bit _ _

theorem endsAs_of {b c : Bank} (e : Ending) (hflog : c.flog = b.flog) (hfits : b.fits = true → c.fits = true)
    (hctx : ctxLegal b = true → ctxLegal c = true) (he : ∀ v, e = .status v → statusLegal v = true) : b.EndsAs c e where
  flog := hflog
  wf hb := wf_ending hb (hfits (Bank.wf_iff.mp hb).1) (hctx (Bank.wf_iff.mp hb).2.1) hflog e he
  fits := hfits

theorem fits_iff {b : Bank} : b.fits = true ↔ b.pbuf.length ≤ 253 ∧ b.txbuf.length ≤ 260 ∧ b.rxbuf.length ≤ 260 := by
  simp [Bank.fits, and_assoc]

theorem statusLegal_done : statusLegal SUCCESS = true := by decide

/-- The three endings of a lock-free command, read backwards (R189). -/
theorem ends_done {s t : State} {b c : Bank} (h : endDone s c = .next t) (hflog : c.flog = b.flog)
    (hfits : b.fits = true → c.fits = true) (hctx : ctxLegal b = true → ctxLegal c = true) :
    ∃ c e, b.EndsAs c e ∧ t = s.conclude s.active c e :=
  ⟨c, .status SUCCESS, endsAs_of _ hflog hfits hctx (fun _ h => by cases h; exact statusLegal_done), finish_next h⟩

theorem ends_fail {s t : State} {b c : Bank} {v : Half} (h : endFail s c v = .next t) (hv : statusLegal v = true)
    (hflog : c.flog = b.flog) (hfits : b.fits = true → c.fits = true) (hctx : ctxLegal b = true → ctxLegal c = true) :
    ∃ c e, b.EndsAs c e ∧ t = s.conclude s.active c e :=
  ⟨c, .status v, endsAs_of _ hflog hfits hctx (fun _ h => by cases h; exact hv), finish_next h⟩

theorem ends_fatal {s t : State} {b c : Bank} {x : Cause} (h : endFatal s c x = .next t) (hflog : c.flog = b.flog)
    (hfits : b.fits = true → c.fits = true) (hctx : ctxLegal b = true → ctxLegal c = true) :
    ∃ c e, b.EndsAs c e ∧ t = s.conclude s.active c e :=
  ⟨c, .fatal x, endsAs_of _ hflog hfits hctx (fun _ h => by cases h), finish_next h⟩

theorem ends_refused {s t : State} {b : Bank} (h : endRefuse s b = .next t) :
    ∃ c e, b.EndsAs c e ∧ t = s.conclude s.active c e := ends_fatal h rfl id id

/-- All that a command can do when it answers a next state: wait, end, start on the sequencer, or configure. -/
theorem exec_next {i : Instr} {s t : State} (h : exec i s = .next t) :
    ∃ b, s.ready b ∧
      ((takesLock i = true ∧ s.lockFree = false ∧ t = s) ∨
       (∃ c e, b.EndsAs c e ∧ t = s.conclude s.active c e) ∨
       (s.lockFree = true ∧ takesLock i = true ∧
         (t = { s.takeLock s.active .tx with fsm := .pace } ∨
          (∃ timeout explen, t = { s.takeLock s.active .rx with tmo := timeout, explen := explen }.enterHead s.active b) ∨
          (b.txbuf ≠ [] ∧ ∃ timeout explen,
            t = { s.takeLock s.active .xchg with tmo := timeout, explen := explen, fsm := .pace }) ∨
          (∃ c u e, s.Configures u c ∧ (e = .status SUCCESS ∨ e = .fatal .configError) ∧
            t = u.complete Config.params s.active b e)))) := by
  have set : ∀ (c : Cur) (write : State → State) (e : Ending), underLock s c write e = .next t → takesLock i = true →
      s.Configures (write (s.takeLock s.active c)) c → (e = .status SUCCESS ∨ e = .fatal .configError) →
      ∃ b, s.ready b ∧ ((takesLock i = true ∧ s.lockFree = false ∧ t = s) ∨ (∃ c e, b.EndsAs c e ∧ t = s.conclude s.active c e) ∨
       (s.lockFree = true ∧ takesLock i = true ∧
         (t = { s.takeLock s.active .tx with fsm := .pace } ∨
          (∃ timeout explen, t = { s.takeLock s.active .rx with tmo := timeout, explen := explen }.enterHead s.active b) ∨
          (b.txbuf ≠ [] ∧ ∃ timeout explen,
            t = { s.takeLock s.active .xchg with tmo := timeout, explen := explen, fsm := .pace }) ∨
          (∃ c u e, s.Configures u c ∧ (e = .status SUCCESS ∨ e = .fatal .configError) ∧
            t = u.complete Config.params s.active b e)))) := by
    intro c write e hu hi hw he
    obtain ⟨b, hb, hk⟩ := withRequester_next hu
    refine ⟨b, hb, ?_⟩
    rcases whenLockFree_next hk with ⟨hl, hn⟩ | ⟨hl, ht⟩
    · cases hn
      exact .inr (.inr ⟨hl, hi, .inr (.inr (.inr ⟨c, _, e, hw, he, rfl⟩))⟩)
    · exact .inl ⟨hi, hl, ht⟩
  have len0 : ∀ b : Bank, b.fits = true → { b with pbuf := [] }.fits = true := by
    intro b hb
    simp only [fits_iff, List.length_nil] at *
    omega
  cases i with
  | crcInit =>
    obtain ⟨b, hb, hk⟩ := withRequester_next h
    exact ⟨b, hb, .inr (.inl (ends_done hk rfl id id))⟩
  | crcUpd x =>
    obtain ⟨b, hb, hk⟩ := withRequester_next h
    exact ⟨b, hb, .inr (.inl (ends_done hk rfl id id))⟩
  | mkctxRtu u q =>
    obtain ⟨b, hb, hk⟩ := withRequester_next h
    exact ⟨b, hb, .inr (.inl (ends_done hk rfl id (fun _ => by simp [ctxLegal, Ctx.ofUnit])))⟩
  | mkctxTcp u q =>
    obtain ⟨b, hb, hk⟩ := withRequester_next h
    exact ⟨b, hb, .inr (.inl (ends_done hk rfl id (fun _ => rfl)))⟩
  | encapRtu =>
    obtain ⟨b, hb, hk⟩ := withRequester_next h
    refine ⟨b, hb, .inr (.inl ?_)⟩
    split at hk
    · refine ends_done hk rfl (fun hf => ?_) id
      simp only [fits_iff, rtuEncap_length] at *
      omega
    · exact ends_refused hk
    · exact ends_refused hk
  | encapTcp =>
    obtain ⟨b, hb, hk⟩ := withRequester_next h
    refine ⟨b, hb, .inr (.inl ?_)⟩
    split at hk
    · refine ends_done hk rfl (fun hf => ?_) id
      simp only [fits_iff, tcpEncap_length] at *
      omega
    · exact ends_refused hk
    · exact ends_refused hk
  | decapRtu =>
    obtain ⟨b, hb, hk⟩ := withRequester_next h
    refine ⟨b, hb, .inr (.inl ?_)⟩
    split at hk
    · rename_i v hv
      refine ends_fail hk ?_ rfl (len0 b) id
      rcases rtuFailure_some hv with rfl | rfl <;> decide
    · rename_i hv
      have hn := rtuFailure_none hv
      have hl := rtuPdu_length b.rxbuf
      refine ends_done hk rfl (fun hf => ?_) id
      simp only [fits_iff] at *
      omega
  | xctxRtu =>
    obtain ⟨b, hb, hk⟩ := withRequester_next h
    refine ⟨b, hb, .inr (.inl ?_)⟩
    split at hk
    · rename_i v hv
      refine ends_fail hk ?_ rfl id fun _ => rfl
      rcases rtuFailure_some hv with rfl | rfl <;> decide
    · exact ends_done hk rfl id (fun _ => by simp [ctxLegal, Ctx.ofUnit])
  | decapTcp =>
    obtain ⟨b, hb, hk⟩ := withRequester_next h
    refine ⟨b, hb, .inr (.inl ?_)⟩
    split at hk
    · exact ends_fatal hk rfl (len0 b) id
    · rename_i pdu hv
      have hl := tcpDecap_length hv
      refine ends_done hk rfl (fun hf => ?_) id
      simp only [fits_iff] at *
      omega
  | xctxTcp =>
    obtain ⟨b, hb, hk⟩ := withRequester_next h
    refine ⟨b, hb, .inr (.inl ?_)⟩
    split at hk
    · exact ends_fatal hk rfl id fun _ => rfl
    · exact ends_done hk rfl id (fun _ => rfl)
  | tx =>
    obtain ⟨b, hb, hk⟩ := withRequester_next h
    refine ⟨b, hb, ?_⟩
    rcases whenLockFree_next hk with ⟨hl, hn⟩ | ⟨hl, ht⟩
    · cases hn
      exact .inr (.inr ⟨hl, rfl, .inl rfl⟩)
    · exact .inl ⟨rfl, hl, ht⟩
  | rx timeout explen =>
    obtain ⟨b, hb, hk⟩ := withRequester_next h
    refine ⟨b, hb, ?_⟩
    rcases whenLockFree_next hk with ⟨hl, hn⟩ | ⟨hl, ht⟩
    · cases hn
      exact .inr (.inr ⟨hl, rfl, .inr (.inl ⟨_, _, rfl⟩)⟩)
    · exact .inl ⟨rfl, hl, ht⟩
  | xchg timeout explen =>
    obtain ⟨b, hb, hk⟩ := withRequester_next h
    refine ⟨b, hb, ?_⟩
    split at hk
    · exact .inr (.inl (ends_refused hk))
    · rcases whenLockFree_next hk with ⟨hl, hn⟩ | ⟨hl, ht⟩
      · cases hn
        exact .inr (.inr ⟨hl, rfl, .inr (.inr (.inl ⟨‹_›, _, _, rfl⟩))⟩)
      · exact .inl ⟨rfl, hl, ht⟩
  | setbaud baud =>
    have h' : execSetbaud baud s = .next t := h
    unfold execSetbaud at h'
    split at h'
    · exact set _ _ _ h' rfl ⟨.inl rfl, rfl, fun _ => ‹_›⟩ (.inl rfl)
    · exact set _ _ _ h' rfl ⟨.inl rfl, rfl, id⟩ (.inr rfl)
  | setpoll ms => exact set .setpoll (fun t => { t with delayPoll := ms }) _ h rfl ⟨.inr (.inl rfl), rfl, id⟩ (.inl rfl)
  | seterr ms => exact set .seterr (fun t => { t with delayErr := ms }) _ h rfl ⟨.inr (.inr rfl), rfl, id⟩ (.inl rfl)
  | loadP data =>
    obtain ⟨b, hb, hk⟩ := withRequester_next h
    refine ⟨b, hb, .inr (.inl ?_)⟩
    split at hk
    · rename_i hd
      refine ends_done hk rfl (fun hf => ?_) id
      simp only [fits_iff, Config.PDU_MAX] at *
      omega
    · exact ends_refused hk
  | loadR data =>
    obtain ⟨b, hb, hk⟩ := withRequester_next h
    refine ⟨b, hb, .inr (.inl ?_)⟩
    split at hk
    · rename_i hd
      refine ends_done hk rfl (fun hf => ?_) id
      simp only [fits_iff, Config.BUF_CAP] at *
      omega
    · exact ends_refused hk
  | loadT data =>
    obtain ⟨b, hb, hk⟩ := withRequester_next h
    refine ⟨b, hb, .inr (.inl ?_)⟩
    split at hk
    · rename_i hd
      refine ends_done hk rfl (fun hf => ?_) id
      simp only [fits_iff, Config.BUF_CAP] at *
      omega
    · exact ends_refused hk
  | loadC data =>
    obtain ⟨b, hb, hk⟩ := withRequester_next h
    refine ⟨b, hb, .inr (.inl ?_)⟩
    split at hk
    · exact ends_done hk rfl id (fun _ => by simp [ctxLegal, Ctx.ofUnit])
    · exact ends_done hk rfl id (fun _ => rfl)
    · exact ends_refused hk

end Sys2Proof.Machine
end

