-- ==== Sys2Proof/Laws/Crc.lean ====
section
/-!
SUPPORT. The CRC generator: a shift step and a byte step are linear and injective, and 16 zero bits stay zero.
-/

namespace Sys2Proof.Machine

/-- Two values with the same exclusive-or with a third are equal. -/
theorem half_xor_cancel {a b c : Half} (h : a ^^^ c = b ^^^ c) : a = b := by
  have h2 := congrArg (fun v => v ^^^ c) h
  simpa [BitVec.xor_assoc] using h2

theorem zext16_injective {a b : Byte} (h : zext16 a = zext16 b) : a = b := by
  have h2 := congrArg (fun v => v.setWidth 8) h
  simpa [zext16] using h2

theorem crcShift_zero : crcShift 0#16 = 0#16 := by decide

theorem crcShift_xor (c d : Half) : crcShift (c ^^^ d) = crcShift c ^^^ crcShift d := by
  unfold crcShift
  rw [BitVec.getLsbD_xor, BitVec.ushiftRight_xor_distrib]
  cases c.getLsbD 0 <;> cases d.getLsbD 0 <;>
    simp only [Bool.xor_false, Bool.xor_true, Bool.false_eq_true, if_true, if_false, Bool.not_true, Bool.not_false] <;>
    generalize c >>> 1 = x <;> generalize d >>> 1 = y <;> generalize Config.CRC_POLY = p
  · ac_rfl
  · ac_rfl
  · have h : x ^^^ p ^^^ (y ^^^ p) = x ^^^ y ^^^ (p ^^^ p) := by ac_rfl
    rw [h, BitVec.xor_self, BitVec.xor_zero]

theorem crcShifts_zero (k : Nat) : crcShifts k 0#16 = 0#16 := by
  induction k with
  | zero => rfl
  | succ k ih => simp only [crcShifts, crcShift_zero, ih]

theorem crcShifts_xor (k : Nat) (c d : Half) : crcShifts k (c ^^^ d) = crcShifts k c ^^^ crcShifts k d := by
  induction k generalizing c d with
  | zero => rfl
  | succ k ih => simp only [crcShifts, crcShift_xor, ih]

theorem crcShift_eq_zero {c : Half} (h : crcShift c = 0#16) : c = 0#16 := by
  unfold crcShift at h
  split at h
  · have h15 := congrArg (fun v => v.getLsbD 15) h
    simp at h15
  · rename_i h0
    ext i hi
    rcases i with _ | i
    · simpa using h0
    · have hb := congrArg (fun v => v.getLsbD i) h
      simp only [BitVec.getLsbD_ushiftRight, BitVec.getLsbD_zero, Nat.add_comm 1 i] at hb
      simpa [BitVec.getLsbD_eq_getElem hi] using hb

theorem crcShift_injective : Function.Injective crcShift := by
  intro c d h
  have h2 : crcShift (c ^^^ d) = 0#16 := by rw [crcShift_xor, h, BitVec.xor_self]
  exact BitVec.xor_eq_zero_iff.mp (crcShift_eq_zero h2)

theorem crcShifts_injective (k : Nat) : Function.Injective (crcShifts k) := by
  induction k with
  | zero => exact fun _ _ h => h
  | succ k ih => exact fun _ _ h => crcShift_injective (ih h)

/-- A value whose low `k` bits are zero is only shifted. -/
theorem crcShifts_low_zero (k : Nat) (c : Half) (h : ∀ i, i < k → c.getLsbD i = false) : crcShifts k c = c >>> k := by
  induction k generalizing c with
  | zero => simp [crcShifts]
  | succ k ih =>
    have h0 : crcShift c = c >>> 1 := by simp only [crcShift, h 0 (by omega)]; rfl
    rw [crcShifts, h0, ih]
    · rw [← BitVec.shiftRight_add, Nat.add_comm]
    · intro i hi
      rw [BitVec.getLsbD_ushiftRight, Nat.add_comm]
      exact h _ (by omega)

theorem crcByte_zero : crcByte 0#16 0#8 = 0#16 := crcShifts_zero 8

theorem crcByte_xor (c d : Half) (a b : Byte) : crcByte (c ^^^ d) (a ^^^ b) = crcByte c a ^^^ crcByte d b := by
  unfold crcByte
  rw [← crcShifts_xor]
  have h : zext16 (a ^^^ b) = zext16 a ^^^ zext16 b := BitVec.setWidth_xor
  rw [h]
  congr 1
  generalize zext16 a = x
  generalize zext16 b = y
  ac_rfl

theorem crcByte_injective (b : Byte) : Function.Injective fun c : Half => crcByte c b :=
  fun _ _ h => half_xor_cancel (crcShifts_injective 8 h)

/-- The register a byte takes to zero is that byte. -/
theorem crcByte_eq_zero {c : Half} {b : Byte} (h : crcByte c b = 0#16) : c = zext16 b := by
  have h2 : crcShifts 8 (c ^^^ zext16 b) = crcShifts 8 0#16 := by rw [crcShifts_zero]; exact h
  exact BitVec.xor_eq_zero_iff.mp (crcShifts_injective 8 h2)

/-- The low byte of the register, run in, leaves the high byte. -/
theorem crcByte_low (c : Half) : crcByte c (lo8 c) = c >>> 8 := by
  have hz : zext16 (lo8 c) = c &&& 0x00FF#16 := by
    ext i hi
    simp only [zext16, lo8, BitVec.truncate_eq_setWidth, BitVec.getElem_setWidth, BitVec.getLsbD_extractLsb', BitVec.getElem_and]
    have : (0x00FF#16)[i] = decide (i < 8) := by revert i; decide
    rw [this, Nat.zero_add, BitVec.getLsbD_eq_getElem hi, Bool.and_comm]
  have hx : c ^^^ zext16 (lo8 c) = c &&& 0xFF00#16 := by
    rw [hz]
    ext i hi
    have h1 : (0x00FF#16)[i] = decide (i < 8) := by revert i; decide
    have h2 : (0xFF00#16)[i] = !decide (i < 8) := by revert i; decide
    simp only [BitVec.getElem_xor, BitVec.getElem_and, h1, h2]
    by_cases h8 : i < 8 <;> simp [h8]
  unfold crcByte
  rw [hx, crcShifts_low_zero]
  · ext i hi
    simp only [BitVec.getElem_ushiftRight, BitVec.getLsbD_and]
    have h2 : (0xFF00#16).getLsbD (8 + i) = decide (8 + i < 16) := by revert i; decide
    rw [h2]
    by_cases h : 8 + i < 16
    · simp [h]
    · have : c.getLsbD (8 + i) = false := BitVec.getLsbD_of_ge c _ (by omega)
      simp [this]
  · intro i hi
    rw [BitVec.getLsbD_and]
    have h2 : (0xFF00#16).getLsbD i = false := by revert i; decide
    rw [h2, Bool.and_false]

/-- The register's own bytes, low byte first, take it to zero. -/
theorem crcByte_residue (c : Half) : crcByte (crcByte c (lo8 c)) (hi8 c) = 0#16 := by
  have h : c >>> 8 = zext16 (hi8 c) := by
    refine BitVec.eq_of_toNat_eq ?_
    have := c.isLt
    simp only [zext16, hi8, BitVec.toNat_ushiftRight, BitVec.truncate_eq_setWidth, BitVec.toNat_setWidth,
      BitVec.extractLsb'_toNat, Nat.shiftRight_eq_div_pow]
    omega
  rw [crcByte_low, h]
  unfold crcByte
  rw [BitVec.xor_self]
  exact crcShifts_zero 8

theorem crc16_append (f g : List Byte) : crc16 (f ++ g) = crcRun (crc16 f) g := by simp [crc16, crcRun]

end Sys2Proof.Machine
end

