-- ==== Sys2Proof/Laws/Schedule.lean ====
section
/-!
SUPPORT. Whose turn it is, read backwards: what each turn says of the state, and what each turn's step answers.
-/

namespace Sys2Proof.Machine

theorem firstRequester_some {p : Nat → List Issue → Bool} {l : List (List Issue)} {k r : Nat}
    (h : firstRequester p k l = some r) : k ≤ r ∧ r < k + l.length ∧ p r (l.getD (r - k) []) = true := by
  induction l generalizing k with
  | nil => cases h
  | cons q l ih =>
    unfold firstRequester at h
    split at h
    · cases h
      simp
      assumption
    · obtain ⟨h1, h2, h3⟩ := ih h
      have e : r - k = (r - (k + 1)) + 1 := by omega
      refine ⟨by omega, by simp only [List.length_cons]; omega, ?_⟩
      rw [e]
      exact h3

theorem firstRequester_none {p : Nat → List Issue → Bool} {l : List (List Issue)} {k : Nat}
    (h : ∀ j, p (k + j) (l.getD j []) = false) : firstRequester p k l = none := by
  induction l generalizing k with
  | nil => rfl
  | cons q l ih =>
    have h0 := h 0
    simp only [Nat.add_zero, List.getD_cons_zero] at h0
    unfold firstRequester
    rw [h0]
    simp only [Bool.false_eq_true, if_false]
    refine ih fun j => ?_
    have := h (j + 1)
    rwa [List.getD_cons_succ, show k + (j + 1) = k + 1 + j by omega] at this

theorem nextTurn_reset {s : State} (h : nextTurn s = .reset) : resetDue s = true := by
  unfold nextTurn at h
  split at h
  · assumption
  · split at h
    · cases h
    · split at h
      · cases h
      · split at h
        · cases h
        · split at h <;> cases h

theorem nextTurn_command {s : State} {r : Nat} (h : nextTurn s = .command r) :
    resetDue s = false ∧ firstRequester (runnable s) 0 s.env.hosts = some r := by
  unfold nextTurn at h
  split at h
  · cases h
  · split at h
    · cases h
      exact ⟨Bool.eq_false_of_not_eq_true ‹_›, ‹_›⟩
    · split at h
      · cases h
      · split at h
        · cases h
        · split at h <;> cases h

theorem nextTurn_grant {s : State} {r : Nat} (h : nextTurn s = .grant r) :
    resetDue s = false ∧ firstRequester (runnable s) 0 s.env.hosts = none ∧ grantTo s = some r := by
  unfold nextTurn at h
  split at h
  · cases h
  · split at h
    · cases h
    · split at h
      · cases h
        exact ⟨Bool.eq_false_of_not_eq_true ‹_›, ‹_›, ‹_›⟩
      · split at h
        · cases h
        · split at h <;> cases h

/-- The turns that come only when nothing else is due. -/
theorem nextTurn_idle {s : State} (h : nextTurn s = .sequencer ∨ nextTurn s = .tick) :
    resetDue s = false ∧ firstRequester (runnable s) 0 s.env.hosts = none ∧ grantTo s = none ∧ lineDue s = false ∧
      (nextTurn s = .sequencer ↔ sequencerReady s = true) := by
  unfold nextTurn at h ⊢
  by_cases hr : resetDue s = true
  · simp [hr] at h
  · cases hf : firstRequester (runnable s) 0 s.env.hosts with
    | some r => simp [hr, hf] at h
    | none =>
      cases hg : grantTo s with
      | some r => simp [hr, hf, hg] at h
      | none =>
        by_cases hl : lineDue s = true
        · simp [hr, hf, hg, hl] at h
        · by_cases hs : sequencerReady s = true <;> simp [hr, hl, hs]

/-- When no reset, command, grant or line byte is due. -/
theorem nextTurn_of_idle {s : State} (h1 : resetDue s = false) (h2 : firstRequester (runnable s) 0 s.env.hosts = none)
    (h3 : grantTo s = none) (h4 : lineDue s = false) :
    nextTurn s = if sequencerReady s then .sequencer else .tick := by
  simp [nextTurn, h1, h2, h3, h4]

theorem runnable_held {s : State} {r : Nat} (h : s.lock = .held r) (stream : List Issue) : runnable s r stream = false := by
  simp [runnable, pendingCommand, h]

theorem runnable_nil (s : State) (r : Nat) : runnable s r [] = false := by
  unfold runnable pendingCommand
  by_cases h : s.lock = .held r
  · simp [h]
  · simp [h]

/-- No grant is made while the lock is held (R125). -/
theorem grantTo_held {s : State} {r : Nat} (h : s.lock = .held r) : grantTo s = none := by
  simp [grantTo, grantOpen, State.lockFree, h]

theorem grantTo_some {s : State} {r : Nat} (h : grantTo s = some r) :
    s.lock = .free ∧ s.fsm = .idle ∧ waiting s r (s.env.hosts.getD r []) = true := by
  unfold grantTo at h
  split at h
  · rename_i ho
    have hf := lockFree_iff.mp (by simp only [grantOpen, Bool.and_eq_true] at ho; exact ho.1)
    split at h
    · cases h
    · split at h
      · cases h
        exact ⟨hf.1, hf.2, ‹_›⟩
      · cases h
  · cases h

/-- All that a command at a requester's port says of the state. -/
theorem pendingCommand_some {s : State} {r : Nat} {stream : List Issue} {bytes : List Byte} {b : Bank}
    (h : pendingCommand s r stream = some (bytes, b)) :
    ∃ c rest, s.lock ≠ .held r ∧ s.banks[r]? = some b ∧ stream = c :: rest ∧ issued s.now c = true ∧ c.bytes = bytes := by
  unfold pendingCommand at h
  split at h
  · cases h
  · split at h
    · split at h
      · cases h
        exact ⟨_, _, ‹_›, ‹_›, rfl, ‹_›, rfl⟩
      · cases h
    · cases h

/-- A stream whose first command has not been issued leaves the port empty. -/
theorem pendingCommand_none {s : State} {r : Nat} {stream : List Issue} (h : ∀ c ∈ stream.head?, issued s.now c = false) :
    pendingCommand s r stream = none := by
  rw [← Option.not_isSome_iff_eq_none]
  intro hp
  obtain ⟨⟨bytes, b⟩, hb⟩ := Option.isSome_iff_exists.mp hp
  obtain ⟨c, rest, _, _, rfl, hi, _⟩ := pendingCommand_some hb
  rw [h c rfl] at hi
  cases hi

theorem runnable_true {s : State} {r : Nat} {stream : List Issue} (h : runnable s r stream = true) :
    ∃ b c rest, s.lock ≠ .held r ∧ s.banks[r]? = some b ∧ stream = c :: rest ∧ issued s.now c = true ∧
      needsLock c.bytes b = false := by
  unfold runnable at h
  split at h
  · cases h
  · rename_i hp
    obtain ⟨c, rest, hl, hb, hs, hi, rfl⟩ := pendingCommand_some hp
    exact ⟨_, c, rest, hl, hb, hs, hi, by simpa using h⟩

theorem waiting_true {s : State} {r : Nat} {stream : List Issue} (h : waiting s r stream = true) :
    ∃ b c rest, s.lock ≠ .held r ∧ s.banks[r]? = some b ∧ stream = c :: rest ∧ issued s.now c = true ∧
      needsLock c.bytes b = true := by
  unfold waiting at h
  split at h
  · cases h
  · rename_i hp
    obtain ⟨c, rest, hl, hb, hs, hi, rfl⟩ := pendingCommand_some hp
    exact ⟨_, c, rest, hl, hb, hs, hi, h⟩

theorem takeGrant_hosts (e : Env) : e.takeGrant.hosts = e.hosts := by unfold Env.takeGrant; split <;> rfl
theorem takeGrant_line (e : Env) : e.takeGrant.line = e.line := by unfold Env.takeGrant; split <;> rfl
theorem takeGrant_resets (e : Env) : e.takeGrant.resets = e.resets := by unfold Env.takeGrant; split <;> rfl
theorem takeSend_hosts (e : Env) : e.takeSend.hosts = e.hosts := by unfold Env.takeSend; split <;> rfl
theorem takeSend_line (e : Env) : e.takeSend.line = e.line := by unfold Env.takeSend; split <;> rfl
theorem takeSend_resets (e : Env) : e.takeSend.resets = e.resets := by unfold Env.takeSend; split <;> rfl

/-- Each turn's step. -/
theorem stepWith_turn (p : Params) (s : State) :
    (nextTurn s = .reset → stepWith p s = .next (resetEvent s)) ∧
    (∀ r, nextTurn s = .command r → stepWith p s = runCommand r (s.select r)) ∧
    (∀ r, nextTurn s = .grant r → stepWith p s = runCommand r (s.selectGranted r)) ∧
    (nextTurn s = .line → stepWith p s = .next (deliverByte s)) ∧
    (nextTurn s = .sequencer → stepWith p s = sequencerTurn p s) ∧
    (nextTurn s = .tick → stepWith p s = .next (passTime s)) := by
  refine ⟨?_, ?_, ?_, ?_, ?_, ?_⟩ <;> intros <;> simp [stepWith, *]

/-- The command at a requester's port. -/
theorem portCommand_of {s : State} {r : Nat} {c : Issue} {rest : List Issue} (h : s.env.hosts.getD r [] = c :: rest) :
    portCommand s r = decode c.bytes := by
  unfold portCommand
  rw [h]

/-- A command that runs does what its decoding says; a byte string that decodes to none does what `undecoded` says. -/
theorem runCommand_next {r : Nat} {s t : State} (h : runCommand r s = .next t) :
    (∃ i, portCommand s r = .ok i ∧ exec i s = .next t) ∨
    (∃ x b, portCommand s r = .error (.illegalOpcode x) ∧ s.ready b ∧ endFatal s b .illegalCommand = .next t) := by
  unfold runCommand at h
  split at h
  · exact .inl ⟨_, ‹_›, h⟩
  · rename_i e he
    cases e with
    | illegalOpcode x =>
      obtain ⟨b, hb, hk⟩ := withRequester_next h
      exact .inr ⟨x, b, he, hb, hk⟩
    | empty => cases h
    | cutShort => cases h
    | leftOver => cases h

end Sys2Proof.Machine
end

