-- ==== Sys2Proof/Laws/Sequencer.lean ====
section
/-!
SUPPORT. All that a transition of the sequencer can do, said once (`sequencerTurn_next`).
-/

namespace Sys2Proof.Machine

/-- The statuses a received frame can end with are legal (R66, R137, R138). -/
theorem statusLegal_classify (f : List Byte) : statusLegal (classify f) = true := by
  unfold classify
  split
  · have h : (zext16 (f.getD 2 0)).toNat ≤ 255 := by
      have := (f.getD 2 0).isLt
      simp only [zext16, BitVec.truncate_eq_setWidth, BitVec.toNat_setWidth]
      omega
    simp only [statusLegal, h, decide_true, Bool.or_true]
  · exact statusLegal_done

theorem statusLegal_validate (f : List Byte) : statusLegal (validate f) = true := by
  unfold validate
  split
  · decide
  · split
    · exact statusLegal_classify f
    · decide

/-- Where a receive state leaves the sequencer when its frame is not complete. -/
structure ReceivesOn (s t : State) (r : Nat) (c : Bank) : Prop where
  bank : t.banks = s.banks.set r c
  same : t = { s with banks := t.banks, deadline := t.deadline, fsm := t.fsm }
  where_ : (s.fsm = .head ∧ t.fsm = .head ∧ c.rxbuf.length ≠ 5) ∨
    (s.fsm = .head ∧ t.fsm = .bodyLen ∧ c.rxbuf.length = 5 ∧ 5 < s.explen.toNat) ∨
    (s.fsm = .head ∧ t.fsm = .bodyGap ∧ c.rxbuf.length = 5 ∧ s.explen = 0#16) ∨
    (s.fsm = .bodyLen ∧ t.fsm = .bodyLen ∧ c.rxbuf.length ≠ min s.explen.toNat 257) ∨
    (s.fsm = .bodyGap ∧ t.fsm = .bodyGap ∧ c.rxbuf.length ≤ 256)

/-- All that a transition can do when it answers a next state: end the pacing wait, end the write, complete, or store a byte and go on. -/
theorem sequencerTurn_next {p : Params} {s t : State} (h : sequencerTurn p s = .next t) :
    ∃ r b, s.lock = .held r ∧ s.banks[r]? = some b ∧
      ((s.fsm = .pace ∧ t = { s.serFlush with fsm := .send, sendEnd := s.now + s.env.nextSend, env := s.env.takeSend }) ∨
       (s.fsm = .send ∧ ∃ u, u = { (s.serWrite b.txbuf).log [.txFrame r b.txbuf] with lastPoll := s.now } ∧
         ((∃ c, (c = b ∨ c = { b with rxbuf := [] }) ∧ t = u.complete p r c (.status SUCCESS)) ∨
          (s.cur = .xchg ∧ b.txbuf ≠ [] ∧ t = u.enterHead r b))) ∨
       ((s.fsm = .head ∨ s.fsm = .bodyLen ∨ s.fsm = .bodyGap) ∧
         ((s.serq = [] ∧ ∃ e, (∀ v, e = .status v → statusLegal v = true) ∧ t = s.complete p r b e) ∨
          ∃ x q u, s.serq = x :: q ∧ u = { s with serq := q } ∧
            ((∃ e, (∀ v, e = .status v → statusLegal v = true) ∧ t = u.complete p r (b.storeByte x.1) e) ∨
             ReceivesOn u t r (b.storeByte x.1))))) := by
  have legal : ∀ {w v : Half}, statusLegal w = true → Ending.status w = .status v → statusLegal v = true := by
    intro w v hw he
    cases he
    exact hw
  unfold sequencerTurn at h
  split at h
  · cases h
  · obtain ⟨r, b, hl, hb, hk⟩ := withOwner_next h
    cases hk
    exact ⟨r, b, hl, hb, .inl ⟨‹_›, rfl⟩⟩
  · obtain ⟨r, b, hl, hb, hk⟩ := withOwner_next h
    refine ⟨r, b, hl, hb, .inr (.inl ⟨‹_›, _, rfl, ?_⟩)⟩
    dsimp only at hk
    split at hk
    · cases hk
      exact .inl ⟨b, .inl rfl, rfl⟩
    · rename_i hc
      split at hk
      · cases hk
      · rename_i ht
        split at hk
        · cases hk
          exact .inl ⟨_, .inr rfl, rfl⟩
        · cases hk
          exact .inr ⟨hc, by rw [ht]; exact List.cons_ne_nil _ _, rfl⟩
    · cases hk
  · rename_i hf
    obtain ⟨r, b, hl, hb, hk⟩ := receiveTurn_next h
    refine ⟨r, b, hl, hb, .inr (.inr ⟨.inl hf, ?_⟩)⟩
    rcases hk with ⟨x, q, hq, ht⟩ | ⟨hq, ht⟩
    · refine .inr ⟨x, q, _, hq, rfl, ?_⟩
      unfold headByte at ht
      split at ht
      · rename_i h5
        unfold headDone at ht
        split at ht
        · split at ht
          · exact .inl ⟨_, fun v => legal (statusLegal_classify _), ht⟩
          · split at ht
            · exact .inl ⟨_, fun v => legal (statusLegal_validate _), ht⟩
            · rename_i hgt
              simp only [Config.HEAD_LEN, not_le] at hgt h5
              subst ht
              exact .inr ⟨rfl, rfl, .inr (.inl ⟨hf, rfl, h5, hgt⟩)⟩
        · split at ht
          · exact .inl ⟨_, fun v => legal (statusLegal_classify _), ht⟩
          · rename_i he _
            simp only [not_not] at he
            subst ht
            exact .inr ⟨rfl, rfl, .inr (.inr (.inl ⟨hf, rfl, h5, he⟩))⟩
      · subst ht
        exact .inr ⟨rfl, rfl, .inl ⟨hf, hf, ‹_›⟩⟩
    · exact .inl ⟨hq, _, fun v => legal (by decide), ht⟩
  · rename_i hf
    obtain ⟨r, b, hl, hb, hk⟩ := receiveTurn_next h
    refine ⟨r, b, hl, hb, .inr (.inr ⟨.inr (.inl hf), ?_⟩)⟩
    rcases hk with ⟨x, q, hq, ht⟩ | ⟨hq, ht⟩
    · refine .inr ⟨x, q, _, hq, rfl, ?_⟩
      unfold bodyLenByte at ht
      split at ht
      · exact .inl ⟨_, fun v => legal (statusLegal_validate _), ht⟩
      · subst ht
        exact .inr ⟨rfl, rfl, .inr (.inr (.inr (.inl ⟨hf, hf, ‹_›⟩)))⟩
    · exact .inl ⟨hq, _, fun v => legal (statusLegal_validate _), ht⟩
  · rename_i hf
    obtain ⟨r, b, hl, hb, hk⟩ := receiveTurn_next h
    refine ⟨r, b, hl, hb, .inr (.inr ⟨.inr (.inr hf), ?_⟩)⟩
    rcases hk with ⟨x, q, hq, ht⟩ | ⟨hq, ht⟩
    · refine .inr ⟨x, q, _, hq, rfl, ?_⟩
      unfold gapByte at ht
      split at ht
      · exact .inl ⟨_, (fun v he => by cases he), ht⟩
      · rename_i hgt
        subst ht
        exact .inr ⟨rfl, rfl, .inr (.inr (.inr (.inr ⟨hf, hf, by simpa using hgt⟩)))⟩
    · exact .inl ⟨hq, _, fun v => legal (statusLegal_validate _), ht⟩

end Sys2Proof.Machine
end

