-- ==== Sys2Proof/Laws/Memory.lean ====
section
/-!
SUPPORT. `Memory.wf`, the canonical form of the block's storage: it holds after reset, and every operation that writes a buffer keeps it.
-/

namespace Sys2Proof.Machine

theorem memory_wf_reset : Memory.wf State.reset.banks = true := by
  simp only [Memory.wf, State.reset, State.resetAt, List.all_replicate]
  split <;> rfl

theorem memory_wf_set {banks : List Bank} {r : Nat} {c : Bank} (h : Memory.wf banks = true) (hc : c.fits = true) :
    Memory.wf (banks.set r c) = true := all_set h hc

theorem memory_wf_setBank {s : State} {r : Nat} {c : Bank} (h : Memory.wf s.banks = true) (hc : c.fits = true) :
    Memory.wf (s.setBank r c).banks = true := memory_wf_set h hc

theorem memory_wf_conclude {s : State} {r : Nat} {c : Bank} (h : Memory.wf s.banks = true) (hc : c.fits = true) (e : Ending) :
    Memory.wf (s.conclude r c e).banks = true := memory_wf_set h (by rw [fits_ending]; exact hc)

theorem memory_wf_complete {s : State} {r : Nat} {c : Bank} (h : Memory.wf s.banks = true) (hc : c.fits = true) (p : Params)
    (e : Ending) : Memory.wf (s.complete p r c e).banks = true := memory_wf_set h (by rw [fits_ending]; exact hc)

/-- A byte is stored only below the capacity (R41). -/
theorem fits_storeByte {b : Bank} (h : b.fits = true) (hl : b.rxbuf.length < 260) (x : Byte) : (b.storeByte x).fits = true := by
  simp only [fits_iff, Bank.storeByte, List.length_append, List.length_singleton] at *
  omega

theorem fits_emptied {b : Bank} (h : b.fits = true) : { b with rxbuf := [] }.fits = true := by
  simp only [fits_iff, List.length_nil] at *
  omega

theorem memory_wf_enterHead {s : State} {r : Nat} {b : Bank} (h : Memory.wf s.banks = true) (hb : b.fits = true) :
    Memory.wf (s.enterHead r b).banks = true := memory_wf_set h (fits_emptied hb)

/-- Every command keeps the canonical form. -/
theorem exec_memory_wf {i : Instr} {s t : State} (hm : Memory.wf s.banks = true) (h : exec i s = .next t) :
    Memory.wf t.banks = true := by
  obtain ⟨b, hb, hk⟩ := exec_next h
  have hf : b.fits = true := all_getElem? hm hb.1
  rcases hk with ⟨_, _, rfl⟩ | ⟨c, e, hc, rfl⟩ | ⟨_, _, rfl | ⟨_, _, rfl⟩ | ⟨_, _, _, rfl⟩ | ⟨c, u, e, hc, _, rfl⟩⟩
  · exact hm
  · exact memory_wf_conclude hm (hc.fits hf) e
  · exact hm
  · exact memory_wf_enterHead hm hf
  · exact hm
  · refine memory_wf_complete ?_ hf _ _
    rw [hc.same]
    exact hm

/-- Every transition of the sequencer keeps it, as long as there is room for a byte in the owner's receive buffer. -/
theorem sequencerTurn_memory_wf {p : Params} {s t : State} (hm : Memory.wf s.banks = true)
    (hroom : ∀ r b, s.lock = .held r → s.banks[r]? = some b → b.rxbuf.length < 260) (h : sequencerTurn p s = .next t) :
    Memory.wf t.banks = true := by
  obtain ⟨r, b, hl, hb, hk⟩ := sequencerTurn_next h
  have hf : b.fits = true := all_getElem? hm hb
  have hs := fun x => fits_storeByte hf (hroom r b hl hb) x
  rcases hk with ⟨_, rfl⟩ | ⟨_, u, hu, ⟨c, hc, rfl⟩ | ⟨_, _, rfl⟩⟩ | ⟨_, ⟨_, e, _, rfl⟩ | ⟨x, q, u, _, hu, ⟨e, _, rfl⟩ | hr⟩⟩
  · exact hm
  · refine memory_wf_complete (by rw [hu]; exact hm) ?_ _ _
    rcases hc with rfl | rfl
    · exact hf
    · exact fits_emptied hf
  · exact memory_wf_enterHead (by rw [hu]; exact hm) hf
  · exact memory_wf_complete hm hf _ _
  · exact memory_wf_complete (by rw [hu]; exact hm) (hs x.1) _ _
  · rw [hr.bank, hu]
    exact memory_wf_set hm (hs x.1)

theorem memory_wf_resetEvent (s : State) : Memory.wf (resetEvent s).banks = true := by
  simp only [Memory.wf, resetEvent, State.resetAt, List.all_replicate]
  split <;> rfl

theorem memory_wf_deliverByte {s : State} (h : Memory.wf s.banks = true) : Memory.wf (deliverByte s).banks = true := by
  unfold deliverByte
  split <;> exact h

theorem memory_wf_passTime {s : State} (h : Memory.wf s.banks = true) : Memory.wf (passTime s).banks = true := h

end Sys2Proof.Machine
end

