-- ==== Sys2Proof/Laws/PerInstr.lean ====
section
/-!
SUPPORT. Per-instruction laws: the encoded length of every command, R74's column "total length in bytes".
-/

namespace Sys2Proof.Laws

/-- The total length in bytes that R74 gives a command; for a `LOAD` three and its count. -/
def EncodedLength.bytes : Instr → Nat
  | .crcInit => 1
  | .crcUpd _ => 2
  | .mkctxRtu _ _ => 4
  | .encapRtu => 1
  | .decapRtu => 1
  | .xctxRtu => 1
  | .mkctxTcp _ _ => 4
  | .encapTcp => 1
  | .decapTcp => 1
  | .xctxTcp => 1
  | .tx => 1
  | .rx _ _ => 7
  | .xchg _ _ => 7
  | .setbaud _ => 5
  | .setpoll _ => 5
  | .seterr _ => 5
  | .loadP data => 3 + data.length
  | .loadR data => 3 + data.length
  | .loadC data => 3 + data.length
  | .loadT data => 3 + data.length

/-- The encoding of a command has the length of R74. -/
def EncodedLength.Statement (i : Instr) : Prop := (encode i).length = EncodedLength.bytes i

theorem EncodedLength.crcInit : EncodedLength.Statement (.crcInit) := rfl

theorem EncodedLength.crcUpd (b : Byte) : EncodedLength.Statement (.crcUpd b) := rfl

theorem EncodedLength.mkctxRtu (u : Byte) (q : Half) : EncodedLength.Statement (.mkctxRtu u q) := rfl

theorem EncodedLength.encapRtu : EncodedLength.Statement (.encapRtu) := rfl

theorem EncodedLength.decapRtu : EncodedLength.Statement (.decapRtu) := rfl

theorem EncodedLength.xctxRtu : EncodedLength.Statement (.xctxRtu) := rfl

theorem EncodedLength.mkctxTcp (u : Byte) (q : Half) : EncodedLength.Statement (.mkctxTcp u q) := rfl

theorem EncodedLength.encapTcp : EncodedLength.Statement (.encapTcp) := rfl

theorem EncodedLength.decapTcp : EncodedLength.Statement (.decapTcp) := rfl

theorem EncodedLength.xctxTcp : EncodedLength.Statement (.xctxTcp) := rfl

theorem EncodedLength.tx : EncodedLength.Statement (.tx) := rfl

theorem EncodedLength.rx (t : Word) (e : Half) : EncodedLength.Statement (.rx t e) := rfl

theorem EncodedLength.xchg (t : Word) (e : Half) : EncodedLength.Statement (.xchg t e) := rfl

theorem EncodedLength.setbaud (w : Word) : EncodedLength.Statement (.setbaud w) := rfl

theorem EncodedLength.setpoll (w : Word) : EncodedLength.Statement (.setpoll w) := rfl

theorem EncodedLength.seterr (w : Word) : EncodedLength.Statement (.seterr w) := rfl

theorem EncodedLength.loadP (data : List Byte) : EncodedLength.Statement (.loadP data) := by
  simp [EncodedLength.Statement, EncodedLength.bytes, encode, Instr.operandBytes, bytesBE16]
  omega

theorem EncodedLength.loadR (data : List Byte) : EncodedLength.Statement (.loadR data) := by
  simp [EncodedLength.Statement, EncodedLength.bytes, encode, Instr.operandBytes, bytesBE16]
  omega

theorem EncodedLength.loadC (data : List Byte) : EncodedLength.Statement (.loadC data) := by
  simp [EncodedLength.Statement, EncodedLength.bytes, encode, Instr.operandBytes, bytesBE16]
  omega

theorem EncodedLength.loadT (data : List Byte) : EncodedLength.Statement (.loadT data) := by
  simp [EncodedLength.Statement, EncodedLength.bytes, encode, Instr.operandBytes, bytesBE16]
  omega

end Sys2Proof.Laws
end

