-- ==== Sys2Proof/Laws/Step.lean ====
section
/-!
SUPPORT. All that a step can be, said once (`step_next`), and the state a command of the step runs on.
-/

namespace Sys2Proof.Machine

/-- `u` is `s` with requester `r`'s command selected, at its own turn or by a grant. -/
def State.Selects (s : State) (r : Nat) (u : State) : Prop :=
  (nextTurn s = .command r ∧ u = s.select r) ∨ (nextTurn s = .grant r ∧ u = s.selectGranted r)

/-- Selecting a command changes nothing but `active` and the arbiter's choices. -/
theorem selects_same {s u : State} {r : Nat} (h : s.Selects r u) :
    u = { s with active := r, env := u.env } ∧ u.env.hosts = s.env.hosts ∧ u.env.line = s.env.line ∧
      u.env.resets = s.env.resets := by
  rcases h with ⟨_, rfl⟩ | ⟨_, rfl⟩
  · exact ⟨rfl, rfl, rfl, rfl⟩
  · exact ⟨rfl, takeGrant_hosts _, takeGrant_line _, takeGrant_resets _⟩

/-- All that a step can be when it answers a next state: a reset, a command, a line byte, a millisecond, or a transition. -/
theorem step_next {s t : State} (h : step s = .next t) :
    (nextTurn s = .reset ∧ t = resetEvent s) ∨
    (∃ r u, s.Selects r u ∧
      ((∃ i, portCommand u r = .ok i ∧ exec i u = .next t) ∨
       ∃ b x, portCommand u r = .error (.illegalOpcode x) ∧ u.ready b ∧ t = u.conclude r b (.fatal .illegalCommand))) ∨
    (nextTurn s = .line ∧ t = deliverByte s) ∨
    (nextTurn s = .tick ∧ t = passTime s) ∨
    (nextTurn s = .sequencer ∧ sequencerTurn Config.params s = .next t) := by
  have st := stepWith_turn Config.params s
  unfold step at h
  cases ht : nextTurn s with
  | reset =>
    rw [st.1 ht] at h
    cases h
    exact .inl ⟨rfl, rfl⟩
  | command r =>
    rw [st.2.1 r ht] at h
    refine .inr (.inl ⟨r, _, .inl ⟨ht, rfl⟩, ?_⟩)
    rcases runCommand_next h with ⟨i, h1, hi⟩ | ⟨x, b, h1, hb, he⟩
    · exact .inl ⟨i, h1, hi⟩
    · exact .inr ⟨b, x, h1, hb, finish_next he⟩
  | grant r =>
    rw [st.2.2.1 r ht] at h
    refine .inr (.inl ⟨r, _, .inr ⟨ht, rfl⟩, ?_⟩)
    rcases runCommand_next h with ⟨i, h1, hi⟩ | ⟨x, b, h1, hb, he⟩
    · exact .inl ⟨i, h1, hi⟩
    · exact .inr ⟨b, x, h1, hb, finish_next he⟩
  | line =>
    rw [st.2.2.2.1 ht] at h
    cases h
    exact .inr (.inr (.inl ⟨rfl, rfl⟩))
  | tick =>
    rw [st.2.2.2.2.2 ht] at h
    cases h
    exact .inr (.inr (.inr (.inl ⟨rfl, rfl⟩)))
  | sequencer =>
    rw [st.2.2.2.2.1 ht] at h
    exact .inr (.inr (.inr (.inr ⟨rfl, h⟩)))

end Sys2Proof.Machine
end

