-- ==== Sys2Proof/Laws/Run.lean ====
section
/-!
SUPPORT. Runs while a command holds the lock and no other agent but the line acts: how a step goes, and how a run is put together.
-/

namespace Sys2Proof.Machine

/-- From `s` the machine comes to a state that satisfies `P`. -/
def Reaches (s : State) (P : State → Prop) : Prop := ∃ n t, Sys2Proof.core.run n s = .next t ∧ P t

theorem reaches_now {s : State} {P : State → Prop} (h : P s) : Reaches s P := ⟨0, s, rfl, h⟩

theorem run_next {n : Nat} {s u t : State} (h : step s = .next u) (hr : Sys2Proof.core.run n u = .next t) :
    Sys2Proof.core.run (n + 1) s = .next t := by
  have hc : Sys2Proof.core.step s = .next u := h
  rw [Host.Core.run.eq_2 Sys2Proof.core s n, hc]
  exact hr

theorem run_succ {n : Nat} {s t : State} (hr : Sys2Proof.core.run (n + 1) s = .next t) :
    ∃ u, step s = .next u ∧ Sys2Proof.core.run n u = .next t := by
  rw [Host.Core.run.eq_2 Sys2Proof.core s n] at hr
  split at hr
  · exact ⟨_, ‹_›, hr⟩
  · cases hr
  · cases hr

theorem reaches_step {s u : State} {P : State → Prop} (hs : step s = .next u) (h : Reaches u P) : Reaches s P := by
  obtain ⟨n, t, hr, hp⟩ := h
  exact ⟨n + 1, t, run_next hs hr, hp⟩

theorem reaches_trans {s : State} {P Q : State → Prop} (h : Reaches s P) (hpq : ∀ t, P t → Reaches t Q) : Reaches s Q := by
  obtain ⟨n, t, hr, hp⟩ := h
  induction n generalizing s with
  | zero => cases hr; exact hpq _ hp
  | succ n ih =>
    obtain ⟨u, hu, hr⟩ := run_succ hr
    exact reaches_step hu (ih hr)

theorem reaches_mono {s : State} {P Q : State → Prop} (h : Reaches s P) (hpq : ∀ t, P t → Q t) : Reaches s Q :=
  reaches_trans h fun t ht => reaches_now (hpq t ht)

/-- Requester `r` holds the lock, and nothing but it and the line will act. -/
def Alone (s : State) (r : Nat) : Prop := s.lock = .held r ∧ quietBut s r

theorem alone_of {s t : State} {r : Nat} (h : Alone s r) (hl : t.lock = s.lock) (hh : t.env.hosts = s.env.hosts)
    (hr : t.env.resets = s.env.resets) : Alone t r :=
  ⟨hl.trans h.1, by rw [hr]; exact h.2.1, fun q hq => by rw [hh]; exact h.2.2 q hq⟩

theorem alone_turn {s : State} {r : Nat} (h : Alone s r) :
    nextTurn s = if lineDue s then .line else if sequencerReady s then .sequencer else .tick := by
  have h1 : resetDue s = false := by simp [resetDue, h.2.1]
  have h2 : firstRequester (runnable s) 0 s.env.hosts = none := by
    refine firstRequester_none fun j => ?_
    rw [Nat.zero_add]
    by_cases hj : j = r
    · rw [hj]
      exact runnable_held h.1 _
    · rw [h.2.2 j hj]
      exact runnable_nil s j
  simp [nextTurn, h1, h2, grantTo_held h.1]

/-- A byte is due: it is queued. -/
theorem alone_line {s : State} {r a : Nat} {x : Byte} {rest : List (Nat × Byte)} (h : Alone s r)
    (hl : s.env.line = (a, x) :: rest) (ha : a ≤ s.now) :
    step s = .next { s with serq := s.serq ++ [(x, s.now)], env := { s.env with line := rest } } := by
  have hd : lineDue s = true := by simp [lineDue, hl, ha]
  have ht := alone_turn h
  rw [hd] at ht
  rw [step, (stepWith_turn _ s).2.2.2.1 ht]
  simp [deliverByte, hl]

theorem alone_sequencer {s : State} {r : Nat} (h : Alone s r) (hd : lineDue s = false) (hs : sequencerReady s = true) :
    step s = sequencerTurn Config.params s := by
  have ht := alone_turn h
  rw [hd, hs] at ht
  exact (stepWith_turn _ s).2.2.2.2.1 ht

theorem alone_tick {s : State} {r : Nat} (h : Alone s r) (hd : lineDue s = false) (hs : sequencerReady s = false) :
    step s = .next { s with now := s.now + 1 } := by
  have ht := alone_turn h
  rw [hd, hs] at ht
  have hg : grantOpen s = false := by simp [grantOpen, State.lockFree, h.1]
  rw [step, (stepWith_turn _ s).2.2.2.2.2 ht]
  simp [passTime, hg]

/-- The bytes that are due are queued, in order, before anything else happens (R143). -/
theorem alone_drain {s : State} {r : Nat} (h : Alone s r) :
    Reaches s fun t => lineDue t = false ∧ ∃ q : List (Byte × Nat),
      t = { s with serq := s.serq ++ q, env := { s.env with line := s.env.line.dropWhile fun x => decide (x.1 ≤ s.now) } } ∧
      q.map Prod.fst = (s.env.line.takeWhile fun x => decide (x.1 ≤ s.now)).map Prod.snd := by
  have none_due : lineDue s = false → (s.env.line.dropWhile fun x => decide (x.1 ≤ s.now)) = s.env.line →
      (s.env.line.takeWhile fun x => decide (x.1 ≤ s.now)) = [] → Reaches s fun t => lineDue t = false ∧ ∃ q : List (Byte × Nat),
        t = { s with
          serq := s.serq ++ q, env := { s.env with line := s.env.line.dropWhile fun x => decide (x.1 ≤ s.now) } } ∧
        q.map Prod.fst = (s.env.line.takeWhile fun x => decide (x.1 ≤ s.now)).map Prod.snd := by
    intro hd hdrop htake
    rw [hdrop, htake]
    exact reaches_now ⟨hd, [], by rw [List.append_nil], rfl⟩
  cases hl : s.env.line with
  | nil =>
    rw [hl] at none_due
    exact none_due (by simp [lineDue, hl]) rfl rfl
  | cons x rest =>
    obtain ⟨a, x⟩ := x
    by_cases ha : a ≤ s.now
    · refine reaches_step (alone_line h hl ha) ?_
      have h' : Alone { s with serq := s.serq ++ [(x, s.now)], env := { s.env with line := rest } } r :=
        alone_of h rfl rfl rfl
      refine reaches_mono (alone_drain h') ?_
      rintro t ⟨hd, q, ht, hq⟩
      refine ⟨hd, (x, s.now) :: q, ?_, ?_⟩
      · rw [ht]
        simp [ha]
      · simp [ha, hq]
    · rw [hl] at none_due
      exact none_due (by simp [lineDue, hl, ha]) (by simp [ha]) (by simp [ha])
termination_by s.env.line.length
decreasing_by simp [hl]

/-- A wait for an instant: the machine comes to it, with what the line has delivered by then queued. `ready` says that the instant is all the
sequencer waits for. -/
theorem alone_waits {s : State} {r due : Nat} (h : Alone s r)
    (ready : ∀ t : State, t.fsm = s.fsm → t.lastPoll = s.lastPoll → t.delayPoll = s.delayPoll → t.sendEnd = s.sendEnd →
      (sequencerReady t = true ↔ due ≤ t.now)) :
    Reaches s fun t => lineDue t = false ∧ sequencerReady t = true ∧ ∃ q : List (Byte × Nat),
      t = { s with
        now := max s.now due, serq := s.serq ++ q,
        env := { s.env with line := s.env.line.dropWhile fun x => decide (x.1 ≤ max s.now due) } } ∧
      q.map Prod.fst = (s.env.line.takeWhile fun x => decide (x.1 ≤ max s.now due)).map Prod.snd := by
  suffices hw : ∀ d (s : State), Alone s r → d = due - s.now →
      (∀ t : State, t.fsm = s.fsm → t.lastPoll = s.lastPoll → t.delayPoll = s.delayPoll → t.sendEnd = s.sendEnd →
        (sequencerReady t = true ↔ due ≤ t.now)) →
      Reaches s fun t => lineDue t = false ∧ sequencerReady t = true ∧ ∃ q : List (Byte × Nat),
        t = { s with
          now := max s.now due, serq := s.serq ++ q,
          env := { s.env with line := s.env.line.dropWhile fun x => decide (x.1 ≤ max s.now due) } } ∧
        q.map Prod.fst = (s.env.line.takeWhile fun x => decide (x.1 ≤ max s.now due)).map Prod.snd from
    hw _ s h rfl ready
  intro d
  induction d with
  | zero =>
    intro s h hd ready
    have hm : max s.now due = s.now := by omega
    rw [hm]
    refine reaches_mono (alone_drain h) ?_
    rintro t ⟨hl, q, ht, hq⟩
    refine ⟨hl, (ready t ?_ ?_ ?_ ?_).mpr ?_, q, ht, hq⟩ <;> subst ht <;> first | rfl | (show due ≤ s.now; omega)
  | succ d ih =>
    intro s h hd ready
    refine reaches_trans (alone_drain h) ?_
    rintro t ⟨hl, q, ht, hq⟩
    have ha : Alone t r := by subst ht; exact alone_of h rfl rfl rfl
    have hn : sequencerReady t = false := by
      rw [← Bool.not_eq_true, ready t (by rw [ht]) (by rw [ht]) (by rw [ht]) (by rw [ht]), ht]
      show ¬ due ≤ s.now
      omega
    refine reaches_step (alone_tick ha hl hn) ?_
    have ha' : Alone { t with now := t.now + 1 } r := alone_of ha rfl rfl rfl
    have htn : t.now = s.now := by rw [ht]
    refine reaches_mono (ih _ ha' (by show d = due - (t.now + 1); omega) ?_) ?_
    · intro u h1 h2 h3 h4
      exact ready u (by rw [h1, ht]) (by rw [h2, ht]) (by rw [h3, ht]) (by rw [h4, ht])
    · rintro u ⟨hl', hr', q', hu, hq'⟩
      have hm : max (t.now + 1) due = max s.now due := by omega
      have hle : s.now ≤ max s.now due := by omega
      dsimp only at hu hq'
      rw [hm] at hu hq'
      have hline : t.env.line = s.env.line.dropWhile fun x => decide (x.1 ≤ s.now) := by rw [ht]
      have htake : ∀ l : List (Nat × Byte),
          (l.dropWhile fun x => decide (x.1 ≤ s.now)).dropWhile (fun x => decide (x.1 ≤ max s.now due)) =
            l.dropWhile (fun x => decide (x.1 ≤ max s.now due)) ∧
          (l.takeWhile fun x => decide (x.1 ≤ s.now)) ++
            (l.dropWhile fun x => decide (x.1 ≤ s.now)).takeWhile (fun x => decide (x.1 ≤ max s.now due)) =
            l.takeWhile (fun x => decide (x.1 ≤ max s.now due)) := by
        intro l
        induction l with
        | nil => simp
        | cons x l ihl =>
          by_cases hx : x.1 ≤ s.now
          · have hx' : x.1 ≤ max s.now due := by omega
            simp only [List.dropWhile_cons, List.takeWhile_cons, hx, hx', decide_true, if_true, List.cons_append]
            exact ⟨ihl.1, congrArg _ ihl.2⟩
          · simp [hx]
      refine ⟨hl', hr', q ++ q', ?_, ?_⟩
      · rw [hu, hline, (htake _).1, ht]
        simp
      · rw [List.map_append, hq, hq', hline, ← (htake s.env.line).2, List.map_append]

end Sys2Proof.Machine
end

