-- ==== Sys2Proof/Tests/Slice0.lean ====
section
/-!
SUPPORT. The model's own tests. Expected values are those of `spec/95_test_vectors.md` (the vector is named in each docstring) or of the
encoding column of `30_encoding.md` R74. The second half holds, for every statement that has hypotheses, a witness that meets them.
-/

namespace Sys2Proof.Tests

open Sys2Proof Sys2Proof.Machine

set_option Elab.async false

/-! ### Decoding: one word written out for every row of R74, and what no command is -/

theorem test_decode_crcInit : decode [0x01#8] = .ok .crcInit := by rfl
theorem test_decode_crcUpd : decode [0x02#8, 0x0A#8] = .ok (.crcUpd 0x0A#8) := by rfl
theorem test_decode_mkctxRtu : decode [0x10#8, 0x11#8, 0xBE#8, 0xEF#8] = .ok (.mkctxRtu 0x11#8 0xBEEF#16) := by rfl
theorem test_decode_encapRtu : decode [0x11#8] = .ok .encapRtu := by rfl
theorem test_decode_decapRtu : decode [0x12#8] = .ok .decapRtu := by rfl
theorem test_decode_xctxRtu : decode [0x13#8] = .ok .xctxRtu := by rfl
theorem test_decode_mkctxTcp : decode [0x18#8, 0x11#8, 0x12#8, 0x34#8] = .ok (.mkctxTcp 0x11#8 0x1234#16) := by rfl
theorem test_decode_encapTcp : decode [0x19#8] = .ok .encapTcp := by rfl
theorem test_decode_decapTcp : decode [0x1A#8] = .ok .decapTcp := by rfl
theorem test_decode_xctxTcp : decode [0x1B#8] = .ok .xctxTcp := by rfl
theorem test_decode_tx : decode [0x20#8] = .ok .tx := by rfl
theorem test_decode_rx : decode [0x21#8, 0x00#8, 0x00#8, 0x00#8, 0x64#8, 0x00#8, 0x09#8] = .ok (.rx 100#32 9#16) := by rfl
theorem test_decode_xchg : decode [0x22#8, 0x00#8, 0x00#8, 0x01#8, 0xF4#8, 0x00#8, 0x00#8] = .ok (.xchg 500#32 0#16) := by rfl
theorem test_decode_setbaud : decode [0x30#8, 0x00#8, 0x01#8, 0xC2#8, 0x00#8] = .ok (.setbaud 115200#32) := by rfl
theorem test_decode_setpoll : decode [0x31#8, 0x00#8, 0x00#8, 0x00#8, 0x32#8] = .ok (.setpoll 50#32) := by rfl
theorem test_decode_seterr : decode [0x32#8, 0x00#8, 0x00#8, 0x01#8, 0xF4#8] = .ok (.seterr 500#32) := by rfl
theorem test_decode_loadP : decode [0x40#8, 0x00#8, 0x02#8, 0x83#8, 0x02#8] = .ok (.loadP [0x83#8, 0x02#8]) := by rfl
theorem test_decode_loadR : decode [0x41#8, 0x00#8, 0x00#8] = .ok (.loadR []) := by rfl
theorem test_decode_loadC : decode [0x42#8, 0x00#8, 0x01#8, 0x11#8] = .ok (.loadC [0x11#8]) := by rfl
theorem test_decode_loadT : decode [0x43#8, 0x00#8, 0x03#8, 0x01#8, 0x7E#8, 0x80#8] = .ok (.loadT [0x01#8, 0x7E#8, 0x80#8]) := by rfl

/-- V69: seven first bytes that are illegal. -/
theorem test_decode_illegal : ∀ b ∈ [0x00#8, 0x03#8, 0x14#8, 0x23#8, 0x33#8, 0x44#8, 0xFF#8],
    decode [b] = .error (.illegalOpcode b) := by decide +kernel
/-- R75, U12: what the command port does not deliver. -/
theorem test_decode_malformed : decode [] = .error .empty ∧ decode [0x02#8] = .error .cutShort ∧
    decode [0x40#8, 0x00#8, 0x02#8, 0x83#8] = .error .cutShort ∧ decode [0x20#8, 0x00#8] = .error .leftOver := by decide +kernel

/-- A table word: byte 0 in bits 7..0, the operand bytes counting on. -/
theorem test_table_word_mkctx : decodeTableWord 32 0x34121118 = some (.mkctxTcp 0x11#8 0x1234#16) := by decide +kernel
/-- A table word shorter than its command is followed by zeros: the count of a `LOAD` is 0. -/
theorem test_table_word_load : decodeTableWord 8 0x40 = some (.loadP []) ∧ decodeTableWord 24 0x020040 = some (.loadP [0, 0]) := by
  decide +kernel

/-! ### WellFormed: each check refuses an ill-formed term (R74: a count is 16 bits) -/

theorem countFits_replicate (n : Nat) : countFits (List.replicate n 0#8) = decide (n < 65536) := by
  rw [countFits, List.length_replicate]

theorem test_wellFormed_loadP : (Instr.loadP (List.replicate 65536 0#8)).wellFormed = false :=
  countFits_replicate 65536
theorem test_wellFormed_loadR : (Instr.loadR (List.replicate 65536 0#8)).wellFormed = false :=
  countFits_replicate 65536
theorem test_wellFormed_loadC : (Instr.loadC (List.replicate 65536 0#8)).wellFormed = false :=
  countFits_replicate 65536
theorem test_wellFormed_loadT : (Instr.loadT (List.replicate 65536 0#8)).wellFormed = false :=
  countFits_replicate 65536

/-! ### Small states -/

/-- One requester, with bank `b`, at the instant 1000, everything else as after reset at 9600 baud. -/
def one (b : Bank) : State := { State.resetAt 1 9600#32 1000 Env.quiet with banks := [b] }

/-- Requester 0, with bank `b`, holds the lock in the sequencer state `f` of the command `c`. -/
def holding (b : Bank) (c : Cur) (f : Fsm) : State := { one b with lock := .held 0, cur := c, fsm := f }

/-- `s` with the bytes `bs` standing at requester 0's port. -/
def asked (s : State) (bs : List Byte) : State := { s with env := { s.env with hosts := [[⟨none, bs⟩]] } }

/-- The bank of requester 0 after a command or a step. -/
def bankAfter : Result → Option Bank
  | .next t => t.banks[0]?
  | .fault _ => none
  | .refused _ => none

/-- A projection of the next state. -/
def after {α : Type} (f : State → α) : Result → Option α
  | .next t => some (f t)
  | .fault _ => none
  | .refused _ => none

/-- A bank after reset whose `RXBUF` holds `bs`. -/
def received (bs : List Byte) : Bank := { Bank.reset with rxbuf := bs }

/-- A bank after reset whose `TXBUF` holds `bs`. -/
def toSend (bs : List Byte) : Bank := { Bank.reset with txbuf := bs }

/-- `REQ` of the vectors. -/
def REQ : List Byte := [0x01, 0x03, 0x00, 0x00, 0x00, 0x02, 0xC4, 0x0B]

/-- The parameters of the vectors. -/
def params5 : Params := { tIchar := 5, backoffOnException := false, gapShortCheck := false }

/-! ### The instructions -/

/-- R94, V8. -/
theorem test_crcInit_sets : (bankAfter (exec .crcInit (one { Bank.reset with crc := 0#16 }))).map Bank.crc = some 0xFFFF#16 := by
  decide +kernel
/-- R94, R139: a fault before it is no longer in `FAULT`. -/
theorem test_crcInit_done : (bankAfter (exec .crcInit (one { Bank.reset with fault := .raised .refused }))).map
    (fun b => (b.status, b.fault)) = some (0#16, .none) := by decide +kernel
/-- V5: the first value. -/
theorem test_crcUpd_first : (bankAfter (exec (.crcUpd 0x01) (one Bank.reset))).map Bank.crc = some 0x807E#16 := by decide +kernel
/-- V5: the last value. -/
theorem test_crcUpd_continues :
    (bankAfter (exec (.crcUpd 0x0A) (one { Bank.reset with crc := 0x8419#16 }))).map Bank.crc = some 0xCDC5#16 := by decide +kernel
/-- V13. -/
theorem test_mkctxRtu : (bankAfter (exec (.mkctxRtu 0x11 0xBEEF) (one Bank.reset))).map (fun b => (b.ctx.bytes, b.ctxLen)) =
    some ([0x11, 0, 0, 0, 0, 0, 0], .rtu) := by decide +kernel
/-- V14, first row. -/
theorem test_encapRtu : (bankAfter (exec .encapRtu
    (one { Bank.reset with ctx := Ctx.ofUnit 0x01, ctxLen := .rtu, pbuf := [0x03, 0x00, 0x00, 0x00, 0x0A] }))).map Bank.txbuf =
    some [0x01, 0x03, 0x00, 0x00, 0x00, 0x0A, 0xC5, 0xCD] := by decide +kernel
/-- V17: refused right after reset. -/
theorem test_encapRtu_refused : (bankAfter (exec .encapRtu (one (toSend [0x07])))).map
    (fun b => (b.status, b.fault.bits, b.flog, b.txbuf)) = some (0x8000#16, 4#3, 0x10#8, [0x07]) := by decide +kernel
/-- V18, first row. -/
theorem test_decapRtu : (bankAfter (exec .decapRtu (one (received [0x01, 0x03, 0x00, 0x00, 0x00, 0x0A, 0xC5, 0xCD])))).map
    (fun b => (b.status, b.pbuf)) = some (0#16, [0x03, 0x00, 0x00, 0x00, 0x0A]) := by decide +kernel
/-- V19: check bytes swapped. -/
theorem test_decapRtu_crc : (bankAfter (exec .decapRtu (one (received [0x01, 0x03, 0x00, 0x00, 0x00, 0x0A, 0xCD, 0xC5])))).map
    (fun b => (b.status, b.plen, b.fault)) = some (0xFFFE#16, 0, .none) := by decide +kernel
/-- V18, third row. -/
theorem test_xctxRtu : (bankAfter (exec .xctxRtu (one (received [0x11, 0x83, 0x02, 0xC1, 0x34])))).map
    (fun b => (b.status, b.ctx.b0, b.ctxLen)) = some (0#16, 0x11, .rtu) := by decide +kernel
/-- V18, fifth row: the length guard comes before the CRC, which is zero here. -/
theorem test_xctxRtu_short : (bankAfter (exec .xctxRtu (one (received [0xFF, 0xFF])))).map
    (fun b => (b.status, b.ctxLen)) = some (0xFFFD#16, .none) := by decide +kernel
/-- V25. -/
theorem test_mkctxTcp : (bankAfter (exec (.mkctxTcp 0x11 0x1234) (one Bank.reset))).map (fun b => (b.ctx.bytes, b.ctxLen)) =
    some ([0x12, 0x34, 0, 0, 0, 0, 0x11], .tcp) := by decide +kernel
/-- V26, last row: the protocol id is copied as it is, the length field is computed. -/
theorem test_encapTcp : (bankAfter (exec .encapTcp
    (one { Bank.reset with ctx := ⟨0x12, 0x34, 0xAB, 0xCD, 0, 6, 0x11⟩, ctxLen := .tcp, pbuf := [0x03, 0x00] }))).map Bank.txbuf =
    some [0x12, 0x34, 0xAB, 0xCD, 0x00, 0x03, 0x11, 0x03, 0x00] := by decide +kernel
/-- V27: refused over an RTU context. -/
theorem test_encapTcp_refused : (bankAfter (exec .encapTcp (one { Bank.reset with ctxLen := .rtu }))).map
    (fun b => (b.status, b.fault.bits, b.flog, b.txlen)) = some (0x8000#16, 4#3, 0x10#8, 0) := by decide +kernel
/-- V28, first row. -/
theorem test_decapTcp : (bankAfter (exec .decapTcp
    (one (received [0x12, 0x34, 0x00, 0x00, 0x00, 0x06, 0x11, 0x03, 0x00, 0x6B, 0x00, 0x03])))).map (fun b => (b.status, b.pbuf)) =
    some (0#16, [0x03, 0x00, 0x6B, 0x00, 0x03]) := by decide +kernel
/-- V28, second row: the length field one too many. -/
theorem test_decapTcp_length : (bankAfter (exec .decapTcp
    (one (received [0x12, 0x34, 0x00, 0x00, 0x00, 0x07, 0x11, 0x03, 0x00, 0x6B, 0x00, 0x03])))).map
    (fun b => (b.status, b.fault.bits, b.flog, b.plen)) = some (0x8000#16, 1#3, 0x02#8, 0) := by decide +kernel
/-- V28, second row: `XCTX.TCP` does not look at the length field. -/
theorem test_xctxTcp : (bankAfter (exec .xctxTcp
    (one (received [0x12, 0x34, 0x00, 0x00, 0x00, 0x07, 0x11, 0x03, 0x00, 0x6B, 0x00, 0x03])))).map (fun b => (b.status, b.ctx.bytes)) =
    some (0#16, [0x12, 0x34, 0x00, 0x00, 0x00, 0x07, 0x11]) := by decide +kernel
/-- V28, fourth row: protocol id 1. -/
theorem test_xctxTcp_protocol : (bankAfter (exec .xctxTcp
    (one (received [0x12, 0x34, 0x00, 0x01, 0x00, 0x06, 0x11, 0x03, 0x00, 0x6B, 0x00, 0x03])))).map
    (fun b => (b.status, b.fault.bits, b.ctxLen)) = some (0x8000#16, 1#3, .none) := by decide +kernel
/-- R125: the grant of a `TX` enters the pacing wait. -/
theorem test_tx_granted : after (fun t => (t.lock, t.cur, t.fsm, t.serq)) (exec .tx { one (toSend REQ) with serq := [(0xDE, 7)] }) =
    some (.held 0, .tx, .pace, [(0xDE, 7)]) := by decide +kernel
/-- R128: the end of the write of a `TX`, whose frame may be empty (R120). -/
theorem test_tx_ends : after (fun t => (t.lock, t.fsm, t.serout, t.lastPoll)) (sequencerTurn params5 (holding (toSend REQ) .tx .send)) =
    some (.free, .idle, REQ, 1000) := by decide +kernel
/-- V61: the deadline of `RX 100, 9` granted at 1000; nothing is flushed, and `RXBUF` starts empty. -/
theorem test_rx_granted : after (fun t => (t.deadline, t.fsm, t.serq, t.banks.map Bank.rxcnt))
    (exec (.rx 100 9) { one (received [0x07]) with serq := [(0x01, 7)] }) = some (1100, .head, [(0x01, 7)], [0]) := by decide +kernel
/-- V61 (c): a timeout, without backoff. -/
theorem test_rx_timeout : after (fun t => (t.lock, t.lastPoll, t.banks.map Bank.status))
    (sequencerTurn params5 (holding Bank.reset .rx .head)) = some (.free, 1000, [0xFFFF#16]) := by decide +kernel
/-- V62. -/
theorem test_xchg_refused : after (fun t => (t.lock, t.now, t.banks.map fun b => (b.status, b.fault.bits, b.flog)))
    (exec (.xchg 100 9) (one Bank.reset)) = some (.free, 1000, [(0x8000#16, 4#3, 0x10#8)]) := by decide +kernel
/-- V38: the fifth byte of an exception frame ends the exchange with its code, the backoff not added. -/
theorem test_xchg_exception : after (fun t => (t.lock, t.lastPoll, t.banks.map fun b => (b.status, b.rxcnt))) (sequencerTurn params5
    { holding (received [0x01, 0x83, 0x02, 0xC0]) .xchg .head with serq := [(0xF1, 1000)], explen := 9, tmo := 100 }) =
    some (.free, 1000, [(2#16, 5)]) := by decide +kernel
/-- V63. -/
theorem test_setbaud : after State.baud (exec (.setbaud 38400) (one Bank.reset)) = some 38400#32 := by decide +kernel
/-- V63: 115200 is not on the list. -/
theorem test_setbaud_illegal : after (fun t => (t.baud, t.lock, t.banks.map fun b => (b.status, b.fault.bits, b.flog)))
    (exec (.setbaud 115200) (one Bank.reset)) = some (9600#32, .free, [(0x8000#16, 3#3, 0x08#8)]) := by decide +kernel
/-- V64. -/
theorem test_setpoll : after (fun t => (t.delayPoll, t.delayErr)) (exec (.setpoll 50) (one Bank.reset)) = some (50#32, 200#32) := by
  decide +kernel
/-- V64. -/
theorem test_seterr : after (fun t => (t.delayPoll, t.delayErr)) (exec (.seterr 500) (one Bank.reset)) = some (20#32, 500#32) := by
  decide +kernel
/-- V66. -/
theorem test_loadP : (bankAfter (exec (.loadP [0x03, 0x00, 0x00, 0x00, 0x0A]) (one Bank.reset))).map Bank.plen = some 5 := by
  decide +kernel
/-- V66: 254 bytes. -/
theorem test_loadP_refused : (bankAfter (exec (.loadP (List.replicate 254 0x55)) (one { Bank.reset with pbuf := [0x07] }))).map
    (fun b => (b.fault.bits, b.pbuf)) = some (4#3, [0x07]) := by decide +kernel
/-- V67: 260 bytes. -/
theorem test_loadR : (bankAfter (exec (.loadR (List.replicate 260 0x55)) (one Bank.reset))).map Bank.rxcnt = some 260 := by
  decide +kernel
/-- V67: 261 bytes. -/
theorem test_loadR_refused : (bankAfter (exec (.loadR (List.replicate 261 0x55)) (one Bank.reset))).map
    (fun b => (b.fault.bits, b.rxcnt)) = some (4#3, 0) := by decide +kernel
/-- V68. -/
theorem test_loadC : (bankAfter (exec (.loadC [0x11]) (one { Bank.reset with ctx := ⟨1, 2, 3, 4, 5, 6, 7⟩ }))).map
    (fun b => (b.ctx.bytes, b.ctxLen)) = some ([0x11, 0, 0, 0, 0, 0, 0], .rtu) := by decide +kernel
/-- V68: two bytes. -/
theorem test_loadC_refused : (bankAfter (exec (.loadC [0x12, 0x34]) (one { Bank.reset with ctx := ⟨1, 2, 3, 4, 5, 6, 7⟩ }))).map
    (fun b => (b.fault.bits, b.ctx.bytes)) = some (4#3, [1, 2, 3, 4, 5, 6, 7]) := by decide +kernel
/-- V67. -/
theorem test_loadT : (bankAfter (exec (.loadT REQ) (one Bank.reset))).map Bank.txlen = some 8 := by decide +kernel

/-! ### Steps from reset -/

/-- The first step after reset runs the command that stands at the port: `CRC.UPD 0x01`. -/
theorem test_step_runs_the_word : after (fun t => (t.banks.getD 0 Bank.reset).crc) (step (State.reset.withFetchWord 16 0x0102)) =
    some 0x807E#16 := by rfl
/-- A lock-taking command is granted at once: `RX 0, 0`. -/
theorem test_step_grants_the_word : after (fun t => (t.lock, t.fsm)) (step (State.reset.withFetchWord 56 0x21)) =
    some (.held 0, .head) := by rfl

/-! ### Witnesses: for every statement with hypotheses, states and operands that meet them, each clause at its boundary -/

/-- A requester whose command is accepted: the hypotheses of the statements on `CRC.INIT`, `CRC.UPD`, `MKCTX` and the free-lock clauses of
the `SET` commands. -/
theorem witness_ready : (one Bank.reset).ready Bank.reset ∧ (one Bank.reset).lock = .free ∧ (one Bank.reset).fsm = .idle := by decide

/-- Two requesters: requester 1 holds the lock, and requester 0's command is accepted. -/
def two : State :=
  { State.resetAt 2 9600#32 1000 Env.quiet with lock := .held 1, cur := .rx, fsm := .head, deadline := 1100 }

theorem witness_waits : two.ready Bank.reset ∧ two.lock ≠ .free := by decide

/-- `FSM` not `IDLE` while the lock is free: no run reaches it, the hypothesis of the waiting clauses allows it. -/
theorem witness_waits_fsm : { one Bank.reset with fsm := .pace }.ready Bank.reset ∧ { one Bank.reset with fsm := .pace }.fsm ≠ .idle := by
  decide

/-- Only requester 0 acts, in every state that is made from `one` and gives only it a command. -/
theorem witness_quiet (b : Bank) (bs : List Byte) : quietBut (asked (one b) bs) 0 := by
  refine ⟨rfl, fun q hq => ?_⟩
  cases q with
  | zero => exact absurd rfl hq
  | succ q => rfl

theorem witness_CrcUnitLaws : crc16 [0xFF#8, 0xFF#8] = 0#16 ∧ [0x01#8].length = [0x02#8].length ∧ [0x02#8].length = [0x03#8].length := by
  decide +kernel

/-- V7, the last bit of the last byte and the first of the first. -/
theorem witness_CrcDetectsSingleBitError :
    crc16 ([] ++ 0x01#8 :: [0x7E#8, 0x80#8]) = 0#16 ∧ crc16 ([0x01#8, 0x7E#8] ++ 0x80#8 :: []) = 0#16 ∧ 0 < 8 ∧ 7 < 8 := by
  decide +kernel

theorem witness_EncapRtuAppendsTheCrc :
    (∃ b, (one b).ready b ∧ b.ctxLen = .rtu) ∧ (∃ b, (one b).ready b ∧ b.ctxLen = .none) ∧ (∃ b, (one b).ready b ∧ b.ctxLen = .tcp) :=
  ⟨⟨{ Bank.reset with ctxLen := .rtu }, by decide⟩, ⟨Bank.reset, by decide⟩, ⟨{ Bank.reset with ctxLen := .tcp }, by decide⟩⟩

/-- `FF FF` and `n` zeros, a frame with residue 0 (V10). -/
def zeros (n : Nat) : List Byte := 0xFF :: 0xFF :: List.replicate n 0

theorem crcRun_zeros (n : Nat) : crcRun 0#16 (List.replicate n 0) = 0#16 := by
  induction n with
  | zero => rfl
  | succ n ih => exact ih

theorem crc16_zeros (n : Nat) : crc16 (zeros n) = 0#16 := crcRun_zeros n

/-- V10: a `01` after them leaves 0xC0C1. -/
theorem crc16_zeros_one (n : Nat) : crc16 (zeros n ++ [0x01]) = 0xC0C1#16 := by
  rw [crc16_append, crc16_zeros]
  decide

/-- Lengths 2 and 257; 3 and 256 with a CRC that is not 0; 3 and 256 with CRC 0. Also those of `XCTX.RTU`. -/
theorem witness_DecapRtuChecksThenUnwraps :
    (∃ b, (one b).ready b ∧ b.rxbuf.length = 2) ∧
    (∃ b, (one b).ready b ∧ b.rxbuf.length = 257) ∧
    (∃ b, (one b).ready b ∧ b.rxbuf.length = 3 ∧ crc16 b.rxbuf ≠ 0#16) ∧
    (∃ b, (one b).ready b ∧ b.rxbuf.length = 256 ∧ crc16 b.rxbuf ≠ 0#16) ∧
    (∃ b, (one b).ready b ∧ b.rxbuf.length = 3 ∧ crc16 b.rxbuf = 0#16) ∧
    (∃ b, (one b).ready b ∧ b.rxbuf.length = 256 ∧ crc16 b.rxbuf = 0#16) :=
  ⟨⟨received [0x01, 0x7E], by decide +kernel⟩, ⟨received (List.replicate 257 0x55), by decide +kernel⟩,
    ⟨received [0x01, 0x7E, 0x81], by decide +kernel⟩,
    ⟨received (zeros 253 ++ [0x01]), ⟨rfl, by decide⟩, by decide +kernel, by rw [received, crc16_zeros_one]; decide⟩,
    ⟨received [0x01, 0x7E, 0x80], by decide +kernel⟩,
    ⟨received (zeros 254), ⟨rfl, by decide⟩, by decide +kernel, crc16_zeros 254⟩⟩

theorem witness_ExtractContextRtuTakesTheUnit :
    (one (received [0x01, 0x7E, 0x80])).ready (received [0x01, 0x7E, 0x80]) ∧
      (received [0x01, 0x7E, 0x80]).rxbuf = 0x01 :: [0x7E, 0x80] ∧ crc16 [0x01, 0x7E, 0x80] = 0#16 := by decide +kernel

/-- The greatest PDU; the least is the empty one. -/
theorem witness_round_trips : (one Bank.reset).ready Bank.reset ∧ (List.replicate 253 0x07#8).length ≤ 253 ∧ ([] : List Byte).length ≤ 253 := by
  decide +kernel

theorem witness_EncapTcpWritesTheLength :
    (∃ b, (one b).ready b ∧ b.ctxLen = .tcp) ∧ (∃ b, (one b).ready b ∧ b.ctxLen ≠ .tcp) :=
  ⟨⟨{ Bank.reset with ctxLen := .tcp }, by decide⟩, ⟨Bank.reset, by decide⟩⟩

/-- Lengths 6 and 7; at length 7 a length field that is right and one that is wrong. -/
theorem witness_DecapTcpChecksTheLength :
    (∃ b, (one b).ready b ∧ b.rxbuf.length = 6) ∧
    (∃ b, (one b).ready b ∧ b.rxbuf = [0, 0, 0, 0, 0x00, 0x02, 0x01] ++ [] ∧ 256 * (0x00#8).toNat + (0x02#8).toNat ≠ b.rxbuf.length - 6) ∧
    (∃ b, (one b).ready b ∧ b.rxbuf = [0, 0, 0, 0, 0x00, 0x01, 0x01] ++ [] ∧ 256 * (0x00#8).toNat + (0x01#8).toNat = b.rxbuf.length - 6) :=
  ⟨⟨received [0, 0, 0, 0, 0, 1], by decide⟩, ⟨received [0, 0, 0, 0, 0, 2, 1], by decide⟩, ⟨received [0, 0, 0, 0, 0, 1, 1], by decide⟩⟩

/-- Length 6; protocol ids 1, 256 and 0. -/
theorem witness_ExtractContextTcpChecksTheProtocol :
    (∃ b, (one b).ready b ∧ b.rxbuf.length = 6) ∧
    (∃ b, (one b).ready b ∧ b.rxbuf = [0, 0, 0x00, 0x01, 0, 1, 1] ++ [] ∧ 256 * (0x00#8).toNat + (0x01#8).toNat ≠ 0) ∧
    (∃ b, (one b).ready b ∧ b.rxbuf = [0, 0, 0x01, 0x00, 0, 1, 1] ++ [] ∧ 256 * (0x01#8).toNat + (0x00#8).toNat ≠ 0) ∧
    (∃ b, (one b).ready b ∧ b.rxbuf = [0, 0, 0x00, 0x00, 0, 1, 1] ++ [] ∧ 256 * (0x00#8).toNat + (0x00#8).toNat = 0) :=
  ⟨⟨received [0, 0, 0, 0, 0, 1], by decide⟩, ⟨received [0, 0, 0, 1, 0, 1, 1], by decide⟩,
    ⟨received [0, 0, 1, 0, 0, 1, 1], by decide⟩, ⟨received [0, 0, 0, 0, 0, 1, 1], by decide⟩⟩

theorem witness_CodecCommandsAreIdempotent :
    Instr.encapRtu.opcode ∈ [Opcode.mkctxRtu, .encapRtu, .decapRtu, .xctxRtu, .mkctxTcp, .encapTcp, .decapTcp, .xctxTcp] ∧
      (one Bank.reset).ready Bank.reset := by decide

/-- The counts where a `LOAD` is just accepted and just refused. -/
theorem witness_LoadsFillTheirBuffer : (one Bank.reset).ready Bank.reset ∧
    (List.replicate 253 0#8).length ≤ 253 ∧ 253 < (List.replicate 254 0#8).length ∧
    (List.replicate 260 0#8).length ≤ 260 ∧ 260 < (List.replicate 261 0#8).length := by decide +kernel

theorem witness_LoadContextTakesOneOrSevenBytes : (one Bank.reset).ready Bank.reset ∧
    ∀ n ∈ [0, 2, 6, 8], (List.replicate n 0#8).length ≠ 1 ∧ (List.replicate n 0#8).length ≠ 7 := by decide

theorem witness_SetBaudAcceptsTheAllowList :
    (one Bank.reset).ready Bank.reset ∧ (one Bank.reset).lock = .free ∧ (one Bank.reset).fsm = .idle ∧
    115200#32 ≠ 9600#32 ∧ 115200#32 ≠ 19200#32 ∧ 115200#32 ≠ 38400#32 ∧ two.ready Bank.reset ∧ two.lock ≠ .free := by decide

theorem witness_SetCommandsRunUnderTheLock :
    (Instr.setpoll 50#32).opcode ∈ [Opcode.setbaud, .setpoll, .seterr] ∧ (one Bank.reset).ready Bank.reset ∧
    two.ready Bank.reset ∧ two.lock ≠ .free ∧ two.lock = .held 1 ∧ nextTurn two ≠ .reset ∧ ∃ t, step two = .next t :=
  ⟨by decide, by decide, by decide, by decide, rfl, by decide, _, rfl⟩

/-- Every command that can be refused. -/
theorem witness_RefusalChangesOnlyTheVerdict : (one Bank.reset).ready Bank.reset ∧
    ∀ i ∈ [Instr.encapRtu, .encapTcp, .xchg 100#32 9#16, .loadP (List.replicate 254 0), .loadR (List.replicate 261 0),
      .loadT (List.replicate 261 0), .loadC []], refusedBy i Bank.reset = true := by decide +kernel

theorem witness_LockTakingCommandsWait : two.ready Bank.reset ∧ two.lock ≠ .free ∧
    { two with banks := [toSend REQ, Bank.reset] }.ready (toSend REQ) ∧
    (∀ i ∈ [Instr.tx, .rx 100#32 9#16, .setbaud 0#32, .setpoll 0#32, .seterr 0#32], takesLock i = true ∧ refusedBy i Bank.reset = false) ∧
    takesLock (.xchg 100#32 9#16) = true ∧ refusedBy (.xchg 100#32 9#16) (toSend REQ) = false := by decide

/-! The transport: a requester alone with the line. -/

theorem witness_TxRunsToItsEnd : (asked (one (toSend REQ)) [0x20]).ready (toSend REQ) ∧ (asked (one (toSend REQ)) [0x20]).lock = .free ∧
    (asked (one (toSend REQ)) [0x20]).fsm = .idle ∧ quietBut (asked (one (toSend REQ)) [0x20]) (asked (one (toSend REQ)) [0x20]).active :=
  ⟨by decide, rfl, rfl, witness_quiet _ _⟩

theorem witness_RxRunsToItsEnd : (asked (one Bank.reset) (encode (.rx 100 9))).ready Bank.reset ∧
    (asked (one Bank.reset) (encode (.rx 100 9))).lock = .free ∧ (asked (one Bank.reset) (encode (.rx 100 9))).fsm = .idle ∧
    quietBut (asked (one Bank.reset) (encode (.rx 100 9))) 0 :=
  ⟨by decide, rfl, rfl, witness_quiet _ _⟩

/-- A frame for unit 1, a broadcast frame, and the empty frame of a refused `XCHG`. -/
theorem witness_XchgRunsToItsEnd :
    (asked (one (toSend REQ)) (encode (.xchg 100 9))).ready (toSend REQ) ∧ (toSend REQ).txbuf = 0x01 :: REQ.tail ∧
    (asked (one (toSend [0x00])) (encode (.xchg 100 9))).ready (toSend [0x00]) ∧ (toSend [0x00]).txbuf = 0x00 :: [] ∧
    (one Bank.reset).ready Bank.reset ∧ Bank.reset.txbuf = [] ∧
    (asked (one (toSend REQ)) (encode (.xchg 100 9))).lock = .free ∧ (asked (one (toSend REQ)) (encode (.xchg 100 9))).fsm = .idle ∧
    quietBut (asked (one (toSend REQ)) (encode (.xchg 100 9))) 0 ∧ quietBut (asked (one (toSend [0x00])) (encode (.xchg 100 9))) 0 :=
  ⟨by decide, rfl, by decide, rfl, by decide, rfl, rfl, rfl, witness_quiet _ _, witness_quiet _ _⟩

theorem witness_SequencerRefinesBlockingReads :
    let s := { holding Bank.reset .rx .head with tmo := 100#32, explen := 9#16, deadline := 1100, env := (asked (one Bank.reset) [0x20]).env }
    s.lock = .held 0 ∧ s.banks[0]? = some Bank.reset ∧ (s.cur = .rx ∨ s.cur = .xchg) ∧ s.fsm = .head ∧ Bank.reset.rxbuf = [] ∧
      s.deadline = s.now + s.tmo.toNat ∧ quietBut s 0 :=
  ⟨rfl, rfl, .inl rfl, rfl, rfl, rfl, (witness_quiet Bank.reset [0x20]).1, (witness_quiet Bank.reset [0x20]).2⟩

/-- One millisecond before the pacing delay of 20 is over, and at it. -/
theorem witness_PacingEndsWithAFlush :
    (∃ s : State, s.lock = .held 0 ∧ s.banks[0]? = some (toSend REQ) ∧ s.fsm = .pace ∧ s.now + 1 = s.lastPoll + s.delayPoll.toNat) ∧
    (∃ s : State, s.lock = .held 0 ∧ s.banks[0]? = some (toSend REQ) ∧ s.fsm = .pace ∧ s.lastPoll + s.delayPoll.toNat = s.now ∧
      nextTurn s = .sequencer) :=
  ⟨⟨{ holding (toSend REQ) .tx .pace with lastPoll := 981 }, by decide⟩,
    ⟨{ holding (toSend REQ) .tx .pace with lastPoll := 980 }, by decide⟩⟩

/-- One millisecond before the write's end; at it, for a `TX`, an `XCHG` and a broadcast `XCHG`. -/
theorem witness_WriteEndsAsItsCommandSays :
    (∃ s : State, s.lock = .held 0 ∧ s.banks[0]? = some (toSend REQ) ∧ s.fsm = .send ∧ s.now + 1 = s.sendEnd) ∧
    (∃ s : State, s.lock = .held 0 ∧ s.banks[0]? = some (toSend REQ) ∧ s.fsm = .send ∧ s.sendEnd = s.now ∧ nextTurn s = .sequencer ∧
      s.cur = .tx) ∧
    (∃ s : State, s.lock = .held 0 ∧ s.banks[0]? = some (toSend REQ) ∧ s.fsm = .send ∧ nextTurn s = .sequencer ∧ s.cur = .xchg) ∧
    (∃ s : State, s.lock = .held 0 ∧ s.banks[0]? = some (toSend [0x00]) ∧ s.fsm = .send ∧ nextTurn s = .sequencer ∧ s.cur = .xchg) :=
  ⟨⟨{ holding (toSend REQ) .tx .send with sendEnd := 1001 }, by decide⟩,
    ⟨{ holding (toSend REQ) .tx .send with sendEnd := 1000 }, by decide⟩,
    ⟨holding (toSend REQ) .xchg .send, by decide⟩, ⟨holding (toSend [0x00]) .xchg .send, by decide⟩⟩

/-- Requester 0 receives: `bs` are in `RXBUF`, `q` is queued, and `e` bytes are expected. -/
def receiving (f : Fsm) (bs : List Byte) (q : List (Byte × Nat)) (e : Half) : State :=
  { holding (received bs) .rx f with serq := q, explen := e, tmo := 100, deadline := 1000 }

/-- The hypotheses that the three receive states share. -/
theorem witness_receiving (f : Fsm) (bs : List Byte) (q : List (Byte × Nat)) (e : Half) :
    (receiving f bs q e).lock = .held 0 ∧ (receiving f bs q e).banks[0]? = some (received bs) ∧ (receiving f bs q e).fsm = f ∧
      (receiving f bs q e).serq = q ∧ (receiving f bs q e).explen = e ∧ (received bs).rxbuf = bs :=
  ⟨rfl, rfl, rfl, rfl, rfl, rfl⟩

/-- Nothing queued at the deadline; the fourth byte; the fifth byte: with CRC 0, with another CRC and 5 or 6 bytes expected, and in
unknown-length mode. -/
theorem witness_HeadChunkTakesFiveBytes :
    nextTurn (receiving .head [1, 2, 3, 4] [] 9) = .sequencer ∧
    nextTurn (receiving .head [1, 2, 3] [(4, 7)] 9) = .sequencer ∧ [1#8, 2#8, 3#8].length < 4 ∧
    nextTurn (receiving .head [0x01, 0x83, 0x02, 0xC0] [(0xF1, 7)] 1) = .sequencer ∧ crc16 [0x01, 0x83, 0x02, 0xC0, 0xF1] = 0#16 ∧
    nextTurn (receiving .head [1, 2, 3, 4] [(5, 7)] 5) = .sequencer ∧
    nextTurn (receiving .head [1, 2, 3, 4] [(5, 7)] 6) = .sequencer ∧ crc16 [1, 2, 3, 4, 5] ≠ 0#16 ∧
    nextTurn (receiving .head [1, 2, 3, 4] [(5, 7)] 0) = .sequencer ∧ params5.gapShortCheck = false := by decide +kernel

/-- Nothing queued at the deadline; the sixth of six bytes; the sixth of seven; the 257th of 300. -/
theorem witness_RemainderStopsAtTheExpectedCount :
    nextTurn (receiving .bodyLen [1, 2, 3, 4, 5] [] 6) = .sequencer ∧
    nextTurn (receiving .bodyLen [1, 2, 3, 4, 5] [(6, 7)] 6) = .sequencer ∧ [1#8, 2#8, 3#8, 4#8, 5#8, 6#8].length = min (6#16).toNat 257 ∧
    nextTurn (receiving .bodyLen [1, 2, 3, 4, 5] [(6, 7)] 7) = .sequencer ∧ [1#8, 2#8, 3#8, 4#8, 5#8, 6#8].length ≠ min (7#16).toNat 257 ∧
    nextTurn (receiving .bodyLen (List.replicate 256 0x55) [(6, 7)] 300) = .sequencer ∧
    (List.replicate 256 0x55#8 ++ [0x06#8]).length = min (300#16).toNat 257 := by decide +kernel

/-- Nothing queued at the deadline; the 256th byte; the 257th. -/
theorem witness_GapLoopEndsBySilenceOrOverflow :
    nextTurn (receiving .bodyGap [1, 2, 3, 4, 5] [] 0) = .sequencer ∧
    nextTurn (receiving .bodyGap (List.replicate 255 0x55) [(6, 7)] 0) = .sequencer ∧ (List.replicate 255 0x55#8 ++ [0x06#8]).length ≤ 256 ∧
    nextTurn (receiving .bodyGap (List.replicate 256 0x55) [(6, 7)] 0) = .sequencer ∧ 256 < (List.replicate 256 0x55#8 ++ [0x06#8]).length := by
  decide +kernel

/-- Lengths 4 and 257; 5 and 256 with a CRC that is not 0; 5 and 256 with CRC 0; an exception bit and none. -/
theorem witness_ValidateOrdersItsTests :
    [1#8, 2#8, 3#8, 4#8].length < 5 ∧ 256 < (List.replicate 257 0x55#8).length ∧
    crc16 [1, 2, 3, 4, 5] ≠ 0#16 ∧ ((zeros 253 ++ [0x01]).length = 256 ∧ crc16 (zeros 253 ++ [0x01]) ≠ 0#16) ∧
    crc16 [0x01, 0x83, 0x02, 0xC0, 0xF1] = 0#16 ∧ ((zeros 254).length = 256 ∧ crc16 (zeros 254) = 0#16) ∧
    (0x83#8).getLsbD 7 = true ∧ (0x7F#8).getLsbD 7 = false :=
  ⟨by decide, by decide +kernel, by decide +kernel, ⟨by decide +kernel, by rw [crc16_zeros_one]; decide⟩, by decide +kernel,
    ⟨by decide +kernel, crc16_zeros 254⟩, by decide, by decide⟩

/-! The encoding and the whole machine. -/

theorem witness_DecodeEncodeRoundTrip : (Instr.rx 100#32 9#16).wellFormed = true ∧ (Instr.loadP (List.replicate 65535 0#8)).wellFormed = true :=
  ⟨rfl, countFits_replicate 65535⟩

theorem witness_DecodedBytesAreTheEncoding : decode [0x42#8, 0x00#8, 0x01#8, 0x11#8] = .ok (.loadC [0x11#8]) := by rfl

theorem witness_IllegalCommandEndsFatally :
    nextTurn (asked (one Bank.reset) [0x03]) = .command 0 ∧ (asked (one Bank.reset) [0x03]).env.hosts.getD 0 [] = ⟨none, 0x03 :: []⟩ :: [] ∧
    ((asked (one Bank.reset) [0x03]).select 0).ready Bank.reset := by decide +kernel

/-- Requester 0 asks for an `XCHG`, and the arbiter chooses it. -/
def contending : State :=
  { one (toSend REQ) with env := { Env.quiet with hosts := [[⟨none, encode (.xchg 100 9)⟩]], grants := [some 0] } }

theorem witness_StepRunsTheDecodedCommand :
    (nextTurn (asked (one Bank.reset) [0x01]) = .command 0 ∧ decode [0x01] = .ok .crcInit) ∧
    (nextTurn contending = .grant 0 ∧ contending.env.hosts.getD 0 [] = ⟨none, encode (.xchg 100 9)⟩ :: [] ∧
      decode (encode (.xchg 100 9)) = .ok (.xchg 100 9)) :=
  ⟨⟨by decide +kernel, rfl⟩, by decide +kernel, rfl, rfl⟩

/-- A grant of each of the three transport commands. -/
theorem witness_GrantStartsTheCommand : nextTurn contending = .grant 0 ∧
    nextTurn { contending with env := { contending.env with hosts := [[⟨none, encode .tx⟩]] } } = .grant 0 ∧
    nextTurn { contending with env := { contending.env with hosts := [[⟨none, encode (.rx 100 9)⟩]] } } = .grant 0 := by decide +kernel

/-- A lock-free command, and an `XCHG` that will be refused. -/
theorem witness_UngrantedCommandsTakeNoLock :
    nextTurn (asked (one Bank.reset) [0x11]) = .command 0 ∧
    nextTurn (asked (one Bank.reset) (encode (.xchg 100 9))) = .command 0 ∧
    portCommand (asked (one Bank.reset) (encode (.xchg 100 9))) 0 = .ok (.xchg 100 9) ∧
    (asked (one Bank.reset) (encode (.xchg 100 9))).banks[0]? = some Bank.reset :=
  ⟨by decide +kernel, by decide +kernel, rfl, rfl⟩

theorem witness_PortAcceptsOneCommandAtATime :
    (holding Bank.reset .rx .head).banks[(holding Bank.reset .rx .head).active]? = some Bank.reset ∧
    (holding Bank.reset .rx .head).lock = .held (holding Bank.reset .rx .head).active ∧
    ((one Bank.reset).select 1).banks[((one Bank.reset).select 1).active]? = none := by decide

/-- States that meet the invariant and answer a next state, one for each kind of turn. -/
theorem witness_StepKeepsTheInvariant :
    (∃ s t, s.inv = true ∧ nextTurn s = .reset ∧ step s = .next t) ∧
    (∃ s t, s.inv = true ∧ nextTurn s = .command 0 ∧ step s = .next t) ∧
    (∃ s t, s.inv = true ∧ nextTurn s = .grant 0 ∧ step s = .next t) ∧
    (∃ s t, s.inv = true ∧ nextTurn s = .line ∧ step s = .next t) ∧
    (∃ s t, s.inv = true ∧ nextTurn s = .sequencer ∧ step s = .next t) ∧
    (∃ s t, s.inv = true ∧ nextTurn s = .tick ∧ step s = .next t) :=
  ⟨⟨{ holding Bank.reset .rx .head with env := { Env.quiet with resets := [1000] } }, _, by decide, by decide, rfl⟩,
    ⟨asked (one Bank.reset) [0x01], _, by decide, by decide +kernel, rfl⟩,
    ⟨contending, _, by decide, by decide +kernel, rfl⟩,
    ⟨{ one Bank.reset with env := { Env.quiet with line := [(1000, 0x55)] } }, _, by decide, by decide, rfl⟩,
    ⟨holding Bank.reset .rx .head, _, by decide, by decide, rfl⟩,
    ⟨one Bank.reset, _, by decide, by decide, rfl⟩⟩

/-- A command cut short is refused; any other is not. -/
theorem witness_StepNeverFaults : (asked (one Bank.reset) [0x02]).inv = true ∧
    step (asked (one Bank.reset) [0x02]) = .refused .malformedCommand := ⟨by decide, by rfl⟩

/-- Requester 1's bank, while requester 0's command runs; while requester 0's sequencer does. -/
theorem witness_BanksArePrivate :
    (∃ t, exec .crcInit { two with lock := .free } = .next t) ∧ 1 ≠ { two with lock := .free }.active ∧
    (∃ t, step { two with lock := .held 0 } = .next t) ∧ nextTurn { two with lock := .held 0 } ≠ .reset ∧
      { two with lock := .held 0 }.lock ≠ .held 1 ∧ nextTurn { two with lock := .held 0 } ≠ .command 1 ∧
      nextTurn { two with lock := .held 0 } ≠ .grant 1 :=
  ⟨⟨_, rfl⟩, by decide, ⟨_, rfl⟩, by decide, by decide, by decide, by decide⟩

/-- Each of the three outcomes of a command, and the two of the sequencer. -/
theorem witness_BanksAreNotReadByOthers :
    1 ≠ two.active ∧ (∃ t, exec .crcInit two = .next t) ∧
    2 ≠ (two.select 5).active ∧ exec .crcInit (two.select 5) = .fault .noSuchRequester ∧
    0 ≠ (two.select 1).active ∧ exec .crcInit (two.select 1) = .refused .commandInProgress ∧
    two.lock ≠ .held 0 ∧ (∃ t, sequencerTurn params5 two = .next t) ∧
    (one Bank.reset).lock ≠ .held 0 ∧ sequencerTurn params5 (one Bank.reset) = .fault .sequencerInconsistent :=
  ⟨by decide, ⟨_, rfl⟩, by decide, rfl, by decide, rfl, by decide, ⟨_, rfl⟩, by decide, rfl⟩

/-- Requester 1 holds the lock and waits; requester 0's lock-free command runs, a byte arrives, or time passes. A byte arrives in `IDLE`. -/
theorem witness_LockExcludesOtherCommands :
    (two.lock = .held 1 ∧ nextTurn two = .tick ∧ ∃ t, step two = .next t) ∧
    (nextTurn (asked two [0x01]) = .command 0 ∧ ∃ t, step (asked two [0x01]) = .next t) ∧
    (nextTurn { two with env := { Env.quiet with line := [(0, 0x55)] } } = .line ∧
      ∃ t, step { two with env := { Env.quiet with line := [(0, 0x55)] } } = .next t) ∧
    nextTurn { one Bank.reset with env := { Env.quiet with line := [(1000, 0x55)] } } = .line :=
  ⟨⟨rfl, by decide, _, rfl⟩, ⟨by decide +kernel, _, rfl⟩, ⟨by decide, _, rfl⟩, by decide⟩

/-- The end of a write, the completion of an `XCHG` with a failure, and a reset. -/
theorem witness_LastPollHasTwoWriters :
    (∃ t, step { holding (toSend REQ) .tx .send with lastPoll := 7 } = .next t ∧ t.lastPoll ≠ 7) ∧
    (∃ t, step { holding (toSend REQ) .xchg .head with lastPoll := 7 } = .next t ∧ t.lastPoll ≠ 7) ∧
    (∃ t, step { one Bank.reset with lastPoll := 7, env := { Env.quiet with resets := [1000] } } = .next t ∧ t.lastPoll ≠ 7) :=
  ⟨⟨_, rfl, by decide⟩, ⟨_, rfl, by decide +kernel⟩, _, rfl, by decide⟩

theorem witness_TimeOnlyMovesByTicks : (nextTurn (one Bank.reset) = .tick ∧ ∃ t, step (one Bank.reset) = .next t) ∧
    (nextTurn (asked (one Bank.reset) [0x01]) ≠ .tick ∧ ∃ t, step (asked (one Bank.reset) [0x01]) = .next t) :=
  ⟨⟨by decide, _, rfl⟩, by decide +kernel, _, rfl⟩

theorem witness_OutputGrowsByWholeFrames : nextTurn (holding (toSend REQ) .tx .send) = .sequencer ∧
    ∃ t, step (holding (toSend REQ) .tx .send) = .next t ∧ t.serout = REQ := ⟨by decide, _, rfl, rfl⟩

theorem witness_FaultLogIsSticky : nextTurn (asked (one { Bank.reset with flog := 0x10 }) [0x01]) ≠ .reset ∧
    (∃ t, step (asked (one { Bank.reset with flog := 0x10 }) [0x01]) = .next t) ∧ (0x10#8).getLsbD 4 = true :=
  ⟨by decide +kernel, ⟨_, rfl⟩, by decide⟩

/-- With an `XCHG` in progress and its requester's next command not yet issued. -/
theorem witness_ResetAbandonsEverything :
    nextTurn { holding (toSend REQ) .xchg .head with
      env := { Env.quiet with resets := [1000], hosts := [[⟨none, encode (.xchg 100 9)⟩, ⟨some 1001, [0x01]⟩]] } } = .reset := by decide

/-- The lock's owner; a requester whose `RX` waits for the lock; one whose `CRC.INIT` is issued at this instant; a stream that is empty, and
one whose first command is issued a millisecond later. -/
theorem witness_HostReadsOnlyBetweenCommands : (holding Bank.reset .rx .head).lock = .held 0 ∧
    waiting (asked two (encode (.rx 100 9))) 0 ((asked two (encode (.rx 100 9))).env.hosts.getD 0 []) = true ∧
    ((asked (one Bank.reset) [0x01]).env.hosts.getD 0 [] = ⟨none, [0x01]⟩ :: [] ∧ issued 1000 ⟨none, [0x01]⟩ = true ∧
      issued 1000 ⟨some 1000, [0x01]⟩ = true) ∧
    (one Bank.reset).banks[0]? = some Bank.reset ∧ (one Bank.reset).lock ≠ .held 0 ∧
    (∀ c ∈ ((one Bank.reset).env.hosts.getD 0 []).head?, issued 1000 c = false) ∧
    (∀ c ∈ ([⟨some 1001, [0x01]⟩] : List Issue).head?, issued 1000 c = false) := by decide +kernel

/-- R42, log 26: a command that is issued, of either kind, hides its requester's bank. -/
theorem test_host_reads : hostReadsBank (asked (one Bank.reset) [0x01]) 0 = none ∧
    hostReadsBank (asked two (encode (.rx 100 9))) 0 = none ∧ hostReadsBank (one Bank.reset) 0 = some Bank.reset := by decide +kernel

/-- R38, log 28: the bytes of `CTX` read as 0 after reset, although `CTXLEN` is 0. -/
theorem test_host_reads_ctx : hostReadsCtx (one Bank.reset) 0 6 = some 0 ∧ hostReadsCtx (one Bank.reset) 0 7 = none := by decide +kernel

end Sys2Proof.Tests
end

/-!
PROOFS. The state and its invariant (`10_state.md`). First the predicate `State.inv` taken apart, then each shared operation keeps it, then
commands, transitions of the sequencer and steps, by the inversions `exec_next`, `sequencerTurn_next` and `step_next`.
-/

namespace Sys2Proof.Machine

/-! ### The invariant taken apart -/

theorem inv_iff {s : State} :
    s.inv = true ↔ s.banks.all Bank.wf = true ∧ baudLegal s.baud = true ∧ lockLegal s = true := by
  simp only [State.inv, Bool.and_eq_true, and_assoc]

theorem lockLegal_free {s : State} (hl : s.lock = .free) : lockLegal s = true ↔ s.fsm = .idle ∧ s.cur = .none := by
  simp [lockLegal, hl]

theorem lockLegal_held {s : State} {r : Nat} {b : Bank} (hl : s.lock = .held r) (hb : s.banks[r]? = some b) :
    lockLegal s = sequencerLegal s b := by
  simp [lockLegal, hl, hb]

/-- The invariant of the lock speaks of the sequencer's registers and of the owner's bank only. -/
theorem lockLegal_congr {s t : State} (hf : t.fsm = s.fsm) (hc : t.cur = s.cur) (he : t.explen = s.explen)
    (hl : t.lock = s.lock) (hb : ∀ r, s.lock = .held r → t.banks[r]? = s.banks[r]?) : lockLegal t = lockLegal s := by
  cases h : s.lock with
  | free => simp only [lockLegal, hl, h, hf, hc]
  | held r => simp only [lockLegal, hl, h, hb r h, sequencerLegal, hf, hc, he]

theorem sequencerLegal_writing {s : State} {b : Bank} (h : s.fsm = .pace ∨ s.fsm = .send) :
    sequencerLegal s b = true ↔ s.cur = .tx ∨ (s.cur = .xchg ∧ b.txbuf ≠ []) := by
  rcases h with h | h <;> simp [sequencerLegal, h]

theorem sequencerLegal_head {s : State} {b : Bank} (h : s.fsm = .head) :
    sequencerLegal s b = true ↔ (s.cur = .rx ∨ s.cur = .xchg) ∧ b.rxbuf.length ≤ 4 := by
  simp [sequencerLegal, h]

theorem sequencerLegal_bodyLen {s : State} {b : Bank} (h : s.fsm = .bodyLen) :
    sequencerLegal s b = true ↔ (s.cur = .rx ∨ s.cur = .xchg) ∧ 5 < s.explen.toNat ∧ 5 ≤ b.rxbuf.length ∧
      b.rxbuf.length < min s.explen.toNat 257 := by
  simp [sequencerLegal, h, and_assoc]

theorem sequencerLegal_bodyGap {s : State} {b : Bank} (h : s.fsm = .bodyGap) :
    sequencerLegal s b = true ↔ (s.cur = .rx ∨ s.cur = .xchg) ∧ s.explen = 0#16 ∧ 5 ≤ b.rxbuf.length ∧
      b.rxbuf.length ≤ 256 := by
  simp [sequencerLegal, h, and_assoc]

/-- In a receive state at most 256 bytes are stored, so that there is room for the next one (R41, R133, R135). -/
theorem sequencerLegal_room {s : State} {b : Bank} (h : sequencerLegal s b = true)
    (hf : s.fsm = .head ∨ s.fsm = .bodyLen ∨ s.fsm = .bodyGap) : b.rxbuf.length ≤ 256 := by
  rcases hf with hf | hf | hf
  · have := ((sequencerLegal_head hf).mp h).2
    omega
  · obtain ⟨-, -, -, hlt⟩ := (sequencerLegal_bodyLen hf).mp h
    omega
  · exact ((sequencerLegal_bodyGap hf).mp h).2.2.2

/-! ### What the shared operations do to it -/

/-- The receive buffer may hold anything within its capacity (R15). -/
theorem wf_receiveBuffer {b : Bank} (hb : b.wf = true) {l : List Byte} (hl : l.length ≤ 260) :
    { b with rxbuf := l }.wf = true := by
  obtain ⟨hfits, hctx, hstatus, hflog, hfault⟩ := Bank.wf_iff.mp hb
  obtain ⟨hp, ht, -⟩ := fits_iff.mp hfits
  exact Bank.wf_iff.mpr ⟨fits_iff.mpr ⟨hp, ht, hl⟩, hctx, hstatus, hflog, hfault⟩

/-- The verdict of a command on its own well-formed bank. -/
theorem wf_verdict {b : Bank} (hb : b.wf = true) {e : Ending} (he : ∀ v, e = .status v → statusLegal v = true) :
    (b.ending e).wf = true :=
  wf_ending hb (Bank.wf_iff.mp hb).1 (Bank.wf_iff.mp hb).2.1 rfl e he

theorem inv_held {s : State} {r : Nat} {b : Bank} (hw : s.banks.all Bank.wf = true) (hbaud : baudLegal s.baud = true)
    (hl : s.lock = .held r) (hb : s.banks[r]? = some b) (hs : sequencerLegal s b = true) : s.inv = true :=
  inv_iff.mpr ⟨hw, hbaud, by rw [lockLegal_held hl hb, hs]⟩

theorem inv_complete {s : State} {p : Params} {r : Nat} {b : Bank} {e : Ending} (hw : s.banks.all Bank.wf = true)
    (hbaud : baudLegal s.baud = true) (hb : (b.ending e).wf = true) : (s.complete p r b e).inv = true :=
  inv_iff.mpr ⟨all_set hw hb, hbaud, (lockLegal_free rfl).mpr ⟨rfl, rfl⟩⟩

/-- A command that does not hold the lock leaves the owner's bank alone. -/
theorem inv_conclude {s : State} {r : Nat} {b : Bank} {e : Ending} (hs : s.inv = true) (hl : s.lock ≠ .held r)
    (hb : (b.ending e).wf = true) : (s.conclude r b e).inv = true := by
  obtain ⟨hw, hbaud, hlock⟩ := inv_iff.mp hs
  have hother : ∀ q, s.lock = .held q → (s.conclude r b e).banks[q]? = s.banks[q]? := fun q hq =>
    set_getElem?_other fun h => hl (h ▸ hq)
  have hsame : lockLegal (s.conclude r b e) = lockLegal s := lockLegal_congr rfl rfl rfl rfl hother
  exact inv_iff.mpr ⟨all_set hw hb, hbaud, hsame.trans hlock⟩

/-- An update outside the banks, `BAUD`, the lock and the sequencer's registers keeps the invariant. -/
theorem inv_congr {s t : State} (hs : s.inv = true) (hbanks : t.banks = s.banks) (hbaud : t.baud = s.baud)
    (hf : t.fsm = s.fsm) (hc : t.cur = s.cur) (he : t.explen = s.explen) (hl : t.lock = s.lock) : t.inv = true := by
  obtain ⟨hw, hb, hlock⟩ := inv_iff.mp hs
  refine inv_iff.mpr ⟨hbanks ▸ hw, hbaud ▸ hb, ?_⟩
  exact (lockLegal_congr hf hc he hl fun r _ => by rw [hbanks]).trans hlock

theorem inv_selects {s u : State} {r : Nat} (hu : s.Selects r u) (hs : s.inv = true) : u.inv = true := by
  rw [(selects_same hu).1]
  exact inv_congr hs rfl rfl rfl rfl rfl rfl

theorem baudReset_legal : baudLegal Config.BAUD_RESET = true := by
  have h : ∀ i : Fin 3, baudLegal (Config.BAUD_SET.getD i.val 9600#32) = true := by decide
  exact h _

/-- The table of R38 meets the invariant, with any allowed baud rate. -/
theorem inv_resetAt {baud : Word} (h : baudLegal baud = true) (nreq t : Nat) (env : Env) :
    (State.resetAt nreq baud t env).inv = true := by
  have hbank : ∀ b ∈ List.replicate nreq Bank.reset, b.wf = true := by
    intro b hb
    rw [List.eq_of_mem_replicate hb]
    rfl
  exact inv_iff.mpr ⟨List.all_eq_true.mpr hbank, h, (lockLegal_free rfl).mpr ⟨rfl, rfl⟩⟩

/-! ### Every command keeps it -/

theorem exec_inv {i : Instr} {s t : State} (hs : s.inv = true) (h : exec i s = .next t) : t.inv = true := by
  obtain ⟨hw, hbaud, -⟩ := inv_iff.mp hs
  obtain ⟨b, ⟨hb, hl⟩, hk⟩ := exec_next h
  have hwf : b.wf = true := all_getElem? hw hb
  rcases hk with ⟨-, -, rfl⟩ | ⟨c, e, hc, rfl⟩ | ⟨-, -, rfl | ⟨w, x, rfl⟩ | ⟨hne, w, x, rfl⟩ | ⟨c, u, e, hu, he, rfl⟩⟩
  · exact hs
  · exact inv_conclude hs hl (hc.wf hwf)
  · exact inv_held hw hbaud rfl hb ((sequencerLegal_writing (.inl rfl)).mpr (.inl rfl))
  · exact inv_held (all_set hw (wf_receiveBuffer hwf (Nat.zero_le _))) hbaud rfl (set_getElem? hb)
      ((sequencerLegal_head rfl).mpr ⟨.inl rfl, Nat.zero_le _⟩)
  · exact inv_held hw hbaud rfl hb ((sequencerLegal_writing (.inl rfl)).mpr (.inr ⟨rfl, hne⟩))
  · have hverdict : ∀ v, e = .status v → statusLegal v = true := by
      rcases he with rfl | rfl <;> intro v hv <;> cases hv
      exact statusLegal_done
    refine inv_complete ?_ (hu.baud hbaud) (wf_verdict hwf hverdict)
    rw [hu.same]
    exact hw

/-! ### Every transition of the sequencer keeps it -/

/-- A receive state that has stored a byte and goes on is again where R124 allows it. -/
theorem sequencerLegal_receivesOn {s t : State} {r : Nat} {b : Bank} {x : Byte} (h : sequencerLegal s b = true)
    (hr : ReceivesOn s t r (b.storeByte x)) : sequencerLegal t (b.storeByte x) = true := by
  have hcur : t.cur = s.cur := by rw [hr.same]
  have hexp : t.explen = s.explen := by rw [hr.same]
  have hlen : (b.storeByte x).rxbuf.length = b.rxbuf.length + 1 := by simp
  rcases hr.where_ with ⟨hs, ht, hn⟩ | ⟨hs, ht, hn, hgt⟩ | ⟨hs, ht, hn, h0⟩ | ⟨hs, ht, hn⟩ | ⟨hs, ht, hn⟩
  · obtain ⟨hc, hle⟩ := (sequencerLegal_head hs).mp h
    exact (sequencerLegal_head ht).mpr ⟨hcur ▸ hc, by omega⟩
  · obtain ⟨hc, -⟩ := (sequencerLegal_head hs).mp h
    exact (sequencerLegal_bodyLen ht).mpr ⟨hcur ▸ hc, hexp ▸ hgt, by omega, by rw [hexp]; omega⟩
  · obtain ⟨hc, -⟩ := (sequencerLegal_head hs).mp h
    exact (sequencerLegal_bodyGap ht).mpr ⟨hcur ▸ hc, hexp ▸ h0, by omega, by omega⟩
  · obtain ⟨hc, hgt, hge, hlt⟩ := (sequencerLegal_bodyLen hs).mp h
    exact (sequencerLegal_bodyLen ht).mpr ⟨hcur ▸ hc, hexp ▸ hgt, by omega, by rw [hexp]; omega⟩
  · obtain ⟨hc, h0, hge, -⟩ := (sequencerLegal_bodyGap hs).mp h
    exact (sequencerLegal_bodyGap ht).mpr ⟨hcur ▸ hc, hexp ▸ h0, by omega, hn⟩

theorem sequencerTurn_inv {p : Params} {s t : State} (hs : s.inv = true) (h : sequencerTurn p s = .next t) :
    t.inv = true := by
  obtain ⟨hw, hbaud, hlock⟩ := inv_iff.mp hs
  obtain ⟨r, b, hl, hb, hk⟩ := sequencerTurn_next h
  have hwf : b.wf = true := all_getElem? hw hb
  have hseq : sequencerLegal s b = true := lockLegal_held hl hb ▸ hlock
  have hempty : { b with rxbuf := [] }.wf = true := wf_receiveBuffer hwf (Nat.zero_le _)
  rcases hk with ⟨hf, rfl⟩ | ⟨-, u, rfl, ⟨c, hc, rfl⟩ | ⟨hx, -, rfl⟩⟩ | ⟨hf, hrecv⟩
  · have hcur := (sequencerLegal_writing (.inl hf)).mp hseq
    exact inv_held hw hbaud hl hb ((sequencerLegal_writing (.inr rfl)).mpr hcur)
  · have hcwf : c.wf = true := by rcases hc with rfl | rfl <;> assumption
    exact inv_complete hw hbaud (wf_verdict hcwf fun v hv => by cases hv; exact statusLegal_done)
  · exact inv_held (all_set hw hempty) hbaud hl (set_getElem? hb)
      ((sequencerLegal_head rfl).mpr ⟨.inr hx, Nat.zero_le _⟩)
  · have hstored : ∀ x, (b.storeByte x).wf = true := fun x => by
      have hroom := sequencerLegal_room hseq hf
      exact wf_receiveBuffer hwf (by simp only [List.length_append, List.length_singleton]; omega)
    rcases hrecv with ⟨-, e, he, rfl⟩ | ⟨x, q, u, -, rfl, ⟨e, he, rfl⟩ | hr⟩
    · exact inv_complete hw hbaud (wf_verdict hwf he)
    · exact inv_complete hw hbaud (wf_verdict (hstored _) he)
    · have hlock' : t.lock = .held r := by rw [hr.same]; exact hl
      have hbaud' : baudLegal t.baud = true := by rw [hr.same]; exact hbaud
      have hbank : t.banks[r]? = some (b.storeByte x.1) := hr.bank ▸ set_getElem? hb
      refine inv_held ?_ hbaud' hlock' hbank (sequencerLegal_receivesOn (s := { s with serq := q }) hseq hr)
      rw [hr.bank]
      exact all_set hw (hstored _)

/-! ### Every step keeps it -/

theorem deliverByte_inv {s : State} (hs : s.inv = true) : (deliverByte s).inv = true := by
  unfold deliverByte
  split
  · exact hs
  · exact inv_congr hs rfl rfl rfl rfl rfl rfl

/-- Settles O45: each kind of turn keeps the invariant. -/
theorem stepKeepsTheInvariant : Obligations.StepKeepsTheInvariant := by
  intro s t hs h
  rcases step_next h with ⟨-, rfl⟩ | ⟨r, u, hu, ⟨i, -, hi⟩ | ⟨b, x, -, ⟨hb, hl⟩, rfl⟩⟩ | ⟨-, rfl⟩ | ⟨-, rfl⟩ | ⟨-, hq⟩
  · exact inv_resetAt baudReset_legal _ _ _
  · exact exec_inv (inv_selects hu hs) hi
  · have hu' := inv_selects hu hs
    have hactive : u.active = r := by rw [(selects_same hu).1]
    have hwf : b.wf = true := all_getElem? (inv_iff.mp hu').1 hb
    exact inv_conclude hu' (hactive ▸ hl) (wf_verdict hwf fun v hv => by cases hv)
  · exact deliverByte_inv hs
  · exact inv_congr hs rfl rfl rfl rfl rfl rfl
  · exact sequencerTurn_inv hs hq

/-- Settles O46: the table of R38 with the block's own parameters. -/
theorem resetMeetsTheInvariant : Obligations.ResetMeetsTheInvariant :=
  inv_resetAt baudReset_legal _ _ _

end Sys2Proof.Machine

/-!
PROOFS. What a step leaves unchanged (`10_state.md` R10, R18, R30, R31, R34): which bank it writes, and what it does to `NOW`, `LAST_POLL` and
`SEROUT`. For commands and for transitions of the sequencer first, then for steps.
-/

namespace Sys2Proof.Machine

/-! ### The banks -/

/-- Every bit of `FLOG` that is set in `b` is set in `c` (R18). -/
def Bank.KeepsFaults (b c : Bank) : Prop := ∀ k, b.flog.getLsbD k = true → c.flog.getLsbD k = true

theorem keepsFaults_of_flog {b c : Bank} (h : c.flog = b.flog) : b.KeepsFaults c := fun _ hk => h ▸ hk

theorem keepsFaults_ending {b c : Bank} (h : c.flog = b.flog) (e : Ending) : b.KeepsFaults (c.ending e) := by
  cases e with
  | status v => exact keepsFaults_of_flog h
  | fatal x => exact fun k hk => flogSet_sticky _ _ _ (h ▸ hk)

/-- From `s` to `t` at most requester `r`'s bank is written, and no bit of its `FLOG` is cleared (R10, R18). -/
def State.WritesOnlyBank (s t : State) (r : Nat) : Prop :=
  ∃ b c, s.banks[r]? = some b ∧ b.KeepsFaults c ∧ t.banks = s.banks.set r c

theorem writesOnlyBank_none {s t : State} {r : Nat} {b : Bank} (hb : s.banks[r]? = some b) (h : t.banks = s.banks) :
    s.WritesOnlyBank t r := by
  refine ⟨b, b, hb, keepsFaults_of_flog rfl, ?_⟩
  obtain ⟨hr, rfl⟩ := List.getElem?_eq_some_iff.mp hb
  rw [h, List.set_getElem_self hr]

theorem writesOnlyBank_other {s t : State} {r q : Nat} (h : s.WritesOnlyBank t r) (hq : q ≠ r) :
    t.banks[q]? = s.banks[q]? := by
  obtain ⟨b, c, -, -, ht⟩ := h
  rw [ht, set_getElem?_other hq]

theorem writesOnlyBank_length {s t : State} {r : Nat} (h : s.WritesOnlyBank t r) : t.banks.length = s.banks.length := by
  obtain ⟨b, c, -, -, ht⟩ := h
  rw [ht, List.length_set]

theorem exec_writesOnlyBank {i : Instr} {s t : State} (h : exec i s = .next t) : s.WritesOnlyBank t s.active := by
  obtain ⟨b, ⟨hb, -⟩, hk⟩ := exec_next h
  rcases hk with ⟨-, -, rfl⟩ | ⟨c, e, hc, rfl⟩ | ⟨-, -, rfl | ⟨w, x, rfl⟩ | ⟨-, w, x, rfl⟩ | ⟨c, u, e, hu, -, rfl⟩⟩
  · exact writesOnlyBank_none hb rfl
  · exact ⟨b, _, hb, keepsFaults_ending hc.flog e, rfl⟩
  · exact writesOnlyBank_none hb rfl
  · exact ⟨b, { b with rxbuf := [] }, hb, keepsFaults_of_flog rfl, rfl⟩
  · exact writesOnlyBank_none hb rfl
  · refine ⟨b, _, hb, keepsFaults_ending rfl e, ?_⟩
    rw [State.complete_banks, hu.same]
    rfl

theorem sequencerTurn_writesOnlyBank {p : Params} {s t : State} (h : sequencerTurn p s = .next t) :
    ∃ r, s.lock = .held r ∧ s.WritesOnlyBank t r := by
  obtain ⟨r, b, hl, hb, hk⟩ := sequencerTurn_next h
  refine ⟨r, hl, ?_⟩
  rcases hk with ⟨-, rfl⟩ | ⟨-, u, rfl, ⟨c, hc, rfl⟩ | ⟨-, -, rfl⟩⟩ | ⟨-, ⟨-, e, -, rfl⟩ | ⟨x, q, u, -, rfl, ⟨e, -, rfl⟩ | hr⟩⟩
  · exact writesOnlyBank_none hb rfl
  · have hflog : c.flog = b.flog := by rcases hc with rfl | rfl <;> rfl
    exact ⟨b, _, hb, keepsFaults_ending hflog _, rfl⟩
  · exact ⟨b, { b with rxbuf := [] }, hb, keepsFaults_of_flog rfl, rfl⟩
  · exact ⟨b, _, hb, keepsFaults_ending rfl e, rfl⟩
  · exact ⟨b, _, hb, keepsFaults_ending (Bank.storeByte_flog b x.1) e, rfl⟩
  · exact ⟨b, _, hb, keepsFaults_of_flog (Bank.storeByte_flog b x.1), hr.bank⟩

@[simp] theorem deliverByte_banks (s : State) : (deliverByte s).banks = s.banks := by
  unfold deliverByte
  split <;> rfl

/-- A step that is no reset writes at most one bank, that of the requester whose turn it is or of the lock's owner. -/
theorem step_writesOnlyBank {s t : State} (h : step s = .next t) (hn : nextTurn s ≠ .reset) :
    t.banks = s.banks ∨
    ∃ r, (nextTurn s = .command r ∨ nextTurn s = .grant r ∨ s.lock = .held r) ∧ s.WritesOnlyBank t r := by
  rcases step_next h with ⟨hr, -⟩ | ⟨r, u, hu, hk⟩ | ⟨-, rfl⟩ | ⟨-, rfl⟩ | ⟨-, hq⟩
  · exact absurd hr hn
  · have hsame := (selects_same hu).1
    have hactive : u.active = r := by rw [hsame]
    have hbanks : u.banks = s.banks := by rw [hsame]
    have hturn : nextTurn s = .command r ∨ nextTurn s = .grant r ∨ s.lock = .held r := by
      rcases hu with ⟨ht, -⟩ | ⟨ht, -⟩
      · exact .inl ht
      · exact .inr (.inl ht)
    refine .inr ⟨r, hturn, ?_⟩
    rw [State.WritesOnlyBank, ← hbanks]
    rcases hk with ⟨i, -, hi⟩ | ⟨b, x, -, ⟨hb, -⟩, rfl⟩
    · exact hactive ▸ exec_writesOnlyBank hi
    · exact ⟨b, _, hactive ▸ hb, keepsFaults_ending rfl _, rfl⟩
  · exact .inl (deliverByte_banks s)
  · exact .inl rfl
  · obtain ⟨r, hl, hw⟩ := sequencerTurn_writesOnlyBank hq
    exact .inr ⟨r, .inr (.inr hl), hw⟩

/-- Settles O48, from the one bank that a command and a step may write. -/
theorem banksArePrivate : Obligations.BanksArePrivate := by
  refine ⟨fun i s t h q hq => writesOnlyBank_other (exec_writesOnlyBank h) hq, fun s t h => ?_,
    fun s t h hn q hown hcommand hgrant => ?_⟩
  · by_cases hr : nextTurn s = .reset
    · have ht : step s = .next (resetEvent s) := (stepWith_turn _ s).1 hr
      rw [ht] at h
      cases h
      exact List.length_replicate
    · rcases step_writesOnlyBank h hr with hb | ⟨r, -, hw⟩
      · rw [hb]
      · exact writesOnlyBank_length hw
  · rcases step_writesOnlyBank h hn with hb | ⟨r, hturn, hw⟩
    · rw [hb]
    · refine writesOnlyBank_other hw ?_
      rintro rfl
      rcases hturn with hturn | hturn | hturn
      · exact hcommand hturn
      · exact hgrant hturn
      · exact hown hturn

/-- Settles O54: the one bank that a step writes keeps its faults. -/
theorem faultLogIsSticky : Obligations.FaultLogIsSticky := by
  intro s t h hn q b hb
  rcases step_writesOnlyBank h hn with hsame | ⟨r, -, hw⟩
  · exact ⟨b, hsame ▸ hb, fun _ => id⟩
  · by_cases hq : q = r
    · subst hq
      obtain ⟨b', c, hb', hkeeps, ht⟩ := hw
      obtain rfl : b' = b := Option.some.inj (hb'.symm.trans hb)
      exact ⟨c, ht ▸ set_getElem? hb, hkeeps⟩
    · exact ⟨b, (writesOnlyBank_other hw hq).trans hb, fun _ => id⟩

/-! ### `NOW`, `LAST_POLL` and `SEROUT` -/

/-- `NOW`, `LAST_POLL` and `SEROUT` are the same in both states (R30, R31, R34). -/
structure State.SameClocks (s t : State) : Prop where
  now : t.now = s.now
  lastPoll : t.lastPoll = s.lastPoll
  serout : t.serout = s.serout

/-- Only the completion of an `XCHG` writes `LAST_POLL` (R139). -/
theorem complete_lastPoll_other {s : State} (h : s.cur ≠ .xchg) (p : Params) (r : Nat) (b : Bank) (e : Ending) :
    (s.complete p r b e).lastPoll = s.lastPoll := by
  rw [State.complete_lastPoll, if_neg h]

theorem exec_sameClocks {i : Instr} {s t : State} (h : exec i s = .next t) : s.SameClocks t := by
  obtain ⟨b, -, hk⟩ := exec_next h
  rcases hk with ⟨-, -, rfl⟩ | ⟨c, e, -, rfl⟩ | ⟨-, -, rfl | ⟨w, x, rfl⟩ | ⟨-, w, x, rfl⟩ | ⟨c, u, e, hu, -, rfl⟩⟩
  · exact ⟨rfl, rfl, rfl⟩
  · exact ⟨rfl, rfl, rfl⟩
  · exact ⟨rfl, rfl, rfl⟩
  · exact ⟨rfl, rfl, rfl⟩
  · exact ⟨rfl, rfl, rfl⟩
  · have hcur : u.cur ≠ .xchg := by
      rw [hu.same]
      rcases hu.cur with rfl | rfl | rfl <;> exact Cur.noConfusion
    have hclocks : s.SameClocks u := by
      rw [hu.same]
      exact ⟨rfl, rfl, rfl⟩
    exact ⟨hclocks.now, (complete_lastPoll_other hcur _ _ _ _).trans hclocks.lastPoll, hclocks.serout⟩

/-- A transition of the sequencer takes no time (R123). -/
theorem sequencerTurn_now {p : Params} {s t : State} (h : sequencerTurn p s = .next t) : t.now = s.now := by
  obtain ⟨r, b, -, -, hk⟩ := sequencerTurn_next h
  rcases hk with ⟨-, rfl⟩ | ⟨-, u, rfl, ⟨c, -, rfl⟩ | ⟨-, -, rfl⟩⟩ | ⟨-, ⟨-, e, -, rfl⟩ | ⟨x, q, u, -, rfl, ⟨e, -, rfl⟩ | hr⟩⟩
  · rfl
  · rfl
  · rfl
  · rfl
  · rfl
  · rw [hr.same]

/-- A transition that is not out of `SEND` writes `LAST_POLL` only if it completes an `XCHG` (R31, R193), and leaves `SEROUT` (R34). -/
theorem sequencerTurn_clocks {p : Params} {s t : State} (h : sequencerTurn p s = .next t) (hf : s.fsm ≠ .send) :
    (t.lastPoll = s.lastPoll ∨ (s.cur = .xchg ∧ t.lock = .free)) ∧ t.serout = s.serout := by
  obtain ⟨r, b, -, -, hk⟩ := sequencerTurn_next h
  have completes : ∀ (u : State) (c : Bank) (e : Ending), u.cur = s.cur → u.lastPoll = s.lastPoll →
      (u.complete p r c e).lastPoll = s.lastPoll ∨ s.cur = .xchg ∧ (u.complete p r c e).lock = .free := by
    intro u c e hcur hpoll
    by_cases hx : s.cur = .xchg
    · exact .inr ⟨hx, rfl⟩
    · exact .inl ((complete_lastPoll_other (hcur ▸ hx) p r c e).trans hpoll)
  rcases hk with ⟨-, rfl⟩ | ⟨hs, -⟩ | ⟨-, ⟨-, e, -, rfl⟩ | ⟨x, q, u, -, rfl, ⟨e, -, rfl⟩ | hr⟩⟩
  · exact ⟨.inl rfl, rfl⟩
  · exact absurd hs hf
  · exact ⟨completes s b e rfl rfl, rfl⟩
  · exact ⟨completes _ _ e rfl rfl, rfl⟩
  · rw [hr.same]
    exact ⟨.inl rfl, rfl⟩

/-- The transition out of `SEND` appends the whole frame of the lock's owner (R34, R128). -/
theorem sequencerTurn_send_serout {p : Params} {s t : State} (h : sequencerTurn p s = .next t) (hf : s.fsm = .send) :
    ∃ r b, s.lock = .held r ∧ s.banks[r]? = some b ∧ t.serout = s.serout ++ b.txbuf := by
  obtain ⟨r, b, hl, hb, hk⟩ := sequencerTurn_next h
  refine ⟨r, b, hl, hb, ?_⟩
  rcases hk with ⟨hp, -⟩ | ⟨-, u, rfl, ⟨c, -, rfl⟩ | ⟨-, -, rfl⟩⟩ | ⟨hr, -⟩
  · rw [hf] at hp
    cases hp
  · rfl
  · rfl
  · rw [hf] at hr
    rcases hr with hr | hr | hr <;> cases hr

/-- A step is a reset, the passing of a millisecond, a transition, or leaves `NOW`, `LAST_POLL` and `SEROUT`. -/
theorem step_clocks {s t : State} (h : step s = .next t) :
    (nextTurn s = .reset ∧ t = resetEvent s) ∨ (nextTurn s = .tick ∧ t = passTime s) ∨
    (nextTurn s = .sequencer ∧ sequencerTurn Config.params s = .next t) ∨ (nextTurn s ≠ .tick ∧ s.SameClocks t) := by
  rcases step_next h with hr | ⟨r, u, hu, hk⟩ | ⟨ht, rfl⟩ | ht | hq
  · exact .inl hr
  · have hturn : nextTurn s ≠ .tick := by
      rcases hu with ⟨ht, -⟩ | ⟨ht, -⟩ <;> rw [ht] <;> exact Turn.noConfusion
    have hselected : s.SameClocks u := by
      rw [(selects_same hu).1]
      exact ⟨rfl, rfl, rfl⟩
    have hran : u.SameClocks t := by
      rcases hk with ⟨i, -, hi⟩ | ⟨b, x, -, -, rfl⟩
      · exact exec_sameClocks hi
      · exact ⟨rfl, rfl, rfl⟩
    exact .inr (.inr (.inr ⟨hturn, hran.now.trans hselected.now, hran.lastPoll.trans hselected.lastPoll,
      hran.serout.trans hselected.serout⟩))
  · refine .inr (.inr (.inr ⟨by rw [ht]; exact Turn.noConfusion, ?_⟩))
    unfold deliverByte
    split <;> exact ⟨rfl, rfl, rfl⟩
  · exact .inr (.inl ht)
  · exact .inr (.inr (.inl hq))

/-- Settles O51, by the four kinds of step of `step_clocks`. -/
theorem lastPollHasTwoWriters : Obligations.LastPollHasTwoWriters := by
  intro s t h hchanged
  rcases step_clocks h with ⟨hr, -⟩ | ⟨-, rfl⟩ | ⟨hturn, hq⟩ | ⟨-, hsame⟩
  · exact .inl hr
  · exact absurd rfl hchanged
  · refine .inr ⟨hturn, ?_⟩
    by_cases hf : s.fsm = .send
    · exact .inl hf
    · exact .inr ((sequencerTurn_clocks hq hf).1.resolve_left hchanged)
  · exact absurd hsame.lastPoll hchanged

/-- Settles O52, by the four kinds of step of `step_clocks`; a reset keeps `NOW`. -/
theorem timeOnlyMovesByTicks : Obligations.TimeOnlyMovesByTicks := by
  intro s t h
  rcases step_clocks h with ⟨hr, rfl⟩ | ⟨ht, rfl⟩ | ⟨hturn, hq⟩ | ⟨hturn, hsame⟩
  · exact ⟨fun ht => absurd (hr.symm.trans ht) Turn.noConfusion, fun _ => rfl⟩
  · exact ⟨fun _ => rfl, fun hn => absurd ht hn⟩
  · exact ⟨fun ht => absurd (hturn.symm.trans ht) Turn.noConfusion, fun _ => sequencerTurn_now hq⟩
  · exact ⟨fun ht => absurd ht hturn, fun _ => hsame.now⟩

/-- Settles O53: only the transition out of `SEND` appends. -/
theorem outputGrowsByWholeFrames : Obligations.OutputGrowsByWholeFrames := by
  intro s t h hn
  rcases step_clocks h with ⟨hr, -⟩ | ⟨-, rfl⟩ | ⟨hturn, hq⟩ | ⟨-, hsame⟩
  · exact absurd hr hn
  · exact .inl rfl
  · by_cases hf : s.fsm = .send
    · exact .inr ⟨hturn, hf, sequencerTurn_send_serout hq hf⟩
    · exact .inl (sequencerTurn_clocks hq hf).2
  · exact .inl hsame.serout

end Sys2Proof.Machine

/-!
PROOFS. Which bank a command and a transition read (`10_state.md` R10): replacing another requester's bank before them is the same as replacing
it after them. Each shared operation is shown to commute with the replacement, then each command and each transition.
-/

namespace Sys2Proof.Machine

/-- An answer with requester `q`'s bank replaced by `c` in its next state. -/
def replaceBank (q : Nat) (c : Bank) : Result → Result
  | .next t => .next (t.setBank q c)
  | .fault f => .fault f
  | .refused f => .refused f

section
variable {s : State} {q : Nat} {c : Bank}

/-! ### The shared operations -/

theorem setBank_setBank {r : Nat} (hq : q ≠ r) (b : Bank) :
    (s.setBank q c).setBank r b = (s.setBank r b).setBank q c := by
  simp [State.setBank, List.set_comm _ _ hq]

theorem conclude_setBank {r : Nat} (hq : q ≠ r) (b : Bank) (e : Ending) :
    (s.setBank q c).conclude r b e = (s.conclude r b e).setBank q c := by
  rw [State.conclude, setBank_setBank hq]
  rfl

theorem complete_setBank {r : Nat} (hq : q ≠ r) (p : Params) (b : Bank) (e : Ending) :
    (s.setBank q c).complete p r b e = (s.complete p r b e).setBank q c := by
  have h := conclude_setBank (c := c)
    (s := { s with lastPoll := (s.complete p r b e).lastPoll }.log (frameRecord r b s.cur e)) hq b e
  exact congrArg State.release h

theorem enterHead_setBank {r : Nat} (hq : q ≠ r) (b : Bank) :
    (s.setBank q c).enterHead r b = (s.enterHead r b).setBank q c := by
  rw [State.enterHead, setBank_setBank hq]
  rfl

theorem finish_setBank (hq : q ≠ s.active) (b : Bank) (e : Ending) :
    finish (s.setBank q c) b e = replaceBank q c (finish s b e) :=
  congrArg Host.Outcome.next (conclude_setBank hq b e)

theorem withRequester_setBank (hq : q ≠ s.active) {k k' : Bank → Result} (hk : ∀ b, k' b = replaceBank q c (k b)) :
    withRequester (s.setBank q c) k' = replaceBank q c (withRequester s k) := by
  have hbank : (s.setBank q c).banks[(s.setBank q c).active]? = s.banks[s.active]? := set_getElem?_other (Ne.symm hq)
  unfold withRequester
  rw [hbank]
  cases s.banks[s.active]? with
  | none => rfl
  | some b =>
    by_cases hl : s.lock = .held s.active
    · simp [hl, replaceBank]
    · simp [hl, hk]

theorem whenLockFree_setBank {k k' : Result} (hk : k' = replaceBank q c k) :
    whenLockFree (s.setBank q c) k' = replaceBank q c (whenLockFree s k) := by
  cases hl : s.lockFree
  · rw [whenLockFree_waits hl, whenLockFree_waits (s := s.setBank q c) hl]
    rfl
  · rw [whenLockFree_free hl, whenLockFree_free (s := s.setBank q c) hl, hk]

theorem underLock_setBank (hq : q ≠ s.active) (cur : Cur) {write : State → State} (e : Ending)
    (hwrite : ∀ t r b, write (t.setBank r b) = (write t).setBank r b) :
    underLock (s.setBank q c) cur write e = replaceBank q c (underLock s cur write e) := by
  refine withRequester_setBank hq fun b => whenLockFree_setBank (congrArg Host.Outcome.next ?_)
  have htake : (s.setBank q c).takeLock s.active cur = (s.takeLock s.active cur).setBank q c := rfl
  rw [State.setBank_active, htake, hwrite, complete_setBank hq]

theorem withOwner_setBank (hq : s.lock ≠ .held q) {k k' : Nat → Bank → Result}
    (hk : ∀ r b, q ≠ r → k' r b = replaceBank q c (k r b)) :
    withOwner (s.setBank q c) k' = replaceBank q c (withOwner s k) := by
  unfold withOwner
  rw [State.setBank_lock]
  cases hl : s.lock with
  | free => rfl
  | held r =>
    have hqr : q ≠ r := fun h => hq (h ▸ hl)
    have hbank : (s.setBank q c).banks[r]? = s.banks[r]? := set_getElem?_other (Ne.symm hqr)
    dsimp only
    rw [hbank]
    cases s.banks[r]? with
    | none => rfl
    | some b => exact hk r b hqr

/-! ### The commands -/

theorem exec_setBank (i : Instr) (hq : q ≠ s.active) : exec i (s.setBank q c) = replaceBank q c (exec i s) := by
  have ends := finish_setBank (c := c) hq
  cases i with
  | crcInit => exact withRequester_setBank hq fun b => ends _ _
  | crcUpd x => exact withRequester_setBank hq fun b => ends _ _
  | mkctxRtu u n => exact withRequester_setBank hq fun b => ends _ _
  | mkctxTcp u n => exact withRequester_setBank hq fun b => ends _ _
  | encapRtu => exact withRequester_setBank hq fun b => by split <;> exact ends _ _
  | encapTcp => exact withRequester_setBank hq fun b => by split <;> exact ends _ _
  | decapRtu => exact withRequester_setBank hq fun b => by split <;> exact ends _ _
  | xctxRtu => exact withRequester_setBank hq fun b => by split <;> exact ends _ _
  | decapTcp => exact withRequester_setBank hq fun b => by split <;> exact ends _ _
  | xctxTcp => exact withRequester_setBank hq fun b => by split <;> exact ends _ _
  | loadP data => exact withRequester_setBank hq fun b => by split <;> exact ends _ _
  | loadR data => exact withRequester_setBank hq fun b => by split <;> exact ends _ _
  | loadT data => exact withRequester_setBank hq fun b => by split <;> exact ends _ _
  | loadC data => exact withRequester_setBank hq fun b => by split <;> exact ends _ _
  | tx => exact withRequester_setBank hq fun b => whenLockFree_setBank rfl
  | rx timeout explen =>
    exact withRequester_setBank hq fun b => whenLockFree_setBank (congrArg Host.Outcome.next (enterHead_setBank
      (s := { s.takeLock s.active .rx with tmo := timeout, explen := explen }) hq b))
  | xchg timeout explen =>
    refine withRequester_setBank hq fun b => ?_
    split
    · exact ends _ _
    · exact whenLockFree_setBank rfl
  | setbaud baud =>
    show execSetbaud baud _ = replaceBank q c (execSetbaud baud s)
    unfold execSetbaud
    split
    · exact underLock_setBank hq _ _ fun _ _ _ => rfl
    · exact underLock_setBank hq _ _ fun _ _ _ => rfl
  | setpoll ms => exact underLock_setBank hq _ (write := fun t => { t with delayPoll := ms }) _ fun _ _ _ => rfl
  | seterr ms => exact underLock_setBank hq _ (write := fun t => { t with delayErr := ms }) _ fun _ _ _ => rfl

/-! ### The transitions of the sequencer -/

/-- A part of a transition, on requester `r`'s bank, that commutes with a replacement of another requester's bank. -/
def Commutes (f : State → Nat → Bank → State) (q : Nat) (c : Bank) : Prop :=
  ∀ s r b, q ≠ r → f (s.setBank q c) r b = (f s r b).setBank q c

theorem headDone_commutes (p : Params) : Commutes (headDone p) q c := by
  intro s r b hq
  unfold headDone
  rw [State.setBank_explen, setBank_setBank hq]
  simp only [complete_setBank hq]
  split_ifs <;> rfl

theorem headByte_commutes (p : Params) : Commutes (headByte p) q c := by
  intro s r b hq
  unfold headByte
  rw [headDone_commutes p s r b hq, setBank_setBank hq]
  split_ifs <;> rfl

theorem bodyLenByte_commutes (p : Params) : Commutes (bodyLenByte p) q c := by
  intro s r b hq
  unfold bodyLenByte bodyTarget
  rw [State.setBank_explen, complete_setBank hq, setBank_setBank hq]
  split_ifs <;> rfl

theorem gapByte_commutes (p : Params) : Commutes (gapByte p) q c := by
  intro s r b hq
  unfold gapByte
  rw [complete_setBank hq, setBank_setBank hq]
  split_ifs <;> rfl

theorem receiveTurn_setBank (hq : s.lock ≠ .held q) {f g : State → Nat → Bank → State} (hf : Commutes f q c)
    (hg : Commutes g q c) : receiveTurn (s.setBank q c) f g = replaceBank q c (receiveTurn s f g) := by
  refine withOwner_setBank hq fun r b hqr => ?_
  rw [State.setBank_serq]
  split
  · rename_i x _ rest _
    exact congrArg Host.Outcome.next (hf { s with serq := rest } r (b.storeByte x) hqr)
  · exact congrArg Host.Outcome.next (hg s r b hqr)

/-- The state in `SEND` once requester `r`'s frame is out, before its command completes or receives (R128). -/
def State.sent (s : State) (r : Nat) (b : Bank) : State :=
  { (s.serWrite b.txbuf).log [.txFrame r b.txbuf] with lastPoll := s.now }

theorem sendDone_setBank (hq : s.lock ≠ .held q) (p : Params) :
    sendDone p (s.setBank q c) = replaceBank q c (sendDone p s) := by
  refine withOwner_setBank hq fun r b hqr => ?_
  have ends : ∀ (u : State) (b' : Bank) (e : Ending),
      .next ((u.setBank q c).complete p r b' e) = replaceBank q c (.next (u.complete p r b' e)) :=
    fun u b' e => congrArg Host.Outcome.next (complete_setBank hqr p b' e)
  dsimp only [State.setBank_cur]
  split
  · exact ends (s.sent r b) b _
  · split
    · rfl
    · split
      · exact ends (s.sent r b) { b with rxbuf := [] } _
      · exact congrArg Host.Outcome.next (enterHead_setBank (s := s.sent r b) hqr b)
  · rfl

theorem sequencerTurn_setBank (hq : s.lock ≠ .held q) (p : Params) :
    sequencerTurn p (s.setBank q c) = replaceBank q c (sequencerTurn p s) := by
  unfold sequencerTurn
  rw [State.setBank_fsm]
  cases s.fsm with
  | idle => rfl
  | pace => exact withOwner_setBank hq fun _ _ _ => rfl
  | send => exact sendDone_setBank hq p
  | head => exact receiveTurn_setBank hq (headByte_commutes p) fun s r b hqr => complete_setBank hqr p b _
  | bodyLen => exact receiveTurn_setBank hq (bodyLenByte_commutes p) fun s r b hqr => complete_setBank hqr p b _
  | bodyGap => exact receiveTurn_setBank hq (gapByte_commutes p) fun s r b hqr => complete_setBank hqr p b _

end

/-- Settles O49: commands and transitions commute with the replacement of a bank that is not theirs. -/
theorem banksAreNotReadByOthers : Obligations.BanksAreNotReadByOthers := by
  refine ⟨fun i s q c hq => ?_, fun p s q c hq => ?_⟩
  · rw [exec_setBank i hq]
    refine ⟨fun t h => ?_, fun f h => ?_, fun f h => ?_⟩ <;> rw [h] <;> rfl
  · rw [sequencerTurn_setBank hq p]
    refine ⟨fun t h => ?_, fun f h => ?_⟩ <;> rw [h] <;> rfl

end Sys2Proof.Machine

/-!
PROOFS. The state after reset, the derived flags, and what a host reads (`10_state.md` R21, R37, R38; `20_memory.md` R42).
-/

namespace Sys2Proof.Machine

/-- Settles O55. Every bank is `Bank.reset`; the rest is the table read off. -/
theorem resetTableHolds : Obligations.ResetTableHolds := by
  have hbank : ∀ b ∈ State.reset.banks, b = Bank.reset := fun b hb => List.eq_of_mem_replicate hb
  refine ⟨List.length_replicate, fun b hb => ?_, rfl, rfl, rfl, rfl, rfl, rfl, rfl, rfl, baudReset_legal,
    Config.tReset.isLt, rfl, rfl, rfl, rfl, rfl⟩
  rw [hbank b hb]
  exact ⟨rfl, rfl, rfl, rfl, rfl, rfl, rfl, rfl, rfl, fun k => ⟨rfl, rfl, rfl⟩⟩

/-! ### The derived flags -/

theorem busyFlag_iff (s : State) : busyFlag s = true ↔ s.lock ≠ .free := by simp [busyFlag]

theorem excFlag_iff (b : Bank) :
    excFlag b = true ↔ 2 ≤ b.rxbuf.length ∧ ∃ x, b.rxbuf[1]? = some x ∧ x.getLsbD 7 = true := by
  unfold excFlag
  rcases b.rxbuf with _ | ⟨x, _ | ⟨functionCode, rest⟩⟩
  · simp
  · simp
  · simp [exceptionBit]

/-- A status that is not negative has bit 15 clear (R16). -/
theorem statusNegative_eq_false_iff (v : Half) : statusNegative v = false ↔ 0 ≤ v.toInt := by
  rw [statusNegative, BitVec.msb_eq_toInt, decide_eq_false_iff_not, not_lt]

theorem frameValidFlag_iff (b : Bank) :
    frameValidFlag b = true ↔ b.fault = .none ∧ 0 ≤ b.status.toInt ∧ 1 ≤ b.rxbuf.length := by
  rw [frameValidFlag, Bool.and_eq_true, Bool.and_eq_true, beq_iff_eq, Bool.not_eq_true', statusNegative_eq_false_iff,
    decide_eq_true_iff, and_assoc]
  rfl

/-- Settles O57, flag by flag. -/
theorem derivedFlagsFollowTheRegisters : Obligations.DerivedFlagsFollowTheRegisters :=
  ⟨busyFlag_iff, excFlag_iff, frameValidFlag_iff⟩

/-! ### What a host reads -/

theorem commandInProgress_iff {s : State} {r : Nat} : commandInProgress s r = true ↔
    s.lock = .held r ∨ (pendingCommand s r (s.env.hosts.getD r [])).isSome = true := by
  rw [commandInProgress, Bool.or_eq_true, beq_iff_eq]

theorem hostReadsBank_busy {s : State} {r : Nat} (h : commandInProgress s r = true) : hostReadsBank s r = none :=
  if_pos h

/-- With no command in progress a host reads its whole bank. -/
theorem hostReadsBank_idle {s : State} {r : Nat} (h : ¬ commandInProgress s r = true) : hostReadsBank s r = s.banks[r]? :=
  if_neg h

/-- A command that waits for the lock stands at the port (R196). -/
theorem pendingCommand_of_waiting {s : State} {r : Nat} {stream : List Issue} (h : waiting s r stream = true) :
    (pendingCommand s r stream).isSome = true := by
  cases hp : pendingCommand s r stream with
  | none => simp [waiting, hp] at h
  | some x => rfl

/-- An issued command stands at the port of a requester that does not hold the lock. -/
theorem pendingCommand_of_issued {s : State} {r : Nat} {b : Bank} {c : Issue} (rest : List Issue) (hl : s.lock ≠ .held r)
    (hb : s.banks[r]? = some b) (hi : issued s.now c = true) : pendingCommand s r (c :: rest) = some (c.bytes, b) := by
  simp [pendingCommand, hl, hb, hi]

/-- A byte of a buffer has a value exactly below the buffer's length (R37). -/
theorem bufferRead_eq_none_iff (buf : List Byte) (k : Nat) : bufferRead buf k = none ↔ buf.length ≤ k :=
  List.getElem?_eq_none_iff

/-- Settles O58: the first three clauses are commands in progress; in the last the port is empty. -/
theorem hostReadsOnlyBetweenCommands : Obligations.HostReadsOnlyBetweenCommands := by
  refine ⟨fun s r hl => hostReadsBank_busy (commandInProgress_iff.mpr (.inl hl)),
    fun s r hw => hostReadsBank_busy (commandInProgress_iff.mpr (.inr (pendingCommand_of_waiting hw))),
    fun s r c rest hs hi => ?_, fun s r b hb hl hport => ?_⟩
  · by_cases hbusy : commandInProgress s r = true
    · exact hostReadsBank_busy hbusy
    · cases hb : s.banks[r]? with
      | none => exact (hostReadsBank_idle hbusy).trans hb
      | some b =>
        obtain ⟨hl, hport⟩ := not_or.mp (commandInProgress_iff.not.mp hbusy)
        rw [hs, pendingCommand_of_issued rest hl hb hi] at hport
        exact absurd rfl hport
  · have hidle : ¬ commandInProgress s r = true := by
      rw [commandInProgress_iff, pendingCommand_none hport]
      exact not_or.mpr ⟨hl, Bool.false_ne_true⟩
    have hread : hostReadsBank s r = some b := (hostReadsBank_idle hidle).trans hb
    refine ⟨hread, fun k => ?_⟩
    simp only [hostReadsPbuf, hostReadsTxbuf, hostReadsRxbuf, hread, Option.bind_some, bufferRead_eq_none_iff]
    exact ⟨Iff.rfl, Iff.rfl, Iff.rfl⟩

end Sys2Proof.Machine

/-!
PROOFS. The command port, repeated codec commands, and what the lock protects (`20_memory.md` R43, R50, R52, R53; `44_transport.md` R124).
For the codec each branch of a command first, then its repetition; for the lock what a command leaves alone, then what a step does.
-/

namespace Sys2Proof.Machine

/-! ### The command port -/

/-- Every command goes through the gate of the command port (R53). -/
theorem exec_eq_withRequester (i : Instr) (s : State) : ∃ k, exec i s = withRequester s k := by
  cases i with
  | setbaud baud =>
    show ∃ k, execSetbaud baud s = withRequester s k
    unfold execSetbaud
    split
    · exact ⟨_, rfl⟩
    · exact ⟨_, rfl⟩
  | _ => exact ⟨_, rfl⟩

theorem withRequester_owner {s : State} {b : Bank} (hb : s.banks[s.active]? = some b) (hl : s.lock = .held s.active)
    (k : Bank → Result) : withRequester s k = .refused .commandInProgress := by
  simp [withRequester, hb, hl]

theorem withRequester_absent {s : State} (hb : s.banks[s.active]? = none) (k : Bank → Result) :
    withRequester s k = .fault .noSuchRequester := by
  simp [withRequester, hb]

/-- Settles O44: the gate stops both, whatever the command. -/
theorem portAcceptsOneCommandAtATime : Obligations.PortAcceptsOneCommandAtATime := by
  intro i s
  obtain ⟨k, hk⟩ := exec_eq_withRequester i s
  rw [hk]
  exact ⟨fun b hb hl => withRequester_owner hb hl k, fun hb => withRequester_absent hb k⟩

/-! ### The codec commands, branch by branch -/

section
variable {s : State} {b : Bank}

theorem exec_mkctxRtu (hs : s.ready b) (u : Byte) (q : Half) :
    exec (.mkctxRtu u q) s = endDone s { b with ctx := Ctx.ofUnit u, ctxLen := .rtu } :=
  withRequester_ready hs _

theorem exec_mkctxTcp (hs : s.ready b) (u : Byte) (q : Half) :
    exec (.mkctxTcp u q) s = endDone s { b with ctx := Ctx.ofUnitSequence u q, ctxLen := .tcp } :=
  withRequester_ready hs _

theorem exec_encapRtu_rtu (hs : s.ready b) (h : b.ctxLen = .rtu) :
    exec .encapRtu s = endDone s { b with txbuf := rtuEncap b.ctx.b0 b.pbuf } := by
  simp only [exec, execEncapRtu, withRequester_ready hs, h]

theorem exec_encapRtu_refused (hs : s.ready b) (h : b.ctxLen ≠ .rtu) : exec .encapRtu s = endRefuse s b := by
  simp only [exec, execEncapRtu, withRequester_ready hs]
  split
  · exact absurd ‹_› h
  · rfl
  · rfl

theorem exec_encapTcp_tcp (hs : s.ready b) (h : b.ctxLen = .tcp) :
    exec .encapTcp s = endDone s { b with txbuf := tcpEncap b.ctx b.pbuf } := by
  simp only [exec, execEncapTcp, withRequester_ready hs, h]

theorem exec_encapTcp_refused (hs : s.ready b) (h : b.ctxLen ≠ .tcp) : exec .encapTcp s = endRefuse s b := by
  simp only [exec, execEncapTcp, withRequester_ready hs]
  split
  · exact absurd ‹_› h
  · rfl
  · rfl

theorem exec_decapRtu_fails (hs : s.ready b) {v : Half} (h : rtuFailure b.rxbuf = some v) :
    exec .decapRtu s = endFail s { b with pbuf := [] } v := by
  simp only [exec, execDecapRtu, withRequester_ready hs, h]

theorem exec_decapRtu_valid (hs : s.ready b) (h : rtuFailure b.rxbuf = none) :
    exec .decapRtu s = endDone s { b with pbuf := rtuPdu b.rxbuf } := by
  simp only [exec, execDecapRtu, withRequester_ready hs, h]

theorem exec_xctxRtu_fails (hs : s.ready b) {v : Half} (h : rtuFailure b.rxbuf = some v) :
    exec .xctxRtu s = endFail s { b with ctxLen := .none } v := by
  simp only [exec, execXctxRtu, withRequester_ready hs, h]

theorem exec_xctxRtu_valid (hs : s.ready b) (h : rtuFailure b.rxbuf = none) :
    exec .xctxRtu s = endDone s { b with ctx := Ctx.ofUnit (b.rxbuf.headD 0), ctxLen := .rtu } := by
  simp only [exec, execXctxRtu, withRequester_ready hs, h]

theorem exec_decapTcp_violated (hs : s.ready b) (h : tcpDecap b.rxbuf = none) :
    exec .decapTcp s = endFatal s { b with pbuf := [] } .protocolViolation := by
  simp only [exec, execDecapTcp, withRequester_ready hs, h]

theorem exec_decapTcp_valid (hs : s.ready b) {pdu : List Byte} (h : tcpDecap b.rxbuf = some pdu) :
    exec .decapTcp s = endDone s { b with pbuf := pdu } := by
  simp only [exec, execDecapTcp, withRequester_ready hs, h]

theorem exec_xctxTcp_violated (hs : s.ready b) (h : tcpXctx b.rxbuf = none) :
    exec .xctxTcp s = endFatal s { b with ctxLen := .none } .protocolViolation := by
  simp only [exec, execXctxTcp, withRequester_ready hs, h]

theorem exec_xctxTcp_valid (hs : s.ready b) {x : Ctx} (h : tcpXctx b.rxbuf = some x) :
    exec .xctxTcp s = endDone s { b with ctx := x, ctxLen := .tcp } := by
  simp only [exec, execXctxTcp, withRequester_ready hs, h]

end

/-! ### A codec command twice -/

/-- On bank `b` the command ends with `e`, having made of the bank, before its verdict, `c`. -/
def EndsOn (i : Instr) (b c : Bank) (e : Ending) : Prop := ∀ s : State, s.ready b → exec i s = finish s c e

/-- The same verdict given twice is the verdict given once; the bit of `FLOG` stays set (R18, R189). -/
theorem ending_ending (b : Bank) (e : Ending) : (b.ending e).ending e = b.ending e := by
  cases e with
  | status v => rfl
  | fatal x =>
    have hflog : flogSet (flogSet b.flog x) x = flogSet b.flog x := by
      simp only [flogSet, BitVec.or_assoc, BitVec.or_self]
    simp only [Bank.ending, hflog]

/-- The port accepts the next command after one has ended. -/
theorem ready_conclude {s : State} {b : Bank} (hs : s.ready b) (c : Bank) (e : Ending) :
    (s.conclude s.active c e).ready (c.ending e) :=
  ⟨set_getElem? hs.1, hs.2⟩

/-- A codec command writes none of what it reads, so on the bank it leaves it takes the same branch and writes what is there (R50). -/
theorem codec_repeats {i : Instr}
    (hi : i.opcode ∈ [Opcode.mkctxRtu, .encapRtu, .decapRtu, .xctxRtu, .mkctxTcp, .encapTcp, .decapTcp, .xctxTcp]) (b : Bank) :
    ∃ c e, EndsOn i b c e ∧ EndsOn i (c.ending e) (c.ending e) e := by
  cases i with
  | mkctxRtu u q => exact ⟨_, _, fun s hs => exec_mkctxRtu hs u q, fun s hs => exec_mkctxRtu hs u q⟩
  | mkctxTcp u q => exact ⟨_, _, fun s hs => exec_mkctxTcp hs u q, fun s hs => exec_mkctxTcp hs u q⟩
  | encapRtu =>
    by_cases h : b.ctxLen = .rtu
    · exact ⟨_, _, fun s hs => exec_encapRtu_rtu hs h, fun s hs => (exec_encapRtu_rtu hs h :)⟩
    · exact ⟨_, _, fun s hs => exec_encapRtu_refused hs h, fun s hs => exec_encapRtu_refused hs h⟩
  | encapTcp =>
    by_cases h : b.ctxLen = .tcp
    · exact ⟨_, _, fun s hs => exec_encapTcp_tcp hs h, fun s hs => (exec_encapTcp_tcp hs h :)⟩
    · exact ⟨_, _, fun s hs => exec_encapTcp_refused hs h, fun s hs => exec_encapTcp_refused hs h⟩
  | decapRtu =>
    cases h : rtuFailure b.rxbuf with
    | some v => exact ⟨_, _, fun s hs => exec_decapRtu_fails hs h, fun s hs => exec_decapRtu_fails hs h⟩
    | none => exact ⟨_, _, fun s hs => exec_decapRtu_valid hs h, fun s hs => (exec_decapRtu_valid hs h :)⟩
  | xctxRtu =>
    cases h : rtuFailure b.rxbuf with
    | some v => exact ⟨_, _, fun s hs => exec_xctxRtu_fails hs h, fun s hs => exec_xctxRtu_fails hs h⟩
    | none => exact ⟨_, _, fun s hs => exec_xctxRtu_valid hs h, fun s hs => (exec_xctxRtu_valid hs h :)⟩
  | decapTcp =>
    cases h : tcpDecap b.rxbuf with
    | none => exact ⟨_, _, fun s hs => exec_decapTcp_violated hs h, fun s hs => exec_decapTcp_violated hs h⟩
    | some pdu => exact ⟨_, _, fun s hs => exec_decapTcp_valid hs h, fun s hs => exec_decapTcp_valid hs h⟩
  | xctxTcp =>
    cases h : tcpXctx b.rxbuf with
    | none => exact ⟨_, _, fun s hs => exec_xctxTcp_violated hs h, fun s hs => exec_xctxTcp_violated hs h⟩
    | some x => exact ⟨_, _, fun s hs => exec_xctxTcp_valid hs h, fun s hs => exec_xctxTcp_valid hs h⟩
  | _ => simp [Instr.opcode] at hi

/-- Settles O17: the second run finds the bank the first one left, and leaves it so. -/
theorem codecCommandsAreIdempotent : Obligations.CodecCommandsAreIdempotent := by
  intro i hi s b hs
  obtain ⟨c, e, hfirst, hsecond⟩ := codec_repeats hi b
  refine ⟨_, _, hfirst s hs, hsecond _ (ready_conclude hs c e), ?_⟩
  show (s.banks.set s.active (c.ending e)).set s.active ((c.ending e).ending e) = s.banks.set s.active (c.ending e)
  rw [ending_ending, List.set_set]

/-! ### What the lock protects -/

theorem sameShared_refl (s : State) : sameShared s s :=
  ⟨rfl, rfl, rfl, rfl, rfl, rfl, rfl, rfl, rfl, rfl, rfl, rfl⟩

/-- From `s` to `t` nothing changes of what the command of the lock's owner `r` works on (R52). -/
structure State.KeepsHeld (s t : State) (r : Nat) : Prop where
  shared : sameShared s t
  bank : t.banks[r]? = s.banks[r]?
  serq : t.serq = s.serq

/-- The ending of another requester's command. -/
theorem conclude_keepsHeld {s : State} {r q : Nat} (hq : s.lock = .held r) (hne : s.lock ≠ .held q) (b : Bank) (e : Ending) :
    s.KeepsHeld (s.conclude q b e) r where
  shared := sameShared_refl s
  bank := set_getElem?_other fun h => hne (h ▸ hq)
  serq := rfl

/-- While the lock is held, a command that is accepted waits or ends at once (R196). -/
theorem exec_keepsHeld {i : Instr} {s t : State} {r : Nat} (hl : s.lock = .held r) (h : exec i s = .next t) :
    s.KeepsHeld t r := by
  have hheld : s.lockFree ≠ true := fun hf => Lock.noConfusion ((lockFree_iff.mp hf).1.symm.trans hl)
  obtain ⟨b, hs, ⟨-, -, rfl⟩ | ⟨c, e, -, rfl⟩ | ⟨hf, -⟩⟩ := exec_next h
  · exact ⟨sameShared_refl t, rfl, rfl⟩
  · exact conclude_keepsHeld hl hs.2 c e
  · exact absurd hf hheld

/-- A line byte is due exactly when the line's first byte may have arrived (R33). -/
theorem lineDue_iff {s : State} : lineDue s = true ↔ ∃ a x rest, s.env.line = (a, x) :: rest ∧ a ≤ s.now := by
  unfold lineDue
  split <;> simp [*]

theorem nextTurn_line {s : State} (h : nextTurn s = .line) : lineDue s = true := by
  unfold nextTurn at h
  split at h
  · cases h
  · split at h
    · cases h
    · split at h
      · cases h
      · split at h
        · assumption
        · split at h <;> cases h

theorem deliverByte_cons {s : State} {a : Nat} {x : Byte} {rest : List (Nat × Byte)} (h : s.env.line = (a, x) :: rest) :
    deliverByte s = { s with serq := s.serq ++ [(x, s.now)], env := { s.env with line := rest } } := by
  simp only [deliverByte, h]

theorem deliverByte_sameShared (s : State) : sameShared s (deliverByte s) := by
  unfold deliverByte
  split <;> exact sameShared_refl s

/-- Settles O50: the turns left beside reset and sequencer are another requester's command, the line's and the passing of time. -/
theorem lockExcludesOtherCommands : Obligations.LockExcludesOtherCommands := by
  refine ⟨fun s t r hl h hreset hsequencer => ?_, fun s hline => ?_⟩
  · rcases step_next h with ⟨hr, -⟩ | ⟨q, u, hu, hk⟩ | ⟨hline, rfl⟩ | ⟨-, rfl⟩ | ⟨hq, -⟩
    · exact absurd hr hreset
    · have hsame := (selects_same hu).1
      have hlu : u.lock = .held r := by rw [hsame]; exact hl
      have hkeeps : u.KeepsHeld t r := by
        rcases hk with ⟨i, -, hi⟩ | ⟨b, x, -, hb, rfl⟩
        · exact exec_keepsHeld hlu hi
        · have hactive : u.active = q := by rw [hsame]
          exact conclude_keepsHeld hlu (hactive ▸ hb.2) b _
      rw [hsame] at hkeeps
      exact ⟨hkeeps.shared, hkeeps.bank, fun _ => hkeeps.serq⟩
    · exact ⟨deliverByte_sameShared s, by rw [deliverByte_banks], fun hn => absurd hline hn⟩
    · exact ⟨sameShared_refl s, rfl, fun _ => rfl⟩
    · exact absurd hq hsequencer
  · obtain ⟨a, x, rest, hfirst, hdue⟩ := lineDue_iff.mp (nextTurn_line hline)
    obtain ⟨-, -, -, hstep, -⟩ := stepWith_turn Config.params s
    exact ⟨a, x, rest, hfirst, hdue, by rw [step, hstep hline, deliverByte_cons hfirst]⟩

end Sys2Proof.Machine

/-!
PROOFS. The encoding (`30_encoding.md` R74, R75). Each operand reader takes exactly the bytes its operand is written as; so the decoder
accepts exactly the encodings of the well-formed commands, which is both directions of the round trip. Then what a step does with the
bytes at the command port.
-/

namespace Sys2Proof.Machine

/-! ### The operand readers -/

section
variable {bs rest : List Byte} {i : Instr}

theorem readByteOperand_eq_some_iff {mk : Byte → Instr} :
    readByteOperand mk bs = some (i, rest) ↔ ∃ b, i = mk b ∧ bs = b :: rest := by
  constructor
  · intro h
    match bs, h with
    | b :: _, h => cases h; exact ⟨b, rfl, rfl⟩
  · rintro ⟨b, rfl, rfl⟩
    rfl

theorem readContextOperands_eq_some_iff {mk : Byte → Half → Instr} :
    readContextOperands mk bs = some (i, rest) ↔ ∃ u q, i = mk u q ∧ bs = u :: bytesBE16 q ++ rest := by
  constructor
  · intro h
    match bs, h with
    | u :: s1 :: s0 :: _, h => cases h; exact ⟨u, be16 s1 s0, rfl, by rw [bytesBE16_be16]; rfl⟩
  · rintro ⟨u, q, rfl, rfl⟩
    simp only [bytesBE16, List.cons_append, List.nil_append, readContextOperands, be16_hi_lo]

theorem readWordOperand_eq_some_iff {mk : Word → Instr} :
    readWordOperand mk bs = some (i, rest) ↔ ∃ w, i = mk w ∧ bs = bytesBE32 w ++ rest := by
  constructor
  · intro h
    match bs, h with
    | b3 :: b2 :: b1 :: b0 :: _, h => cases h; exact ⟨be32 b3 b2 b1 b0, rfl, by rw [bytesBE32_be32]; rfl⟩
  · rintro ⟨w, rfl, rfl⟩
    simp only [bytesBE32, List.cons_append, List.nil_append, readWordOperand, be32_bytes]

theorem readReceiveOperands_eq_some_iff {mk : Word → Half → Instr} :
    readReceiveOperands mk bs = some (i, rest) ↔ ∃ t e, i = mk t e ∧ bs = bytesBE32 t ++ bytesBE16 e ++ rest := by
  constructor
  · intro h
    match bs, h with
    | t3 :: t2 :: t1 :: t0 :: e1 :: e0 :: _, h =>
      cases h
      exact ⟨be32 t3 t2 t1 t0, be16 e1 e0, rfl, by rw [bytesBE32_be32, bytesBE16_be16]; rfl⟩
  · rintro ⟨t, e, rfl, rfl⟩
    simp only [bytesBE32, bytesBE16, List.cons_append, List.nil_append, readReceiveOperands, be32_bytes, be16_hi_lo]

/-! ### The decoder accepts exactly the encodings -/

/-- What the operands of a command are written as is read back as that command (R74). -/
theorem readOperands_operandBytes (h : i.wellFormed = true) (rest : List Byte) :
    readOperands i.opcode (i.operandBytes ++ rest) = some (i, rest) := by
  cases i with
  | crcInit | encapRtu | decapRtu | xctxRtu | encapTcp | decapTcp | xctxTcp | tx => rfl
  | crcUpd b => exact readByteOperand_eq_some_iff.mpr ⟨b, rfl, rfl⟩
  | mkctxRtu u q | mkctxTcp u q => exact readContextOperands_eq_some_iff.mpr ⟨u, q, rfl, rfl⟩
  | rx t e | xchg t e => exact readReceiveOperands_eq_some_iff.mpr ⟨t, e, rfl, rfl⟩
  | setbaud w | setpoll w | seterr w => exact readWordOperand_eq_some_iff.mpr ⟨w, rfl, rfl⟩
  | loadP d | loadR d | loadC d | loadT d => exact readDataOperand_bytes _ h rest

/-- What the operand bytes of an opcode are read as is a well-formed command of that opcode, written as those bytes (R74). -/
theorem readOperands_some {o : Opcode} (h : readOperands o bs = some (i, rest)) :
    i.opcode = o ∧ i.wellFormed = true ∧ bs = i.operandBytes ++ rest := by
  cases o with
  | crcInit | encapRtu | decapRtu | xctxRtu | encapTcp | decapTcp | xctxTcp | tx => cases h; exact ⟨rfl, rfl, rfl⟩
  | crcUpd => obtain ⟨b, rfl, hbs⟩ := readByteOperand_eq_some_iff.mp h; exact ⟨rfl, rfl, hbs⟩
  | mkctxRtu | mkctxTcp => obtain ⟨u, q, rfl, hbs⟩ := readContextOperands_eq_some_iff.mp h; exact ⟨rfl, rfl, hbs⟩
  | rx | xchg => obtain ⟨t, e, rfl, hbs⟩ := readReceiveOperands_eq_some_iff.mp h; exact ⟨rfl, rfl, hbs⟩
  | setbaud | setpoll | seterr => obtain ⟨w, rfl, hbs⟩ := readWordOperand_eq_some_iff.mp h; exact ⟨rfl, rfl, hbs⟩
  | loadP | loadR | loadC | loadT => obtain ⟨d, rfl, hfits, hbs⟩ := readDataOperand_some h; exact ⟨rfl, hfits, hbs⟩

/-- The command at the front of a byte string: its encoding is what is taken off (R74). -/
theorem decodePrefix_eq_ok_iff :
    decodePrefix bs = .ok (i, rest) ↔ i.wellFormed = true ∧ bs = encode i ++ rest := by
  constructor
  · intro h
    match bs, h with
    | b :: tail, h =>
      simp only [decodePrefix] at h
      split at h
      · cases h
      · rename_i o ho
        split at h
        · cases h
        · rename_i hread
          cases h
          obtain ⟨rfl, hi, rfl⟩ := readOperands_some hread
          exact ⟨hi, by rw [encode, byte_of_opcodeOf? ho]; rfl⟩
  · rintro ⟨hi, rfl⟩
    simp only [encode, List.cons_append, decodePrefix, opcodeOf?_byte, readOperands_operandBytes hi]

/-- A whole command leaves no bytes over (D28). -/
theorem decode_eq_ok_iff_decodePrefix : decode bs = .ok i ↔ decodePrefix bs = .ok (i, []) := by
  unfold decode
  rcases decodePrefix bs with e | ⟨j, _ | ⟨x, tail⟩⟩ <;> simp

/-- The decoder accepts exactly the encodings of the well-formed commands (R74). -/
theorem decode_eq_ok_iff : decode bs = .ok i ↔ i.wellFormed = true ∧ encode i = bs := by
  rw [decode_eq_ok_iff_decodePrefix, decodePrefix_eq_ok_iff, List.append_nil, eq_comm (a := bs)]

end

/-- Settles O37: an encoding is one of the byte strings the decoder accepts. -/
theorem decodeEncodeRoundTrip : Obligations.DecodeEncodeRoundTrip :=
  fun _ hi => decode_eq_ok_iff.mpr ⟨hi, rfl⟩

/-- Settles O38: the decoder accepts nothing but encodings. -/
theorem decodedBytesAreTheEncoding : Obligations.DecodedBytesAreTheEncoding :=
  fun _ _ h => decode_eq_ok_iff.mp h

/-! ### Illegal opcodes and the words of the table -/

/-- A first byte that the column of R74 does not list stands for no opcode (R75). -/
theorem opcodeOf?_unlisted {x : Byte} (hx : x ∉ [0x01#8, 0x02#8, 0x10#8, 0x11#8, 0x12#8, 0x13#8, 0x18#8, 0x19#8, 0x1A#8, 0x1B#8,
    0x20#8, 0x21#8, 0x22#8, 0x30#8, 0x31#8, 0x32#8, 0x40#8, 0x41#8, 0x42#8, 0x43#8]) : opcodeOf? x = none := by
  refine opcodeOf?_eq_none.mpr fun o ho => hx ?_
  rw [← ho]
  cases o <;> decide

/-- An illegal first byte decides the answer, whatever follows it (R75). -/
theorem decode_illegalOpcode {x : Byte} (hx : opcodeOf? x = none) (bs : List Byte) :
    decode (x :: bs) = .error (.illegalOpcode x) := by
  simp only [decode, decodePrefix, hx]

/-- Settles O39: each legal word is the encoding of its command, and 03 is unlisted. -/
theorem wordsDecodeAsTheTableSays : Obligations.WordsDecodeAsTheTableSays := by
  refine ⟨?_, ?_, ?_, ?_, ?_, ?_, decode_illegalOpcode (opcodeOf?_unlisted (by decide)) []⟩ <;>
    exact decode_eq_ok_iff.mpr ⟨rfl, rfl⟩

/-! ### What a step does with the bytes at the command port -/

section
variable {s : State} {r : Nat} {c : Issue} {rest : List Issue}

theorem runCommand_ok {i : Instr} (hc : s.env.hosts.getD r [] = c :: rest) (hi : decode c.bytes = .ok i) :
    runCommand r s = exec i s := by
  simp only [runCommand, portCommand_of hc, hi]

theorem runCommand_error {e : DecodeError} (hc : s.env.hosts.getD r [] = c :: rest) (he : decode c.bytes = .error e) :
    runCommand r s = undecoded e s := by
  simp only [runCommand, portCommand_of hc, he]

end

/-- `fatal(ILLEGAL_COMMAND)`: the ending of R75 is its whole effect, and its bit of `FLOG` is bit 5 (R67). -/
theorem illegalCommand_endsInError {s : State} {b : Bank} (hb : s.ready b) :
    EndsInError s { b with status := 0x8000#16, fault := .raised .illegalCommand, flog := b.flog ||| 0x20#8 } (illegalCommand s) :=
  ⟨.fatal .illegalCommand, by rw [illegalCommand, withRequester_ready hb, endFatal_eq]; rfl⟩

/-- Settles O40: the first byte alone makes the decoder answer `illegalOpcode`, which the step ends fatally. -/
theorem illegalCommandEndsFatally : Obligations.IllegalCommandEndsFatally := by
  intro s r b x bs due rest hx hturn hport hready
  obtain ⟨-, hcommand, -⟩ := stepWith_turn Config.params s
  have hstep : step s = illegalCommand (s.select r) :=
    calc step s = runCommand r (s.select r) := hcommand r hturn
      _ = undecoded (.illegalOpcode x) (s.select r) :=
        runCommand_error (c := ⟨due, x :: bs⟩) hport (decode_illegalOpcode (opcodeOf?_unlisted hx) bs)
  rw [hstep]
  exact illegalCommand_endsInError hready

/-- Settles O41: selecting a requester leaves the bytes at its port as they are, at its own turn and by a grant. -/
theorem stepRunsTheDecodedCommand : Obligations.StepRunsTheDecodedCommand := by
  intro s r c rest i hport hi
  obtain ⟨-, hcommand, hgrant, -⟩ := stepWith_turn Config.params s
  have hgranted : (s.selectGranted r).env.hosts.getD r [] = c :: rest := by
    show s.env.takeGrant.hosts.getD r [] = c :: rest
    rw [takeGrant_hosts, hport]
  exact ⟨fun hturn => (hcommand r hturn).trans (runCommand_ok hport hi),
    fun hturn => (hgrant r hturn).trans (runCommand_ok hgranted hi)⟩

end Sys2Proof.Machine

/-!
PROOFS. The CRC generator and its two commands (`41_crc.md` R91 to R97). First the generator run over a sequence of bytes: injective in its
register, linear over exclusive-or, and taken to zero by exactly one pair of bytes. Then the commands, and their run over a sequence.
-/

namespace Sys2Proof.Machine

/-! ### One byte -/

theorem crcShifts_eq_iterate (k : Nat) (c : Half) : crcShifts k c = crcShift^[k] c := by
  induction k generalizing c with
  | zero => rfl
  | succ k ih => exact ih (crcShift c)

theorem crcByte_injective_byte (c : Half) : Function.Injective fun b : Byte => crcByte c b := by
  intro a b h
  have hin : c ^^^ zext16 a = c ^^^ zext16 b := crcShifts_injective 8 h
  rw [BitVec.xor_comm c, BitVec.xor_comm c] at hin
  exact zext16_injective (half_xor_cancel hin)

/-- The byte may enter before the zero byte is run in (R93). -/
theorem crcByte_eq_crcByte_zero (c : Half) (b : Byte) : crcByte c b = crcByte (c ^^^ zext16 b) 0#8 := by
  have h : c ^^^ zext16 b ^^^ zext16 0#8 = c ^^^ zext16 b := BitVec.xor_zero
  rw [crcByte, crcByte, h]

/-- Only a register that holds a byte is taken to zero by one byte, and 0xFFFF holds none (R96). -/
theorem crcByte_init_ne_zero (b : Byte) : crcByte Config.CRC_INIT b ≠ 0#16 := by
  intro h
  have hnat : 0xFFFF = b.toNat % 65536 := by simpa using congrArg BitVec.toNat (crcByte_eq_zero h)
  have hlt := b.isLt
  omega

/-! ### A sequence of bytes -/

theorem crc16_concat (f : List Byte) (b : Byte) : crc16 (f ++ [b]) = crcByte (crc16 f) b := crc16_append f [b]

theorem crcRun_injective (g : List Byte) : Function.Injective fun c : Half => crcRun c g := by
  induction g with
  | nil => exact fun _ _ h => h
  | cons b g ih => exact fun _ _ h => crcByte_injective b (ih h)

/-- The run is linear over exclusive-or of sequences of one length (R93). -/
theorem crcRun_xor (c d : Half) (f g : List Byte) (h : f.length = g.length) :
    crcRun (c ^^^ d) (List.zipWith (· ^^^ ·) f g) = crcRun c f ^^^ crcRun d g := by
  induction f generalizing c d g with
  | nil =>
    obtain rfl := List.length_eq_zero_iff.mp h.symm
    rfl
  | cons a f ih =>
    match g, h with
    | b :: g, h =>
      have hstep := ih (crcByte c a) (crcByte d b) g (Nat.succ.inj h)
      rwa [← crcByte_xor] at hstep

/-- Three start values of 0xFFFF cancel to one, so `CRC16` is affine (R93). -/
theorem crc16_zipWith_xor {f g h : List Byte} (hfg : f.length = g.length) (hgh : g.length = h.length) :
    crc16 (List.zipWith (· ^^^ ·) (List.zipWith (· ^^^ ·) f g) h) = crc16 f ^^^ crc16 g ^^^ crc16 h := by
  have hinit : Config.CRC_INIT = Config.CRC_INIT ^^^ Config.CRC_INIT ^^^ Config.CRC_INIT := by decide
  have hlen : (List.zipWith (· ^^^ ·) f g).length = h.length := by
    rw [List.length_zipWith, hfg, Nat.min_self, hgh]
  calc crc16 (List.zipWith (· ^^^ ·) (List.zipWith (· ^^^ ·) f g) h)
      = crcRun (Config.CRC_INIT ^^^ Config.CRC_INIT ^^^ Config.CRC_INIT)
          (List.zipWith (· ^^^ ·) (List.zipWith (· ^^^ ·) f g) h) := by rw [← hinit, crc16]
    _ = crc16 f ^^^ crc16 g ^^^ crc16 h := by rw [crcRun_xor _ _ _ _ hlen, crcRun_xor _ _ _ _ hfg]; rfl

/-- Exactly one pair of bytes takes a register to zero: its own, low byte first. Another pair is that of another register, which it would
take to zero as well (R96). -/
theorem crcRun_pair_eq_zero_iff (c : Half) (a b : Byte) : crcRun c [a, b] = 0#16 ↔ a = lo8 c ∧ b = hi8 c := by
  constructor
  · intro h
    have hown := crcByte_residue (be16 b a)
    rw [lo8_be16, hi8_be16] at hown
    obtain rfl : c = be16 b a := crcRun_injective [a, b] (h.trans hown.symm)
    exact ⟨(lo8_be16 b a).symm, (hi8_be16 b a).symm⟩
  · rintro ⟨rfl, rfl⟩
    exact crcByte_residue c

/-- Two frames that differ in one byte have different CRCs: the run after that byte is injective in the register. -/
theorem crc16_ne_of_byte_ne (f g : List Byte) {x y : Byte} (h : x ≠ y) : crc16 (f ++ x :: g) ≠ crc16 (f ++ y :: g) := by
  rw [crc16_append, crc16_append]
  exact fun heq => h (crcByte_injective_byte _ (crcRun_injective g heq))

theorem xor_bit_ne (x : Byte) {k : Nat} (hk : k < 8) : x ≠ x ^^^ (1#8 <<< k) := by
  intro h
  have hbit := congrArg (fun v => v.getLsbD k) h
  simp [hk] at hbit

/-! ### The commands -/

section
variable {s : State} {b : Bank}

theorem exec_crcInit (hs : s.ready b) :
    exec .crcInit s = .next (s.endedWith { b with crc := 0xFFFF#16, status := 0#16, fault := .none }) := by
  rw [exec, execCrcInit, withRequester_ready hs, endDone_eq]

theorem exec_crcUpd (hs : s.ready b) (x : Byte) :
    exec (.crcUpd x) s = .next (s.endedWith { b with crc := crcByte b.crc x, status := 0#16, fault := .none }) := by
  rw [exec, execCrcUpd, withRequester_ready hs, endDone_eq]

theorem execAll_cons_of_next {i : Instr} {t : State} (h : exec i s = .next t) (is : List Instr) :
    execAll (i :: is) s = execAll is t := by
  rw [execAll, h]

/-- `CRC.UPD` of each byte runs the register on over the sequence, from whatever it holds (R95). -/
theorem execAll_crcUpd (hs : s.ready b) (f : List Byte) :
    ∃ t c, execAll (f.map .crcUpd) s = .next t ∧ t.banks[s.active]? = some c ∧ c.crc = crcRun b.crc f := by
  induction f generalizing s b with
  | nil => exact ⟨s, b, rfl, hs.1, rfl⟩
  | cons x f ih =>
    rw [List.map_cons, execAll_cons_of_next (exec_crcUpd hs x)]
    exact ih (ready_endedWith hs)

end

/-! ### The statements -/

/-- Settles O1: the eight shifts are the loop's, and the last byte of a sequence is run in last. -/
theorem crcFollowsTheBitLoop : Obligations.CrcFollowsTheBitLoop :=
  ⟨fun c b => crcShifts_eq_iterate 8 (c ^^^ zext16 b), rfl, crc16_concat⟩

/-- Settles O2. The register takes finitely many values, so injective there is bijective. -/
theorem crcUnitLaws : Obligations.CrcUnitLaws :=
  ⟨fun b => Finite.injective_iff_bijective.mp (crcByte_injective b), crcByte_injective_byte, crcByte_eq_crcByte_zero, crcByte_zero,
    fun f hf => by rw [crc16_concat, hf, crcByte_zero], fun _ _ _ hfg hgh => crc16_zipWith_xor hfg hgh⟩

/-- Settles O3, by the one pair of bytes that takes a register to zero; that of 0xFFFF is `FF FF`. -/
theorem crcResidueIsZero : Obligations.CrcResidueIsZero := by
  refine ⟨fun f => ?_, fun a b => ?_, crcByte_init_ne_zero, rfl⟩
  · rw [crc16_append]
    exact (crcRun_pair_eq_zero_iff _ _ _).mpr ⟨rfl, rfl⟩
  · exact crcRun_pair_eq_zero_iff Config.CRC_INIT a b

/-- Settles O4: the flipped frame differs in one byte, so its CRC is not that of the frame. -/
theorem crcDetectsSingleBitError : Obligations.CrcDetectsSingleBitError :=
  fun f g x _ hk h hflipped => crc16_ne_of_byte_ne f g (xor_bit_ne x hk) (h.trans hflipped.symm)

/-- Settles O5. -/
theorem crcInitSetsTheRegister : Obligations.CrcInitSetsTheRegister :=
  ⟨rfl, fun _ _ hs => exec_crcInit hs⟩

/-- Settles O6: `CRC.INIT` starts the run of `CRC.UPD` from 0xFFFF. -/
theorem crcUpdContinuesTheRegister : Obligations.CrcUpdContinuesTheRegister := by
  refine ⟨fun _ => rfl, fun _ _ x hs => exec_crcUpd hs x, fun s b f hs => ?_, rfl, by decide⟩
  rw [execAll_cons_of_next (exec_crcInit hs)]
  exact execAll_crcUpd (ready_endedWith hs) f

end Sys2Proof.Machine

/-!
PROOFS. The RTU codec (`42_rtu_codec.md` R100 to R104). First the pure functions: the frame the encoder makes is one the decoder accepts and
takes apart. Then the commands: the two loads, and how a failing command ends. Then a list of commands, run one after another, and the round
trip as two such runs.
-/

namespace Sys2Proof.Machine

/-! ### The frame -/

/-- The check bytes the encoder appends take the CRC to zero (R96). -/
theorem crc16_rtuEncap (u : Byte) (pdu : List Byte) : crc16 (rtuEncap u pdu) = 0#16 :=
  (crc16_append (u :: pdu) _).trans (crcByte_residue (crc16 (u :: pdu)))

/-- A PDU of at most 253 bytes makes a frame of 3 to 256 bytes (R41, R102). -/
theorem rtuFailure_rtuEncap (u : Byte) {pdu : List Byte} (h : pdu.length ≤ 253) : rtuFailure (rtuEncap u pdu) = none := by
  have hlen := rtuEncap_length u pdu
  exact rtuFailure_valid (by omega) (by omega) (crc16_rtuEncap u pdu)

theorem rtuPdu_rtuEncap (u : Byte) (pdu : List Byte) : rtuPdu (rtuEncap u pdu) = pdu := by
  rw [rtuPdu, rtuEncap_length, Nat.add_sub_cancel]
  exact List.take_left

/-- The statuses of R102 are negative, so a failing command gets its `ERROR` record (R35). -/
theorem rtuFailure_negative {f : List Byte} {v : Half} (h : rtuFailure f = some v) : v.msb = true := by
  rcases rtuFailure_some h with rfl | rfl
  · rfl
  · rfl

/-! ### The commands -/

section
variable {s : State} {b : Bank}

theorem exec_loadP_fits (hs : s.ready b) {data : List Byte} (h : data.length ≤ 253) :
    exec (.loadP data) s = endDone s { b with pbuf := data } := by
  rw [exec, execLoadP, withRequester_ready hs]
  exact if_pos h

theorem exec_loadR_fits (hs : s.ready b) {data : List Byte} (h : data.length ≤ 260) :
    exec (.loadR data) s = endDone s { b with rxbuf := data } := by
  rw [exec, execLoadR, withRequester_ready hs]
  exact if_pos h

theorem decapRtu_endsInError (hs : s.ready b) {v : Half} (h : rtuFailure b.rxbuf = some v) :
    EndsInError s { b with pbuf := [], status := v, fault := .none } (exec .decapRtu s) :=
  ⟨_, (exec_decapRtu_fails hs h).trans (endFail_eq s _ (rtuFailure_negative h))⟩

theorem xctxRtu_endsInError (hs : s.ready b) {v : Half} (h : rtuFailure b.rxbuf = some v) :
    EndsInError s { b with ctxLen := .none, status := v, fault := .none } (exec .xctxRtu s) :=
  ⟨_, (exec_xctxRtu_fails hs h).trans (endFail_eq s _ (rtuFailure_negative h))⟩

end

/-! ### Commands run one after another -/

/-- The commands `is`, run from `s`, all complete (R53). They leave the active requester a bank of which `P` holds, and its port accepts the
next command. -/
def State.RunsTo (s : State) (is : List Instr) (P : Bank → Prop) : Prop :=
  ∃ t c, execAll is s = .next t ∧ t.active = s.active ∧ t.ready c ∧ P c

section
variable {s : State} {b : Bank} {P : Bank → Prop}

theorem runsTo_nil (hs : s.ready b) (h : P b) : s.RunsTo [] P := ⟨s, b, rfl, rfl, hs, h⟩

/-- A command that completes hands over to the next one (R53). -/
theorem runsTo_cons {i : Instr} {is : List Instr} {c : Bank} (hs : s.ready b) (hi : exec i s = endDone s c)
    (his : ∀ t : State, t.ready (c.ending (.status SUCCESS)) → t.RunsTo is P) : s.RunsTo (i :: is) P := by
  obtain ⟨t, d, hrun, hrest⟩ := his _ (ready_conclude hs c (.status SUCCESS))
  exact ⟨t, d, (execAll_cons_of_next hi is).trans hrun, hrest⟩

/-- The bank a run leaves, by the number of the requester the run began with. -/
theorem runsTo_bank {is : List Instr} (h : s.RunsTo is P) :
    ∃ t c, execAll is s = .next t ∧ t.banks[s.active]? = some c ∧ P c := by
  obtain ⟨t, c, hrun, hactive, ⟨hbank, -⟩, hc⟩ := h
  exact ⟨t, c, hrun, hactive ▸ hbank, hc⟩

/-- `LOAD.P`, `MKCTX.RTU`, `ENCAP.RTU` leave the frame in `TXBUF`. -/
theorem encapRtu_runsTo (hs : s.ready b) (u : Byte) (q : Half) {pdu : List Byte} (h : pdu.length ≤ 253) :
    s.RunsTo [.loadP pdu, .mkctxRtu u q, .encapRtu] fun c => c.txbuf = rtuEncap u pdu :=
  runsTo_cons hs (exec_loadP_fits hs h) fun _ h1 =>
  runsTo_cons h1 (exec_mkctxRtu h1 u q) fun _ h2 =>
  runsTo_cons h2 (exec_encapRtu_rtu h2 rfl) fun _ h3 => runsTo_nil h3 rfl

/-- `LOAD.R`, `DECAP.RTU` on a frame the decoder accepts leave its PDU in `PBUF`. -/
theorem decapRtu_runsTo (hs : s.ready b) {f : List Byte} (h : rtuFailure f = none) :
    s.RunsTo [.loadR f, .decapRtu] fun c => c.pbuf = rtuPdu f ∧ c.status = 0#16 := by
  obtain ⟨-, hlen, -⟩ := rtuFailure_none h
  exact runsTo_cons hs (exec_loadR_fits hs (by omega)) fun _ h1 =>
    runsTo_cons h1 (exec_decapRtu_valid h1 h) fun _ h2 => runsTo_nil h2 ⟨rfl, rfl⟩

/-- `LOAD.R`, `XCTX.RTU` on a frame the decoder accepts leave its first byte in `CTX[0]`. -/
theorem xctxRtu_runsTo (hs : s.ready b) {f : List Byte} (h : rtuFailure f = none) :
    s.RunsTo [.loadR f, .xctxRtu] fun c => c.ctx.b0 = f.headD 0 ∧ c.status = 0#16 := by
  obtain ⟨-, hlen, -⟩ := rtuFailure_none h
  exact runsTo_cons hs (exec_loadR_fits hs (by omega)) fun _ h1 =>
    runsTo_cons h1 (exec_xctxRtu_valid h1 h) fun _ h2 => runsTo_nil h2 ⟨rfl, rfl⟩

end

/-! ### The statements -/

/-- Settles O7. -/
theorem makeContextRtuKeepsTheUnit : Obligations.MakeContextRtuKeepsTheUnit :=
  ⟨fun _ _ => rfl, fun s _ u q hs => (exec_mkctxRtu hs u q).trans (endDone_eq s _)⟩

/-- Settles O8: the two branches of `ENCAP.RTU`, completed and refused. -/
theorem encapRtuAppendsTheCrc : Obligations.EncapRtuAppendsTheCrc :=
  ⟨rfl, fun s b hs =>
    ⟨fun h => (exec_encapRtu_rtu hs h).trans (endDone_eq s _),
      fun h => ⟨_, (exec_encapRtu_refused hs h).trans (endRefuse_eq s b)⟩⟩⟩

/-- Settles O9: the two failures of the decoder, and its success. -/
theorem decapRtuChecksThenUnwraps : Obligations.DecapRtuChecksThenUnwraps :=
  ⟨rfl, fun s _ hs =>
    ⟨fun h => decapRtu_endsInError hs (rtuFailure_length h),
      fun h3 h256 h => decapRtu_endsInError hs (rtuFailure_crc h3 h256 h),
      fun h3 h256 h => (exec_decapRtu_valid hs (rtuFailure_valid h3 h256 h)).trans (endDone_eq s _)⟩⟩

/-- Settles O10: the failures of the decoder, and the first byte of a frame it accepts. -/
theorem extractContextRtuTakesTheUnit : Obligations.ExtractContextRtuTakesTheUnit := by
  refine ⟨rfl, fun s b hs => ⟨fun h => xctxRtu_endsInError hs (rtuFailure_length h),
    fun h3 h256 h => xctxRtu_endsInError hs (rtuFailure_crc h3 h256 h), fun u rest hf h3 h256 h => ?_⟩⟩
  rw [exec_xctxRtu_valid hs (rtuFailure_valid h3 h256 h), endDone_eq, hf]
  rfl

/-- Settles O11: the frame the first run leaves is one the decoder accepts, with the PDU inside and the unit id in front. -/
theorem rtuRoundTrip : Obligations.RtuRoundTrip := by
  intro s b u q pdu hs hpdu
  obtain ⟨t1, b1, hrun, hactive, hready, htx⟩ := encapRtu_runsTo hs u q hpdu
  have hvalid := rtuFailure_rtuEncap u hpdu
  have hdecap := runsTo_bank (decapRtu_runsTo hready hvalid)
  have hxctx := runsTo_bank (xctxRtu_runsTo hready hvalid)
  rw [rtuPdu_rtuEncap] at hdecap
  refine ⟨t1, b1, hrun, ?_⟩
  rw [htx, ← hactive]
  exact ⟨hready.1, hdecap, hxctx⟩

end Sys2Proof.Machine

/-!
PROOFS. The MBAP codec (`43_mbap_codec.md` R110 to R115). First the pure functions: the frame the encoder makes is one the decoder accepts and
takes apart. Then how a violation ends a command, the three runs of the round trip, and the statements.
-/

namespace Sys2Proof.Machine

/-! ### The frame -/

/-- A frame with a header: the bytes its length field is to count (R112). -/
theorem adu_countedLength {f pdu : List Byte} {x0 x1 x2 x3 x4 x5 u : Byte} (hf : f = [x0, x1, x2, x3, x4, x5, u] ++ pdu) :
    f.length - 6 = pdu.length + 1 := by
  rw [hf]
  rfl

/-- The two bytes of a length below 65536 are read back as that length (R64). -/
theorem lengthBytes_toNat {n : Nat} (h : n < 65536) :
    256 * (hi8 (BitVec.ofNat 16 n)).toNat + (lo8 (BitVec.ofNat 16 n)).toNat = n := by
  rw [← be16_toNat, be16_hi_lo, BitVec.toNat_ofNat]
  exact Nat.mod_eq_of_lt h

/-- The encoder's frame in the form in which the decoder reads one: its header is the context, with the length field written. -/
theorem tcpEncap_frame (x : Ctx) (pdu : List Byte) :
    tcpEncap x pdu = [x.b0, x.b1, x.b2, x.b3, hi8 (BitVec.ofNat 16 (pdu.length + 1)),
      lo8 (BitVec.ofNat 16 (pdu.length + 1)), x.b6] ++ pdu :=
  rfl

/-- The length field the encoder writes is the one the decoder computes (R115). -/
theorem tcpDecap_tcpEncap (x : Ctx) {pdu : List Byte} (h : pdu.length + 1 < 65536) : tcpDecap (tcpEncap x pdu) = some pdu := by
  rw [tcpEncap_frame, tcpDecap_frame]
  exact if_pos (lengthBytes_toNat h)

/-- A context made by `MKCTX.TCP` has protocol id zero, so its frame gives back the header (R115). -/
theorem tcpXctx_tcpEncap (u : Byte) (q : Half) (pdu : List Byte) :
    tcpXctx (tcpEncap (Ctx.ofUnitSequence u q) pdu) = some { Ctx.ofUnitSequence u q with
      b4 := hi8 (BitVec.ofNat 16 (pdu.length + 1)), b5 := lo8 (BitVec.ofNat 16 (pdu.length + 1)) } := by
  rw [tcpEncap_frame, tcpXctx_frame]
  exact if_pos rfl

/-! ### The commands -/

section
variable {s : State} {b : Bank}

/-- `fatal(PROTOCOL_VIOLATION)` (R189). -/
theorem endFatal_violated (s : State) (b : Bank) :
    endFatal s b .protocolViolation = .next (s.endedInError b.violated (.fatal .protocolViolation)) :=
  endFatal_eq s b .protocolViolation

theorem decapTcp_endsInError (hs : s.ready b) (h : tcpDecap b.rxbuf = none) :
    EndsInError s ({ b with pbuf := [] }.violated) (exec .decapTcp s) :=
  ⟨_, (exec_decapTcp_violated hs h).trans (endFatal_violated s _)⟩

theorem xctxTcp_endsInError (hs : s.ready b) (h : tcpXctx b.rxbuf = none) :
    EndsInError s ({ b with ctxLen := .none }.violated) (exec .xctxTcp s) :=
  ⟨_, (exec_xctxTcp_violated hs h).trans (endFatal_violated s _)⟩

/-- `LOAD.P`, `MKCTX.TCP`, `ENCAP.TCP` leave the frame in `TXBUF`. -/
theorem encapTcp_runsTo (hs : s.ready b) (u : Byte) (q : Half) {pdu : List Byte} (h : pdu.length ≤ 253) :
    s.RunsTo [.loadP pdu, .mkctxTcp u q, .encapTcp] fun c => c.txbuf = tcpEncap (Ctx.ofUnitSequence u q) pdu :=
  runsTo_cons hs (exec_loadP_fits hs h) fun _ h1 =>
  runsTo_cons h1 (exec_mkctxTcp h1 u q) fun _ h2 =>
  runsTo_cons h2 (exec_encapTcp_tcp h2 rfl) fun _ h3 => runsTo_nil h3 rfl

/-- `LOAD.R`, `DECAP.TCP` on a frame the decoder accepts leave its PDU in `PBUF`. -/
theorem decapTcp_runsTo (hs : s.ready b) {f pdu : List Byte} (hfits : f.length ≤ 260) (h : tcpDecap f = some pdu) :
    s.RunsTo [.loadR f, .decapTcp] fun c => c.pbuf = pdu ∧ c.status = 0#16 :=
  runsTo_cons hs (exec_loadR_fits hs hfits) fun _ h1 =>
  runsTo_cons h1 (exec_decapTcp_valid h1 h) fun _ h2 => runsTo_nil h2 ⟨rfl, rfl⟩

/-- `LOAD.R`, `XCTX.TCP` on a frame of protocol id zero leave its header in `CTX`. -/
theorem xctxTcp_runsTo (hs : s.ready b) {f : List Byte} {x : Ctx} (hfits : f.length ≤ 260) (h : tcpXctx f = some x) :
    s.RunsTo [.loadR f, .xctxTcp] fun c => c.ctx = x :=
  runsTo_cons hs (exec_loadR_fits hs hfits) fun _ h1 =>
  runsTo_cons h1 (exec_xctxTcp_valid h1 h) fun _ h2 => runsTo_nil h2 rfl

end

/-! ### The statements -/

/-- Settles O12. -/
theorem makeContextTcpBuildsTheHeader : Obligations.MakeContextTcpBuildsTheHeader :=
  ⟨fun _ _ => rfl, fun s _ u q hs => (exec_mkctxTcp hs u q).trans (endDone_eq s _)⟩

/-- Settles O13: the two branches of `ENCAP.TCP`, completed and refused. -/
theorem encapTcpWritesTheLength : Obligations.EncapTcpWritesTheLength := by
  refine ⟨rfl, fun s b hs => ⟨fun h => ?_, fun h => ⟨_, (exec_encapTcp_refused hs h).trans (endRefuse_eq s b)⟩⟩⟩
  rw [exec_encapTcp_tcp hs h, endDone_eq, tcpEncap_frame]

/-- Settles O14: no header, a wrong length field, the right one. -/
theorem decapTcpChecksTheLength : Obligations.DecapTcpChecksTheLength := by
  refine ⟨rfl, fun s b hs => ⟨fun h => decapTcp_endsInError hs (tcpDecap_short h), fun x0 x1 x2 x3 l1 l0 u pdu hf => ?_⟩⟩
  have hdecap := hf ▸ tcpDecap_frame x0 x1 x2 x3 l1 l0 u pdu
  rw [adu_countedLength hf]
  exact ⟨fun h => decapTcp_endsInError hs (hdecap.trans (if_neg h)),
    fun h => (exec_decapTcp_valid hs (hdecap.trans (if_pos h))).trans (endDone_eq s _)⟩

/-- Settles O15: no header, a protocol id that is not zero, zero. -/
theorem extractContextTcpChecksTheProtocol : Obligations.ExtractContextTcpChecksTheProtocol := by
  refine ⟨rfl, fun s b hs => ⟨fun h => xctxTcp_endsInError hs (tcpXctx_short h), fun x0 x1 p1 p0 x4 x5 u pdu hf => ?_⟩⟩
  have hxctx := hf ▸ tcpXctx_frame x0 x1 p1 p0 x4 x5 u pdu
  exact ⟨fun h => xctxTcp_endsInError hs (hxctx.trans (if_neg h)),
    fun h => (exec_xctxTcp_valid hs (hxctx.trans (if_pos h))).trans (endDone_eq s _)⟩

/-- Settles O16: the frame the first run leaves fits in `RXBUF`, and is one both parsers accept. -/
theorem tcpRoundTrip : Obligations.TcpRoundTrip := by
  intro s b u q pdu hs hpdu
  obtain ⟨t1, b1, hrun, hactive, hready, htx⟩ := encapTcp_runsTo hs u q hpdu
  have hfits : (tcpEncap (Ctx.ofUnitSequence u q) pdu).length ≤ 260 := by
    rw [tcpEncap_length]
    omega
  have hdecap := runsTo_bank (decapTcp_runsTo hready hfits (tcpDecap_tcpEncap _ (by omega)))
  obtain ⟨t3, b3, hxctx, hbank, hctx⟩ := runsTo_bank (xctxTcp_runsTo hready hfits (tcpXctx_tcpEncap u q pdu))
  refine ⟨t1, b1, hrun, ?_⟩
  rw [htx, ← hactive]
  refine ⟨hready.1, hdecap, t3, b3, hxctx, hbank, ?_⟩
  rw [hctx]
  exact ⟨rfl, rfl, rfl, rfl⟩

end Sys2Proof.Machine

/-!
PROOFS. The sequencer, one transition at a time (`44_transport.md` R123 to R139). First when it is its turn; then the equation of each
transition, by state and by what ends it; then the statements, in the order of the rules.
-/

namespace Sys2Proof.Machine

/-! ### Whose turn -/

/-- The three states in which the sequencer receives (R130, R133, R135). -/
def Fsm.Receives (f : Fsm) : Prop := f = .head ∨ f = .bodyLen ∨ f = .bodyGap

section
variable {s : State}

/-- It is the sequencer's turn when its condition holds and nothing urgent comes first (R123, R143). -/
theorem nextTurn_sequencer_iff : nextTurn s = .sequencer ↔
    (resetDue s = false ∧ firstRequester (runnable s) 0 s.env.hosts = none ∧ grantTo s = none ∧ lineDue s = false) ∧
      sequencerReady s = true := by
  constructor
  · intro h
    obtain ⟨hreset, hcommand, hgrant, hline, hready⟩ := nextTurn_idle (.inl h)
    exact ⟨⟨hreset, hcommand, hgrant, hline⟩, hready.mp h⟩
  · rintro ⟨⟨hreset, hcommand, hgrant, hline⟩, hready⟩
    rw [nextTurn_of_idle hreset hcommand hgrant hline, if_pos hready]

/-- Time passes only when the sequencer's condition does not hold (R143). -/
theorem nextTurn_ne_tick (h : sequencerReady s = true) : nextTurn s ≠ .tick := by
  intro ht
  obtain ⟨-, -, -, -, hready⟩ := nextTurn_idle (.inr ht)
  exact Turn.noConfusion ((hready.mpr h).symm.trans ht)

theorem nextTurn_ne_sequencer (h : ¬ sequencerReady s = true) : nextTurn s ≠ .sequencer :=
  fun ht => h (nextTurn_sequencer_iff.mp ht).2

theorem sequencerReady_pace (hf : s.fsm = .pace) : sequencerReady s = true ↔ s.lastPoll + s.delayPoll.toNat ≤ s.now := by
  simp [sequencerReady, hf]

theorem sequencerReady_send (hf : s.fsm = .send) : sequencerReady s = true ↔ s.sendEnd ≤ s.now := by
  simp [sequencerReady, hf]

theorem sequencerReady_receives (hf : s.fsm.Receives) : sequencerReady s = true ↔ s.serq ≠ [] ∨ s.deadline ≤ s.now := by
  rcases hf with hf | hf | hf <;> simp [sequencerReady, hf]

/-- The condition of the sequencer's next transition, by state (R123). -/
theorem sequencerReady_iff : sequencerReady s = true ↔
    (s.fsm = .pace ∧ s.lastPoll + s.delayPoll.toNat ≤ s.now) ∨ (s.fsm = .send ∧ s.sendEnd ≤ s.now) ∨
      (s.fsm.Receives ∧ (s.serq ≠ [] ∨ s.deadline ≤ s.now)) := by
  cases hf : s.fsm with
  | idle => simp [sequencerReady, hf, Fsm.Receives]
  | pace => simp [sequencerReady_pace hf, Fsm.Receives]
  | send => simp [sequencerReady_send hf, Fsm.Receives]
  | head => simp [sequencerReady_receives (s := s) (.inl hf), Fsm.Receives]
  | bodyLen => simp [sequencerReady_receives (s := s) (.inr (.inl hf)), Fsm.Receives]
  | bodyGap => simp [sequencerReady_receives (s := s) (.inr (.inr hf)), Fsm.Receives]

/-- With an empty queue a receive state moves at its deadline only. -/
theorem deadline_reached (hf : s.fsm.Receives) (hturn : nextTurn s = .sequencer) (hq : s.serq = []) : s.deadline ≤ s.now :=
  ((sequencerReady_receives hf).mp (nextTurn_sequencer_iff.mp hturn).2).resolve_left fun h => h hq

/-- Settles O29. -/
theorem sequencerMovesWhenItsConditionHolds : Obligations.SequencerMovesWhenItsConditionHolds := by
  intro s
  rw [nextTurn_sequencer_iff, sequencerReady_iff]
  rfl

theorem stepWith_sequencer (p : Params) (h : nextTurn s = .sequencer) : stepWith p s = sequencerTurn p s := by
  obtain ⟨-, -, -, -, hsequencer, -⟩ := stepWith_turn p s
  exact hsequencer h

end

/-! ### Out of `PACE` and `SEND` -/

section
variable {s : State} {r : Nat} {b : Bank} (p : Params) (hl : s.lock = .held r) (hb : s.banks[r]? = some b)
include hl hb

/-- The flush, and the write begins (R127, R128). -/
theorem sequencerTurn_pace (hf : s.fsm = .pace) : sequencerTurn p s =
    .next { s with serq := [], fsm := .send, sendEnd := s.now + s.env.nextSend, env := s.env.takeSend } := by
  simp only [sequencerTurn, hf, paceDone, withOwner_held hl hb]
  rfl

/-- A `TX` completes (R128). -/
theorem sequencerTurn_send_tx (hf : s.fsm = .send) (hc : s.cur = .tx) :
    sequencerTurn p s = .next ((s.sent r b).complete p r b (.status SUCCESS)) := by
  simp only [sequencerTurn, hf, sendDone, withOwner_held hl hb, hc]
  rfl

/-- A broadcast `XCHG` completes with no frame received (R129); any other `XCHG` begins to receive (R128). -/
theorem sequencerTurn_send_xchg (hf : s.fsm = .send) (hc : s.cur = .xchg) {u : Byte} {rest : List Byte}
    (ht : b.txbuf = u :: rest) : sequencerTurn p s = if u = 0x00#8
      then .next ((s.sent r b).complete p r { b with rxbuf := [] } (.status SUCCESS))
      else .next ((s.sent r b).enterHead r b) := by
  simp only [sequencerTurn, hf, sendDone, withOwner_held hl hb, hc]
  split
  · rename_i hnil
    exact absurd (ht.symm.trans hnil) (List.cons_ne_nil u rest)
  · rename_i hcons
    cases ht.symm.trans hcons
    rfl

end

/-- Settles O30. -/
theorem pacingEndsWithAFlush : Obligations.PacingEndsWithAFlush := by
  intro p s r b hl hb hf
  refine ⟨fun hnow => nextTurn_ne_sequencer ?_, fun hnow => nextTurn_ne_tick ?_, fun hturn => ?_⟩
  · rw [sequencerReady_pace hf]
    omega
  · rwa [sequencerReady_pace hf]
  · rw [stepWith_sequencer p hturn, sequencerTurn_pace p hl hb hf]

/-- Settles O31: the transition out of `PACE`, then the three out of `SEND`. -/
theorem writeEndsAsItsCommandSays : Obligations.WriteEndsAsItsCommandSays := by
  refine ⟨fun p s r b hl hb hf hturn => ?_, fun p s r b hl hb hf =>
    ⟨fun hnow => nextTurn_ne_sequencer ?_, fun hnow => nextTurn_ne_tick ?_, fun hturn => ⟨b.txbuf, ?_⟩⟩⟩
  · exact ⟨_, (stepWith_sequencer p hturn).trans (sequencerTurn_pace p hl hb hf), rfl, rfl⟩
  · rw [sequencerReady_send hf]
    omega
  · rwa [sequencerReady_send hf]
  · rw [stepWith_sequencer p hturn]
    refine ⟨sequencerTurn_send_tx p hl hb hf, fun u rest hc ht => ?_⟩
    rw [sequencerTurn_send_xchg p hl hb hf hc ht]
    exact ⟨fun hu => if_pos hu, fun hu => if_neg hu⟩

/-! ### In the receive states -/

/-- A byte in a state that takes bytes up to a count: the one that reaches the count ends it, any other is stored (R130, R133). -/
def untilCount (k : Nat) (done : State → Nat → Bank → State) (s : State) (r : Nat) (b : Bank) : State :=
  if b.rxbuf.length = k then done s r b else s.setBank r b

/-- The owner's command completes with a status read off the bytes received. -/
def completeWith (p : Params) (verdict : List Byte → Half) (s : State) (r : Nat) (b : Bank) : State :=
  s.complete p r b (.status (verdict b.rxbuf))

theorem crcOk_iff {f : List Byte} : crcOk f = true ↔ crc16 f = 0#16 := beq_iff_eq

/-- A nonzero expected length, as the operand's value. -/
theorem explen_ne_zero_iff {e : Half} : e ≠ 0#16 ↔ 0 < e.toNat := by
  rw [Nat.pos_iff_ne_zero, ne_eq, ne_eq, ← BitVec.toNat_inj]
  rfl

section
variable (p : Params) (s : State) (r : Nat)

theorem sequencerTurn_head (hf : s.fsm = .head) : sequencerTurn p s =
    receiveTurn s (untilCount 5 (headDone p)) (completeWith p fun _ => TIMEOUT) := by
  rw [sequencerTurn, hf]
  rfl

/-- The remainder stops at the lesser of the expected length and 257 (R133). -/
theorem sequencerTurn_bodyLen (hf : s.fsm = .bodyLen) : sequencerTurn p s =
    receiveTurn s (untilCount (min s.explen.toNat 257) (completeWith p validate)) (completeWith p validate) := by
  rw [sequencerTurn, hf]
  rfl

theorem sequencerTurn_bodyGap (hf : s.fsm = .bodyGap) : sequencerTurn p s =
    receiveTurn s (gapByte p) (completeWith p validate) := by
  rw [sequencerTurn, hf]
  rfl

variable {b : Bank}

theorem untilCount_reached {k : Nat} (h : b.rxbuf.length = k) (done : State → Nat → Bank → State) :
    untilCount k done s r b = done s r b := if_pos h

theorem untilCount_stores {k : Nat} (h : b.rxbuf.length ≠ k) (done : State → Nat → Bank → State) :
    untilCount k done s r b = s.setBank r b := if_neg h

/-- The short-frame return (R132). -/
theorem headDone_short (he : s.explen ≠ 0#16) (hcrc : crcOk b.rxbuf = true) :
    headDone p s r b = s.complete p r b (.status (classify b.rxbuf)) := by
  rw [headDone, if_pos he, if_pos hcrc]

/-- The chunk is all that was asked for (R132). -/
theorem headDone_whole (he : s.explen ≠ 0#16) (hcrc : ¬ crcOk b.rxbuf = true) (h5 : s.explen.toNat ≤ 5) :
    headDone p s r b = s.complete p r b (.status (validate b.rxbuf)) := by
  rw [headDone, if_pos he, if_neg hcrc, if_pos h5]

/-- The remainder, with a fresh deadline (R132). -/
theorem headDone_remainder (hcrc : ¬ crcOk b.rxbuf = true) (h5 : 5 < s.explen.toNat) :
    headDone p s r b = { s.setBank r b with deadline := s.now + s.tmo.toNat, fsm := .bodyLen } := by
  rw [headDone, if_pos (explen_ne_zero_iff.mpr (by omega)), if_neg hcrc, if_neg (Nat.not_le.mpr h5)]

/-- Unknown-length mode (R132, D10). -/
theorem headDone_gap (he : s.explen = 0#16) (hp : p.gapShortCheck = false) :
    headDone p s r b = { s.setBank r b with deadline := s.now + p.tIchar, fsm := .bodyGap } := by
  rw [headDone, if_neg (not_not.mpr he), if_neg (by simp [hp])]

theorem gapByte_overflow (h : 256 < b.rxbuf.length) : gapByte p s r b = s.complete p r b (.fatal .rxOverflow) := if_pos h

theorem gapByte_stores (h : b.rxbuf.length ≤ 256) :
    gapByte p s r b = { s.setBank r b with deadline := s.now + p.tIchar } := if_neg (Nat.not_lt.mpr h)

end

/-- Settles O32: a byte below the count of five is stored; at five, one of the four branches of `headDone`. -/
theorem headChunkTakesFiveBytes : Obligations.HeadChunkTakesFiveBytes := by
  intro p s r b hl hb hf hturn hlt
  rw [stepWith_sequencer p hturn, sequencerTurn_head p s hf]
  refine ⟨fun hq => ⟨deadline_reached (.inl hf) hturn hq, receiveTurn_silence hl hb hq _ _⟩, fun x a q hq => ?_⟩
  intro c taken
  have hlen : c.rxbuf.length = b.rxbuf.length + 1 := List.length_append
  have hstep : receiveTurn s (untilCount 5 (headDone p)) (completeWith p fun _ => TIMEOUT) =
      .next (untilCount 5 (headDone p) taken r c) := receiveTurn_byte hl hb hq _ _
  rw [hstep]
  refine ⟨fun h4 => congrArg _ (untilCount_stores taken r (by omega) _), fun h4 => ?_⟩
  rw [untilCount_reached taken r (by omega)]
  exact ⟨fun he hcrc => congrArg _ (headDone_short p taken r he (crcOk_iff.mpr hcrc)),
    fun he hcrc h5 => congrArg _ (headDone_whole p taken r he (crcOk_iff.not.mpr hcrc) h5),
    fun h5 hcrc => congrArg _ (headDone_remainder p taken r (crcOk_iff.not.mpr hcrc) h5),
    fun he hp => congrArg _ (headDone_gap p taken r he hp)⟩

/-- Settles O33. -/
theorem remainderStopsAtTheExpectedCount : Obligations.RemainderStopsAtTheExpectedCount := by
  intro p s r b hl hb hf hturn
  rw [stepWith_sequencer p hturn, sequencerTurn_bodyLen p s hf]
  refine ⟨fun hq => ⟨deadline_reached (.inr (.inl hf)) hturn hq, receiveTurn_silence hl hb hq _ _⟩, fun x a q hq => ?_⟩
  intro c taken
  rw [receiveTurn_byte hl hb hq]
  exact ⟨fun h => congrArg _ (untilCount_reached taken r h _), fun h => congrArg _ (untilCount_stores taken r h _)⟩

/-- Settles O34. -/
theorem gapLoopEndsBySilenceOrOverflow : Obligations.GapLoopEndsBySilenceOrOverflow := by
  intro p s r b hl hb hf hturn
  rw [stepWith_sequencer p hturn, sequencerTurn_bodyGap p s hf]
  refine ⟨fun hq => ⟨deadline_reached (.inr (.inr hf)) hturn hq, receiveTurn_silence hl hb hq _ _⟩, fun x a q hq => ?_⟩
  intro c taken
  rw [receiveTurn_byte hl hb hq]
  exact ⟨fun h => congrArg _ (gapByte_overflow p taken r h), fun h => congrArg _ (gapByte_stores p taken r h)⟩

/-! ### The verdict and the completion -/

theorem validate_length {f : List Byte} (h : f.length < 5 ∨ 256 < f.length) : validate f = 0xFFFD#16 := if_pos h

theorem validate_crc {f : List Byte} (h5 : 5 ≤ f.length) (h256 : f.length ≤ 256) (h : crc16 f ≠ 0#16) :
    validate f = 0xFFFE#16 := by
  rw [validate, if_neg (by simp only [Config.FRAME_MIN, Config.FRAME_MAX]; omega), if_neg (crcOk_iff.not.mpr h)]

theorem validate_valid {f : List Byte} (h5 : 5 ≤ f.length) (h256 : f.length ≤ 256) (h : crc16 f = 0#16) :
    validate f = classify f := by
  rw [validate, if_neg (by simp only [Config.FRAME_MIN, Config.FRAME_MAX]; omega), if_pos (crcOk_iff.mpr h)]

/-- Settles O35. -/
theorem validateOrdersItsTests : Obligations.ValidateOrdersItsTests :=
  ⟨fun _ => validate_length, fun _ => validate_crc, fun _ => validate_valid,
    fun _ _ _ _ => ⟨fun h => if_pos h, fun h => if_neg (Bool.not_eq_true _ ▸ h)⟩⟩

/-- Every field that a completion writes (R139). -/
theorem complete_eq (p : Params) (s : State) (r : Nat) (b : Bank) (e : Ending) : s.complete p r b e = { s with
    banks := s.banks.set r (b.ending e)
    lastPoll := if s.cur = .xchg then pollAfter p s e else s.lastPoll
    trace := s.trace ++ frameRecord r b s.cur e ++ errorRecord r e
    cur := .none, fsm := .idle, lock := .free
    env := { s.env with hosts := s.env.hosts.modify r List.tail } } := rfl

/-- A status counts as a failure when it is negative, or positive and the parameter says so (R139). -/
theorem pollAfter_status (p : Params) (s : State) (v : Half) : pollAfter p s (.status v) =
    if v.msb = true ∨ (v ≠ 0#16 ∧ p.backoffOnException = true) then s.now + s.delayErr.toNat else s.now := by
  simp [pollAfter, Ending.failed, statusNegative]

/-- A fatal ending leaves no received frame (R139). -/
theorem frameRecord_fatal (r : Nat) (b : Bank) (cur : Cur) (c : Cause) : frameRecord r b cur (.fatal c) = [] :=
  if_neg fun ⟨_, h, _⟩ => Bool.noConfusion h

/-- Settles O36, by the fields of `complete_eq` for each kind of ending. -/
theorem completionWritesAndFrees : Obligations.CompletionWritesAndFrees := by
  intro p s r b
  refine ⟨fun v => ⟨b.rxbuf, .status v, ?_⟩, fun c => ⟨.fatal c, ?_⟩⟩
  · rw [complete_eq, pollAfter_status]
    rfl
  · rw [complete_eq, frameRecord_fatal, List.append_nil]
    rfl

end Sys2Proof.Machine

/-!
PROOFS. The grant (`44_transport.md` R120 to R122, R125): what `TX`, `RX` and `XCHG` leave when they find the lock free, and to whom a grant
is made.
-/

namespace Sys2Proof.Machine

/-! ### The three commands, granted -/

section
variable {s : State} {b : Bank}

theorem exec_tx_granted (hs : s.ready b) (hfree : s.lockFree = true) :
    exec .tx s = .next { s with lock := .held s.active, cur := .tx, fsm := .pace } := by
  rw [exec, execTx, withRequester_ready hs, whenLockFree_free hfree]
  rfl

theorem exec_rx_granted (hs : s.ready b) (hfree : s.lockFree = true) (timeout : Word) (explen : Half) :
    exec (.rx timeout explen) s = .next { s with
      lock := .held s.active, cur := .rx, fsm := .head, tmo := timeout, explen := explen, deadline := s.now + timeout.toNat,
      banks := s.banks.set s.active { b with rxbuf := [] } } := by
  rw [exec, execRx, withRequester_ready hs, whenLockFree_free hfree]
  rfl

theorem exec_xchg_granted (hs : s.ready b) (hfree : s.lockFree = true) (ht : b.txbuf ≠ []) (timeout : Word) (explen : Half) :
    exec (.xchg timeout explen) s =
      .next { s with lock := .held s.active, cur := .xchg, fsm := .pace, tmo := timeout, explen := explen } := by
  rw [exec, execXchg, withRequester_ready hs, if_neg ht, whenLockFree_free hfree]
  rfl

/-- With an empty frame an `XCHG` is refused, before any lock is taken (R122, R185). -/
theorem exec_xchg_refused (hs : s.ready b) (ht : b.txbuf = []) (timeout : Word) (explen : Half) :
    exec (.xchg timeout explen) s = endRefuse s b := by
  rw [exec, execXchg, withRequester_ready hs, if_pos ht]

end

/-! ### To whom a grant is made -/

/-- An `XCHG` waits for the lock only with a frame to write (R125, R185). -/
theorem needsLock_xchg {bytes : List Byte} {b : Bank} {timeout : Word} {explen : Half}
    (hd : decode bytes = .ok (.xchg timeout explen)) (h : needsLock bytes b = true) : b.txbuf ≠ [] := by
  intro ht
  simp [needsLock, hd, Instr.opcode, ht] at h

/-- Settles O42: the requester granted waits with an issued command, and its port accepts, since the lock is free. -/
theorem grantStartsTheCommand : Obligations.GrantStartsTheCommand := by
  intro s r hturn
  obtain ⟨-, -, hgrant⟩ := nextTurn_grant hturn
  obtain ⟨hlock, hfsm, hwaits⟩ := grantTo_some hgrant
  obtain ⟨b, c, rest, -, hb, hport, hissued, hneeds⟩ := waiting_true hwaits
  refine ⟨hlock, hfsm, b, c, rest, hb, hport, hissued, ?_⟩
  have hfree : (s.selectGranted r).lockFree = true := lockFree_iff.mpr ⟨hlock, hfsm⟩
  have hready : (s.selectGranted r).ready b := ⟨hb, fun h => Lock.noConfusion (hlock.symm.trans h)⟩
  have hruns : ∀ i, decode c.bytes = .ok i → step s = exec i (s.selectGranted r) := fun i hi =>
    (stepRunsTheDecodedCommand s r c rest i hport hi).2 hturn
  exact ⟨fun hd => (hruns _ hd).trans (exec_tx_granted hready hfree),
    fun timeout explen hd => (hruns _ hd).trans (exec_rx_granted hready hfree timeout explen),
    fun timeout explen hd => ⟨needsLock_xchg hd hneeds,
      (hruns _ hd).trans (exec_xchg_granted hready hfree (needsLock_xchg hd hneeds) timeout explen)⟩⟩

end Sys2Proof.Machine

/-!
PROOFS. A receive, from `HEAD` to its end (`44_transport.md` R130 to R136, R143, R146). A list of arrivals stands for the bytes queued and those
still on the line; while the sequencer waits it does not change, and each byte taken takes its first element off. So each loop of the blocking
receive is an induction over that list: of the two reads up to a count, and of the gap loop. The statement puts them together.
-/

namespace Sys2Proof.Machine

/-! ### The arrivals a state offers -/

/-- `arrivals` are the bytes a receive can take from now on: those queued, with instants that are not after now, then those of the line. -/
def State.Offers (s : State) (arrivals : List (Nat × Byte)) : Prop :=
  ∃ queued, arrivals = queued ++ s.env.line ∧ queued.map Prod.snd = s.serq.map Prod.fst ∧ ∀ x ∈ queued, x.1 ≤ s.now

/-- The state at the instant `n`, with `q` queued and `l` still on the line. -/
def State.later (s : State) (n : Nat) (q : List (Byte × Nat)) (l : List (Nat × Byte)) : State :=
  { s with now := n, serq := q, env := { s.env with line := l } }

section
variable {s : State} {L : List (Nat × Byte)}

theorem offers_arrivals (s : State) : s.Offers (arrivals s) :=
  ⟨s.serq.map fun x => (0, x.1), rfl, List.map_map, fun x hx => by
    obtain ⟨y, -, rfl⟩ := List.mem_map.mp hx
    exact Nat.zero_le _⟩

/-- The bytes left over, queued or on the line. -/
theorem offers_left (h : s.Offers L) : s.serq.map Prod.fst ++ s.env.line.map Prod.snd = L.map Prod.snd := by
  obtain ⟨queued, rfl, hq, -⟩ := h
  rw [List.map_append, hq]

/-- The bytes due by an instant, once queued, are offered as before. -/
theorem offers_delivered (h : s.Offers L) {n : Nat} (hn : s.now ≤ n) {q : List (Byte × Nat)}
    (hq : q.map Prod.fst = (s.env.line.takeWhile fun x => decide (x.1 ≤ n)).map Prod.snd) :
    (s.later n (s.serq ++ q) (s.env.line.dropWhile fun x => decide (x.1 ≤ n))).Offers L := by
  obtain ⟨queued, rfl, hqueued, hle⟩ := h
  refine ⟨queued ++ s.env.line.takeWhile fun x => decide (x.1 ≤ n), ?_, ?_, fun x hx => ?_⟩
  · rw [List.append_assoc]
    exact congrArg _ List.takeWhile_append_dropWhile.symm
  · rw [List.map_append, hqueued, ← hq]
    exact List.map_append.symm
  · rcases List.mem_append.mp hx with hx | hx
    · exact (hle x hx).trans hn
    · have hdue := List.mem_takeWhile_imp hx
      exact of_decide_eq_true hdue

/-- With no byte due on the line, a byte that has arrived is at the head of the queue. -/
theorem offers_cons {t : Nat} {x : Byte} (h : s.Offers ((t, x) :: L)) (ht : t ≤ s.now) (hd : lineDue s = false) :
    ∃ a q, s.serq = (x, a) :: q ∧ (s.later s.now q s.env.line).Offers L := by
  obtain ⟨queued, hL, hq, hle⟩ := h
  match queued, s.serq, hq with
  | [], _, _ => exact absurd (lineDue_iff.mpr ⟨t, x, L, hL.symm, ht⟩) (Bool.eq_false_iff.mp hd)
  | y :: queued, (z, a) :: q, hq =>
    obtain ⟨rfl, hrest⟩ := List.cons.inj hL
    obtain ⟨rfl, hqueued⟩ := List.cons.inj hq
    exact ⟨a, q, rfl, queued, hrest, hqueued, fun w hw => hle w (List.mem_cons_of_mem _ hw)⟩

/-- When the first arrival is after an instant, nothing is queued, and no byte of the line is due by it. -/
theorem offers_silence (h : s.Offers L) {n : Nat} (hn : s.now ≤ n) (hL : ∀ x ∈ L.head?, n < x.1) :
    s.serq = [] ∧ lineDue (s.later n s.serq s.env.line) = false := by
  obtain ⟨queued, rfl, hq, hle⟩ := h
  match queued with
  | [] =>
    refine ⟨List.map_eq_nil_iff.mp hq.symm, Bool.eq_false_iff.mpr fun hdue => ?_⟩
    obtain ⟨a, x, rest, hfirst, ha⟩ := lineDue_iff.mp hdue
    have hlt : n < a := hL (a, x) (congrArg List.head? hfirst)
    exact absurd ha (Nat.not_le.mpr hlt)
  | y :: queued =>
    have hlt : n < y.1 := hL y rfl
    have hy : y.1 ≤ s.now := hle y List.mem_cons_self
    omega

/-- A state at a later instant, with nothing queued or delivered meanwhile, offers the same. -/
theorem offers_later (h : s.Offers L) {n : Nat} (hn : s.now ≤ n) : (s.later n s.serq s.env.line).Offers L := by
  obtain ⟨queued, hL, hq, hle⟩ := h
  exact ⟨queued, hL, hq, fun x hx => (hle x hx).trans hn⟩

end

/-- The first arrival is after an instant, or comes by it. -/
theorem first_arrival (L : List (Nat × Byte)) (n : Nat) :
    (∀ x ∈ L.head?, n < x.1) ∨ ∃ t x rest, L = (t, x) :: rest ∧ t ≤ n := by
  match L with
  | [] => exact .inl fun x hx => absurd hx (Option.not_mem_none x)
  | (t, x) :: rest =>
    rcases Nat.lt_or_ge n t with ht | ht
    · exact .inl fun y hy => by cases Option.some.inj hy; exact ht
    · exact .inr ⟨t, x, rest, rfl, ht⟩

/-! ### How a receive state comes to its next transition -/

section
variable {s : State} {r : Nat} {L : List (Nat × Byte)} (h : Alone s r)
include h

theorem alone_later (n : Nat) (q : List (Byte × Nat)) (l : List (Nat × Byte)) : Alone (s.later n q l) r :=
  alone_of h rfl rfl rfl

/-- Time passes up to an instant before which nothing is due. -/
theorem alone_ticks {n : Nat} (hn : s.now ≤ n)
    (hidle : ∀ k, s.now ≤ k → k < n →
      lineDue (s.later k s.serq s.env.line) = false ∧ sequencerReady (s.later k s.serq s.env.line) = false) :
    Reaches s fun u => u = s.later n s.serq s.env.line := by
  induction n, hn using Nat.le_induction with
  | base => exact reaches_now rfl
  | succ n hn ih =>
    refine reaches_trans (ih fun k hk hkn => hidle k hk (by omega)) ?_
    rintro u rfl
    obtain ⟨hd, hs⟩ := hidle n hn (by omega)
    exact reaches_step (alone_tick (alone_later h _ _ _) hd hs) (reaches_now rfl)

/-- All bytes due are queued, and the same arrivals are offered (R143). -/
theorem alone_drain_offers (ho : s.Offers L) :
    Reaches s fun u => lineDue u = false ∧ ∃ q l, u = s.later s.now q l ∧ u.Offers L := by
  refine reaches_mono (alone_drain h) ?_
  rintro u ⟨hd, q, rfl, hq⟩
  exact ⟨hd, _, _, rfl, offers_delivered ho le_rfl hq⟩

variable (hf : s.fsm.Receives)
include hf

/-- Before an instant up to which no byte arrives and which is not after the deadline, nothing happens. -/
theorem alone_waits_silently (ho : s.Offers L) {n : Nat} (hL : ∀ k, s.now ≤ k → k < n → ∀ x ∈ L.head?, k < x.1)
    (hn : s.now ≤ n) (hd : n ≤ max s.now s.deadline) : Reaches s fun u => u = s.later n s.serq s.env.line := by
  refine alone_ticks h hn fun k hk hkn => ?_
  obtain ⟨hq, hdue⟩ := offers_silence ho hk (hL k hk hkn)
  refine ⟨hdue, Bool.eq_false_iff.mpr fun hready => ?_⟩
  have hdeadline : s.deadline ≤ k :=
    ((sequencerReady_receives (s := s.later k s.serq s.env.line) hf).mp hready).resolve_left fun hne => hne hq
  omega

variable {b : Bank} {P : State → Prop} {onByte onTimeout : State → Nat → Bank → State} (hb : s.banks[r]? = some b)
  (hturn : ∀ n q l, sequencerTurn Config.params (s.later n q l) = receiveTurn (s.later n q l) onByte onTimeout)
include hb hturn

/-- A byte that comes by the deadline is taken, at the instant it comes (R143, R146). -/
theorem reaches_of_byte {t : Nat} {x : Byte} (ho : s.Offers ((t, x) :: L)) (ht : t ≤ max s.now s.deadline)
    (next : ∀ q l, (s.later (max s.now t) q l).Offers L → Reaches (onByte (s.later (max s.now t) q l) r (b.storeByte x)) P) :
    Reaches s P := by
  have hwait := alone_waits_silently h hf ho (n := max s.now t)
    (fun k hk hkn y hy => by cases Option.some.inj hy; show k < t; omega) (by omega) (by omega)
  refine reaches_trans hwait ?_
  rintro u rfl
  refine reaches_trans (alone_drain_offers (alone_later h _ _ _) (offers_later ho (by omega))) ?_
  rintro u ⟨hdue, q, l, rfl, hu⟩
  obtain ⟨a, q, hq, hrest⟩ := offers_cons hu (le_max_right s.now t) hdue
  obtain rfl : _ = (x, a) :: q := hq
  have hready := (sequencerReady_receives (s := s.later (max s.now t) ((x, a) :: q) l) hf).mpr (.inl (List.cons_ne_nil _ _))
  have hstep := (alone_sequencer (alone_later h _ _ _) hdue hready).trans (hturn _ _ _)
  have htaken := receiveTurn_byte (s := s.later (max s.now t) ((x, a) :: q) l) h.1 hb rfl onByte onTimeout
  exact reaches_step (hstep.trans htaken) (next q l hrest)

/-- When no byte comes by the deadline, the state times out there (R143, R146). -/
theorem reaches_of_silence (ho : s.Offers L) (hL : ∀ x ∈ L.head?, max s.now s.deadline < x.1)
    (next : ∀ q l, (s.later (max s.now s.deadline) q l).Offers L →
      Reaches (onTimeout (s.later (max s.now s.deadline) q l) r b) P) :
    Reaches s P := by
  obtain ⟨hq, hdue⟩ := offers_silence ho (le_max_left _ _) hL
  have hwait := alone_waits_silently h hf ho (n := max s.now s.deadline)
    (fun k hk hkn y hy => hkn.trans (hL y hy)) (by omega) le_rfl
  refine reaches_trans hwait ?_
  rintro u rfl
  have hready := (sequencerReady_receives (s := s.later (max s.now s.deadline) s.serq s.env.line) hf).mpr
    (.inr (le_max_right _ _))
  have hstep := (alone_sequencer (alone_later h _ _ _) hdue hready).trans (hturn _ _ _)
  have hended := receiveTurn_silence (s := s.later (max s.now s.deadline) s.serq s.env.line) h.1 hb hq onByte onTimeout
  exact reaches_step (hstep.trans hended) (next _ _ (offers_later ho (le_max_left _ _)))

end

/-! ### The loops of the blocking receive -/

/-- With the expected length `explen`, the receive state `f` takes bytes up to the count `k`; there it goes on as `done` says, and at its
deadline it completes with `verdict` of what was received. -/
structure TakesUpTo (explen : Half) (f : Fsm) (k : Nat) (done : State → Nat → Bank → State) (verdict : List Byte → Half) : Prop where
  receives : f.Receives
  turn : ∀ u : State, u.fsm = f → u.explen = explen →
    sequencerTurn Config.params u = receiveTurn u (untilCount k done) (completeWith Config.params verdict)

/-- The head chunk (R130, R131). -/
theorem takesUpTo_head (explen : Half) : TakesUpTo explen .head 5 (headDone Config.params) fun _ => TIMEOUT where
  receives := .inl rfl
  turn u hf _ := sequencerTurn_head Config.params u hf

/-- The remainder (R133, R134). -/
theorem takesUpTo_bodyLen (explen : Half) :
    TakesUpTo explen .bodyLen (min explen.toNat 257) (completeWith Config.params validate) validate where
  receives := .inr (.inl rfl)
  turn u hf he := he ▸ sequencerTurn_bodyLen Config.params u hf

/-- Requester `r`, whose bank was `b`, is in receive state `f` with the deadline `d` and `bytes` received. -/
def State.receiving (s : State) (r : Nat) (b : Bank) (f : Fsm) (d : Nat) (bytes : List Byte) : State :=
  { s.setBank r { b with rxbuf := bytes } with fsm := f, deadline := d }

/-- `v` is the completed state of a receive that ended as `got` says: at its instant, with its bytes, and with its arrivals left. -/
def State.EndsReceive (s : State) (r : Nat) (b : Bank) (got : Received) (v : State) : Prop :=
  ∃ f d bytes q l, ((s.receiving r b f d bytes).later got.reading.now q l).Offers got.reading.rest ∧
    v = ((s.receiving r b f d bytes).later got.reading.now q l).complete Config.params r
      { b with rxbuf := got.reading.bytes } got.ending

theorem readUpTo_full {k d n : Nat} {bytes : List Byte} (hk : bytes.length = k) (L : List (Nat × Byte)) :
    readUpTo k d bytes n L = ⟨bytes, n, L⟩ := by
  cases L with
  | nil => exact if_pos hk
  | cons x L => exact if_pos hk

theorem readUpTo_byte {k d n t : Nat} {bytes : List Byte} (hk : bytes.length ≠ k) (x : Byte) (ht : t ≤ max n d)
    (L : List (Nat × Byte)) : readUpTo k d bytes n ((t, x) :: L) = readUpTo k d (bytes ++ [x]) (max n t) L := by
  rw [readUpTo, if_neg hk, if_pos ht]

theorem readUpTo_silence {k d n : Nat} {bytes : List Byte} (hk : bytes.length ≠ k) {L : List (Nat × Byte)}
    (hL : ∀ x ∈ L.head?, max n d < x.1) : readUpTo k d bytes n L = ⟨bytes, max n d, L⟩ := by
  match L with
  | [] => exact if_neg hk
  | (t, x) :: L => rw [readUpTo, if_neg hk, if_neg (Nat.not_le.mpr (hL (t, x) rfl))]

theorem gapLoop_silence {gap d n : Nat} {bytes : List Byte} (hd : d = n + gap) {L : List (Nat × Byte)}
    (hL : ∀ x ∈ L.head?, max n d < x.1) : gapLoop gap bytes n L = ⟨.status (validate bytes), ⟨bytes, max n d, L⟩⟩ := by
  have hmax : max n d = n + gap := by omega
  match L with
  | [] => rw [gapLoop, hmax]
  | (t, x) :: L => rw [gapLoop, hmax, if_neg (Nat.not_le.mpr (hmax ▸ hL (t, x) rfl))]

/-- The 257th byte overflows the frame (R135). -/
theorem gapLoop_overflow {gap n t : Nat} {bytes : List Byte} {x : Byte} (ht : t ≤ n + gap) (hfull : 256 < (bytes ++ [x]).length)
    (L : List (Nat × Byte)) :
    gapLoop gap bytes n ((t, x) :: L) = ⟨.fatal .rxOverflow, ⟨bytes ++ [x], max n t, L⟩⟩ := by
  rw [gapLoop, if_pos ht, if_pos hfull]

theorem gapLoop_byte {gap n t : Nat} {bytes : List Byte} {x : Byte} (ht : t ≤ n + gap) (hfull : (bytes ++ [x]).length ≤ 256)
    (L : List (Nat × Byte)) : gapLoop gap bytes n ((t, x) :: L) = gapLoop gap (bytes ++ [x]) (max n t) L := by
  rw [gapLoop, if_pos ht, if_neg (Nat.not_lt.mpr hfull)]

section
variable {s : State} {r : Nat} {b : Bank}

/-- A receive that has stored a byte and goes on, in the same state or in another, with the same deadline or a fresh one. -/
theorem receiving_goesOn (f g : Fsm) (d e n : Nat) (bytes c : List Byte) (q : List (Byte × Nat)) (l : List (Nat × Byte)) :
    (s.receiving r b g e c).later n q l =
      { ((s.receiving r b f d bytes).later n q l).setBank r { b with rxbuf := c } with fsm := g, deadline := e } := by
  simp [State.receiving, State.later, State.setBank]

theorem receiving_alone (h : Alone s r) (f : Fsm) (d n : Nat) (bytes : List Byte) (q : List (Byte × Nat))
    (l : List (Nat × Byte)) : Alone ((s.receiving r b f d bytes).later n q l) r := alone_of h rfl rfl rfl

theorem receiving_bank (hb : s.banks[r]? = some b) (f : Fsm) (d n : Nat) (bytes : List Byte) (q : List (Byte × Nat))
    (l : List (Nat × Byte)) : ((s.receiving r b f d bytes).later n q l).banks[r]? = some { b with rxbuf := bytes } :=
  set_getElem? hb

variable (h : Alone s r) (hb : s.banks[r]? = some b)
include h hb

/-- A receive state that takes bytes up to a count comes to the reading of `ReadUpTo`. At its deadline it completes, and at the count it goes
on as `done` says; `got` is the receive that both come to (R130, R133, R146). -/
theorem reaches_readUpTo {f : Fsm} {k d : Nat} {done : State → Nat → Bank → State} {verdict : List Byte → Half}
    (hf : TakesUpTo s.explen f k done verdict) {got : Received} {R : Reading}
    (full : R.bytes.length = k → ∀ bytes q l, ((s.receiving r b f d bytes).later R.now q l).Offers R.rest →
      Reaches (done ((s.receiving r b f d bytes).later R.now q l) r { b with rxbuf := R.bytes }) (s.EndsReceive r b got))
    (timeout : R.bytes.length < k → got = ⟨.status (verdict R.bytes), R⟩)
    {L : List (Nat × Byte)} {bytes : List Byte} {n : Nat} {q : List (Byte × Nat)} {l : List (Nat × Byte)}
    (hlt : bytes.length < k) (hR : readUpTo k d bytes n L = R) (ho : ((s.receiving r b f d bytes).later n q l).Offers L) :
    Reaches ((s.receiving r b f d bytes).later n q l) (s.EndsReceive r b got) := by
  have ha := receiving_alone h (b := b) f d n bytes q l
  have hbank := receiving_bank hb f d n bytes q l
  have hturn : ∀ m q' l', sequencerTurn Config.params (((s.receiving r b f d bytes).later n q l).later m q' l') =
      receiveTurn _ (untilCount k done) (completeWith Config.params verdict) := fun _ _ _ => hf.turn _ rfl rfl
  rcases first_arrival L (max n d) with hL | ⟨t, x, rest, rfl, ht⟩
  · rw [readUpTo_silence (Nat.ne_of_lt hlt) hL] at hR
    subst hR
    rw [timeout hlt]
    exact reaches_of_silence ha hf.receives hbank hturn ho hL fun q l ho => reaches_now ⟨_, _, _, q, l, ho, rfl⟩
  · rw [readUpTo_byte (Nat.ne_of_lt hlt) x ht] at hR
    refine reaches_of_byte ha hf.receives hbank hturn ho ht fun q l ho => ?_
    have hlen : (bytes ++ [x]).length = bytes.length + 1 := List.length_append
    by_cases hk : (bytes ++ [x]).length = k
    · rw [readUpTo_full hk] at hR
      subst hR
      rw [untilCount_reached _ r hk]
      exact full hk bytes q l ho
    · rw [untilCount_stores _ r hk]
      have hrest := reaches_readUpTo hf full timeout (by omega) hR ho
      rw [receiving_goesOn f f d d _ bytes] at hrest
      exact hrest
termination_by L.length

/-- The gap loop of the sequencer is that of the blocking receive (R135, R136, R146). -/
theorem reaches_gapLoop {L : List (Nat × Byte)} {bytes : List Byte} {n d : Nat} {q : List (Byte × Nat)} {l : List (Nat × Byte)}
    (hd : d = n + Config.params.tIchar) (ho : ((s.receiving r b .bodyGap d bytes).later n q l).Offers L) :
    Reaches ((s.receiving r b .bodyGap d bytes).later n q l) (s.EndsReceive r b (gapLoop Config.params.tIchar bytes n L)) := by
  have ha := receiving_alone h (b := b) .bodyGap d n bytes q l
  have hbank := receiving_bank hb .bodyGap d n bytes q l
  have hturn : ∀ m q' l', sequencerTurn Config.params (((s.receiving r b .bodyGap d bytes).later n q l).later m q' l') =
      receiveTurn _ (gapByte Config.params) (completeWith Config.params validate) := fun _ _ _ => sequencerTurn_bodyGap _ _ rfl
  rcases first_arrival L (max n d) with hL | ⟨t, x, rest, rfl, ht⟩
  · rw [gapLoop_silence hd hL]
    exact reaches_of_silence ha (.inr (.inr rfl)) hbank hturn ho hL fun q l ho => reaches_now ⟨_, _, _, q, l, ho, rfl⟩
  · have hgap : t ≤ n + Config.params.tIchar := by omega
    refine reaches_of_byte ha (.inr (.inr rfl)) hbank hturn ho ht fun q l ho => ?_
    rcases Nat.lt_or_ge 256 (bytes ++ [x]).length with hfull | hfits
    · rw [gapLoop_overflow hgap hfull, gapByte_overflow _ _ r hfull]
      exact reaches_now ⟨_, _, _, q, l, ho, rfl⟩
    · rw [gapLoop_byte hgap hfits, gapByte_stores _ _ r hfits]
      have hrest := reaches_gapLoop (bytes := bytes ++ [x]) (n := max n t) rfl ho
      rw [receiving_goesOn .bodyGap .bodyGap d _ _ bytes] at hrest
      exact hrest
termination_by L.length

end

/-! ### The blocking receive, branch by branch -/

section
variable {p : Params} {timeout explen n : Nat} {L : List (Nat × Byte)} {R : Reading}
  (hR : readUpTo 5 (n + timeout) [] n L = R)
include hR

theorem receive_timeout (h5 : R.bytes.length < 5) : receive p timeout explen n L = ⟨.status TIMEOUT, R⟩ := by
  simp only [receive, hR, Config.HEAD_LEN]
  exact if_pos h5

variable (h5 : R.bytes.length = 5)
include h5

theorem receive_short (he : 0 < explen) (hcrc : crcOk R.bytes = true) :
    receive p timeout explen n L = ⟨.status (classify R.bytes), R⟩ := by
  simp only [receive, hR, Config.HEAD_LEN]
  rw [if_neg (by omega), if_pos he, if_pos hcrc]

theorem receive_whole (he : 0 < explen) (hcrc : ¬ crcOk R.bytes = true) (hle : explen ≤ 5) :
    receive p timeout explen n L = ⟨.status (validate R.bytes), R⟩ := by
  simp only [receive, hR, Config.HEAD_LEN]
  rw [if_neg (by omega), if_pos he, if_neg hcrc, if_neg (Nat.not_lt.mpr hle)]

theorem receive_remainder (hcrc : ¬ crcOk R.bytes = true) (hlt : 5 < explen) {B : Reading}
    (hB : readUpTo (min explen 257) (R.now + timeout) R.bytes R.now R.rest = B) :
    receive p timeout explen n L = ⟨.status (validate B.bytes), B⟩ := by
  simp only [receive, hR, Config.HEAD_LEN, Config.RX_STOP, hB]
  rw [if_neg (by omega), if_pos (by omega), if_neg hcrc, if_pos hlt]

theorem receive_gap (he : explen = 0) (hp : p.gapShortCheck = false) :
    receive p timeout explen n L = gapLoop p.tIchar R.bytes R.now R.rest := by
  simp only [receive, hR, Config.HEAD_LEN]
  rw [if_neg (by omega), if_neg (by omega), if_neg (by simp [hp])]

end

/-! ### The run -/

section
variable {s : State} {r : Nat} {b : Bank} (h : Alone s r) (hb : s.banks[r]? = some b)
include h hb

/-- After the fifth byte the sequencer does as the blocking receive does after its first read (R132, R146). -/
theorem reaches_after_head {L : List (Nat × Byte)} {R : Reading} {n : Nat}
    (hR : readUpTo 5 (n + s.tmo.toNat) [] n L = R) (h5 : R.bytes.length = 5) (d : Nat) (bytes : List Byte)
    (q : List (Byte × Nat)) (l : List (Nat × Byte)) (ho : ((s.receiving r b .head d bytes).later R.now q l).Offers R.rest) :
    Reaches (headDone Config.params ((s.receiving r b .head d bytes).later R.now q l) r { b with rxbuf := R.bytes })
      (s.EndsReceive r b (receive Config.params s.tmo.toNat s.explen.toNat n L)) := by
  set w := (s.receiving r b .head d bytes).later R.now q l
  by_cases he : s.explen = 0#16
  · rw [receive_gap hR h5 (by rw [he]; rfl) rfl, headDone_gap _ w r he rfl]
    have hgap := reaches_gapLoop h hb (bytes := R.bytes) (n := R.now) rfl ho
    rw [receiving_goesOn .head .bodyGap d _ _ bytes] at hgap
    exact hgap
  have hpos := explen_ne_zero_iff.mp he
  by_cases hcrc : crcOk R.bytes = true
  · rw [receive_short hR h5 hpos hcrc, headDone_short _ w r he hcrc]
    exact reaches_now ⟨_, _, _, q, l, ho, rfl⟩
  rcases Nat.lt_or_ge 5 s.explen.toNat with hlt | hle
  · obtain ⟨B, hB⟩ : ∃ B, readUpTo (min s.explen.toNat 257) (R.now + s.tmo.toNat) R.bytes R.now R.rest = B := ⟨_, rfl⟩
    rw [receive_remainder hR h5 hcrc hlt hB, headDone_remainder _ w r hcrc hlt]
    have hbody := reaches_readUpTo h hb (takesUpTo_bodyLen s.explen) (got := ⟨.status (validate B.bytes), B⟩)
      (fun _ old q l ho => reaches_now ⟨_, _, old, q, l, ho, rfl⟩) (fun _ => rfl) (by omega) hB ho
    rw [receiving_goesOn .head .bodyLen d _ _ bytes] at hbody
    exact hbody
  · rw [receive_whole hR h5 hpos hcrc hle, headDone_whole _ w r he hcrc hle]
    exact reaches_now ⟨_, _, _, q, l, ho, rfl⟩

/-- From the entry to `HEAD` the sequencer's run ends as the blocking receive does (R146). -/
theorem reaches_receive (hf : s.fsm = .head) (hempty : b.rxbuf = []) (hd : s.deadline = s.now + s.tmo.toNat)
    {L : List (Nat × Byte)} (ho : s.Offers L) :
    Reaches s (s.EndsReceive r b (receive Config.params s.tmo.toNat s.explen.toNat s.now L)) := by
  have hbank : { b with rxbuf := [] } = b := by rw [← hempty]
  have hbanks : s.banks.set r { b with rxbuf := [] } = s.banks := by
    obtain ⟨hr, hget⟩ := List.getElem?_eq_some_iff.mp hb
    rw [hbank, ← hget, List.set_getElem_self]
  have hstart : (s.receiving r b .head s.deadline []).later s.now s.serq s.env.line = s := by
    rw [State.receiving, State.setBank, hbanks, ← hf]
    rfl
  have hrun := reaches_readUpTo h hb (takesUpTo_head s.explen) (d := s.deadline) (bytes := []) (n := s.now)
    (got := receive Config.params s.tmo.toNat s.explen.toNat s.now L)
    (fun h5 bytes q l ho => reaches_after_head h hb (by rw [hd]) h5 s.deadline bytes q l ho)
    (fun h5 => receive_timeout (by rw [hd]) h5) (Nat.zero_lt_succ 4) rfl (hstart.symm ▸ ho)
  rwa [hstart] at hrun

end

/-- A completed receive leaves its bytes and its verdict in the bank, over what was stored there meanwhile. -/
theorem endsReceive_banks {s v : State} {r : Nat} {b : Bank} {got : Received} (hv : s.EndsReceive r b got v) :
    v.banks = s.banks.set r ({ b with rxbuf := got.reading.bytes }.ending got.ending) := by
  obtain ⟨f, d, bytes, q, l, -, rfl⟩ := hv
  exact List.set_set ..

/-- Settles O28, from the state at the entry to `HEAD`. -/
theorem sequencerRefinesBlockingReads : Obligations.SequencerRefinesBlockingReads := by
  intro s r b hl hb _ hf hempty hd hquiet
  refine reaches_mono (reaches_receive ⟨hl, hquiet⟩ hb hf hempty hd (offers_arrivals s)) fun v hv => ?_
  have hbanks := endsReceive_banks hv
  obtain ⟨f, d, bytes, q, l, ho, rfl⟩ := hv
  exact ⟨rfl, hbanks, offers_left ho, rfl, rfl, rfl⟩

end Sys2Proof.Machine

/-!
PROOFS. `TX`, `RX` and `XCHG` from the grant to their end (`44_transport.md` R120 to R122, R126 to R129, R139). A write is one run, from `PACE`
to the instant the frame is out; what it leaves is completed, or received on from.
-/

namespace Sys2Proof.Machine

/-! ### The write -/

/-- The instant the pacing wait ends (R126). -/
def State.paceEnd (s : State) : Nat := max s.now (s.lastPoll + s.delayPoll.toNat)

/-- The instant the write ends (R128). -/
def State.writeEnd (s : State) : Nat := s.paceEnd + s.env.nextSend

/-- The bytes of the line that the flush at the end of the pacing wait does not remove (R127). -/
def State.kept (s : State) : List (Nat × Byte) := s.env.line.dropWhile fun x => decide (x.1 ≤ s.paceEnd)

/-- The write is under way (R127, R128). -/
def State.sending (s : State) : State := { s with fsm := .send, sendEnd := s.writeEnd, env := s.env.takeSend }

/-- The draw of a duration does not look at the line. -/
theorem takeSend_withLine (e : Env) (l : List (Nat × Byte)) : { e with line := l }.takeSend = { e.takeSend with line := l } := by
  unfold Env.takeSend
  cases e.sends with
  | nil => rfl
  | cons d rest => rfl

section
variable {s : State} {r : Nat} {b : Bank} (h : Alone s r) (hb : s.banks[r]? = some b) (hf : s.fsm = .pace)
include h hb hf

/-- At the end of the pacing wait the queue is flushed, and the write begins (R126, R127). -/
theorem reaches_flush : Reaches s fun u => u = s.sending.later s.paceEnd [] s.kept := by
  refine reaches_trans (alone_waits h (due := s.lastPoll + s.delayPoll.toNat) fun u hfsm hpoll hdelay _ => ?_) ?_
  · rw [sequencerReady_pace (hfsm.trans hf), hpoll, hdelay]
  · rintro u ⟨hdue, hready, q, hu, -⟩
    obtain rfl : u = s.later s.paceEnd (s.serq ++ q) s.kept := hu
    have hstep := (alone_sequencer (alone_later h _ _ _) hdue hready).trans (sequencerTurn_pace _ h.1 hb hf)
    refine reaches_step hstep (reaches_now ?_)
    simp only [State.later, takeSend_withLine]
    rfl

/-- At the end of the write the sequencer moves, and what came after the flush is offered (R128). -/
theorem reaches_write_end : Reaches s fun u => step u = sequencerTurn Config.params u ∧
    ∃ q l, u = s.sending.later s.writeEnd q l ∧ u.Offers s.kept := by
  refine reaches_trans (reaches_flush h hb hf) ?_
  rintro u rfl
  have ha : Alone (s.sending.later s.paceEnd [] s.kept) r :=
    alone_of h rfl (Env.takeSend_hosts s.env) (Env.takeSend_resets s.env)
  have hstart : (s.sending.later s.paceEnd [] s.kept).Offers s.kept := ⟨[], rfl, rfl, fun _ hx => absurd hx List.not_mem_nil⟩
  have hmax : max s.paceEnd s.writeEnd = s.writeEnd := max_eq_right (Nat.le_add_right _ _)
  refine reaches_mono (alone_waits ha (due := s.writeEnd) fun u hfsm _ _ hend => ?_) ?_
  · rw [sequencerReady_send hfsm, hend]
    rfl
  · rintro u ⟨hdue, hready, q, hu, hq⟩
    have hoffers := offers_delivered hstart (Nat.le_add_right _ _ : s.paceEnd ≤ s.writeEnd) (hmax ▸ hq)
    have hlater : u = s.sending.later s.writeEnd q _ := (hmax ▸ hu :)
    have hu' : Alone u r := hlater ▸ alone_later ha _ _ _
    exact ⟨alone_sequencer hu' hdue hready, q, _, hlater, hlater ▸ hoffers⟩

end

/-! ### What a completion adds to `TRACE` and to `LAST_POLL` -/

/-- A `TX` receives no frame, and status 0 is no error (R35, R139). -/
theorem complete_tx_trace {s : State} (hc : s.cur = .tx) (p : Params) (r : Nat) (b : Bank) :
    (s.complete p r b (.status SUCCESS)).trace = s.trace := by
  simp [hc, frameRecord, errorRecord, Ending.isError, statusNegative]

/-- The error backoff is added after a failure (R122, R139). -/
theorem pollAfter_eq_add (p : Params) (s : State) (e : Ending) :
    pollAfter p s e = s.now + if e.failed p then s.delayErr.toNat else 0 := by
  unfold pollAfter
  split <;> rfl

/-! ### The statements -/

/-- Settles O25: the write, and the completion of a `TX`. -/
theorem txRunsToItsEnd : Obligations.TxRunsToItsEnd := by
  refine ⟨rfl, fun s b hs hlock hfsm hquiet => ?_⟩
  refine ⟨_, exec_tx_granted hs (lockFree_iff.mpr ⟨hlock, hfsm⟩), rfl, ?_⟩
  set t0 : State := { s with lock := .held s.active, cur := .tx, fsm := .pace }
  refine reaches_trans (reaches_write_end (s := t0) ⟨rfl, hquiet⟩ hs.1 rfl) ?_
  rintro u ⟨hstep, q, l, rfl, ho⟩
  refine reaches_step (hstep.trans (sequencerTurn_send_tx _ rfl hs.1 rfl rfl)) (reaches_now ?_)
  have htrace := complete_tx_trace (s := (t0.sending.later t0.writeEnd q l).sent s.active b) rfl Config.params s.active b
  have hhosts := congrArg (List.modify · s.active List.tail) (Env.takeSend_hosts s.env)
  exact ⟨rfl, rfl, rfl, offers_left ho, rfl, ⟨b.txbuf, htrace⟩, hhosts, rfl, rfl, rfl, rfl, rfl, rfl, rfl, rfl, rfl⟩

/-- Settles O26: the receive that begins at the grant. -/
theorem rxRunsToItsEnd : Obligations.RxRunsToItsEnd := by
  refine ⟨fun _ _ => rfl, fun s b timeout explen hs hlock hfsm hquiet => ?_⟩
  refine ⟨_, exec_rx_granted hs (lockFree_iff.mpr ⟨hlock, hfsm⟩) timeout explen, rfl, ?_⟩
  set t0 : State := { s with
    lock := .held s.active, cur := .rx, fsm := .head, tmo := timeout, explen := explen, deadline := s.now + timeout.toNat,
    banks := s.banks.set s.active { b with rxbuf := [] } }
  have hrun := reaches_receive (s := t0) ⟨rfl, hquiet⟩ (set_getElem? hs.1) rfl rfl rfl (offers_arrivals t0)
  refine reaches_mono hrun fun v hv => ?_
  have hbanks := (endsReceive_banks hv).trans (List.set_set ..)
  obtain ⟨f, d, bytes, q, l, ho, rfl⟩ := hv
  exact ⟨rfl, hbanks, offers_left ho, rfl, rfl, rfl, rfl, rfl, rfl, rfl, rfl, rfl, rfl, rfl⟩

/-- Settles O27: the refusal; the write and the completion of a broadcast; the write and the receive that begins at its end. -/
theorem xchgRunsToItsEnd : Obligations.XchgRunsToItsEnd := by
  refine ⟨fun _ _ => rfl, fun s b timeout explen hs ht => ⟨_, (exec_xchg_refused hs ht timeout explen).trans (endRefuse_eq s b)⟩,
    fun s b u frame timeout explen hs ht hlock hfsm hquiet => ?_⟩
  have hframe : b.txbuf ≠ [] := ht ▸ List.cons_ne_nil u frame
  refine ⟨_, exec_xchg_granted hs (lockFree_iff.mpr ⟨hlock, hfsm⟩) hframe timeout explen, rfl, ?_⟩
  set t0 : State := { s with lock := .held s.active, cur := .xchg, fsm := .pace, tmo := timeout, explen := explen }
  refine reaches_trans (reaches_write_end (s := t0) ⟨rfl, hquiet⟩ hs.1 rfl) ?_
  rintro w ⟨hstep, q, l, rfl, ho⟩
  have hturn := hstep.trans (sequencerTurn_send_xchg (s := t0.sending.later t0.writeEnd q l) _ rfl hs.1 rfl rfl ht)
  have hhosts := congrArg (List.modify · s.active List.tail) (Env.takeSend_hosts s.env)
  by_cases hu : u = 0x00#8
  · rw [if_pos hu] at hturn
    refine reaches_step hturn (reaches_now ⟨rfl, fun _ => ⟨rfl, rfl, offers_left ho, rfl⟩, fun hne => absurd hu hne, hhosts, ?_⟩)
    exact ⟨rfl, rfl, rfl, rfl, rfl, rfl, rfl, rfl⟩
  · rw [if_neg hu] at hturn
    set v0 := ((t0.sending.later t0.writeEnd q l).sent s.active b).enterHead s.active b
    have ha : Alone v0 s.active :=
      alone_of (s := t0) ⟨rfl, hquiet⟩ rfl (Env.takeSend_hosts s.env) (Env.takeSend_resets s.env)
    have hrun := reaches_receive (s := v0) ha (set_getElem? hs.1) rfl rfl rfl (L := t0.kept) ho
    refine reaches_step hturn (reaches_mono hrun fun v hv => ?_)
    have hbanks := (endsReceive_banks hv).trans (List.set_set ..)
    obtain ⟨f, d, bytes, q, l, ho, rfl⟩ := hv
    refine ⟨rfl, fun h0 => absurd h0 hu, fun _ => ⟨rfl, pollAfter_eq_add _ _ _, offers_left ho, hbanks⟩, hhosts, ?_⟩
    exact ⟨rfl, rfl, rfl, rfl, rfl, rfl, rfl, rfl⟩

end Sys2Proof.Machine

/-!
PROOFS. The buffer loads and the configuration commands (`45_config_load.md` R150 to R157). The loads branch by branch. Then the `SET` commands:
each is `underLock`, which waits while the lock is not free and, granted, leaves the ended command with its configuration register written.
Last, that nothing the sequencer does writes a configuration register.
-/

namespace Sys2Proof.Machine

/-! ### The loads, branch by branch -/

section
variable {s : State} {b : Bank} {data : List Byte}

theorem exec_loadT_fits (hs : s.ready b) (h : data.length ≤ 260) :
    exec (.loadT data) s = endDone s { b with txbuf := data } :=
  (withRequester_ready hs _).trans (if_pos h)

theorem exec_loadP_refused (hs : s.ready b) (h : 253 < data.length) : exec (.loadP data) s = endRefuse s b :=
  (withRequester_ready hs _).trans (if_neg (Nat.not_le_of_lt h))

theorem exec_loadR_refused (hs : s.ready b) (h : 260 < data.length) : exec (.loadR data) s = endRefuse s b :=
  (withRequester_ready hs _).trans (if_neg (Nat.not_le_of_lt h))

theorem exec_loadT_refused (hs : s.ready b) (h : 260 < data.length) : exec (.loadT data) s = endRefuse s b :=
  (withRequester_ready hs _).trans (if_neg (Nat.not_le_of_lt h))

theorem exec_loadC_rtu (hs : s.ready b) (u : Byte) :
    exec (.loadC [u]) s = endDone s { b with ctx := Ctx.ofUnit u, ctxLen := .rtu } :=
  withRequester_ready hs _

theorem exec_loadC_tcp (hs : s.ready b) (x0 x1 x2 x3 x4 x5 x6 : Byte) : exec (.loadC [x0, x1, x2, x3, x4, x5, x6]) s =
    endDone s { b with ctx := ⟨x0, x1, x2, x3, x4, x5, x6⟩, ctxLen := .tcp } :=
  withRequester_ready hs _

theorem exec_loadC_refused (hs : s.ready b) (h1 : data.length ≠ 1) (h7 : data.length ≠ 7) :
    exec (.loadC data) s = endRefuse s b := by
  rw [exec, execLoadC, withRequester_ready hs]
  split
  · exact absurd rfl h1
  · exact absurd rfl h7
  · rfl

end

/-- Settles O18: the two branches of each load, completed and refused. -/
theorem loadsFillTheirBuffer : Obligations.LoadsFillTheirBuffer := by
  refine ⟨fun _ => ⟨rfl, rfl, rfl⟩, fun s b d hs => ⟨?_, ?_, ?_, ?_, ?_, ?_⟩⟩
  · exact fun h => (exec_loadP_fits hs h).trans (endDone_eq s _)
  · exact fun h => ⟨_, (exec_loadP_refused hs h).trans (endRefuse_eq s b)⟩
  · exact fun h => (exec_loadR_fits hs h).trans (endDone_eq s _)
  · exact fun h => ⟨_, (exec_loadR_refused hs h).trans (endRefuse_eq s b)⟩
  · exact fun h => (exec_loadT_fits hs h).trans (endDone_eq s _)
  · exact fun h => ⟨_, (exec_loadT_refused hs h).trans (endRefuse_eq s b)⟩

/-- Settles O19: the counts one and seven, and any other. -/
theorem loadContextTakesOneOrSevenBytes : Obligations.LoadContextTakesOneOrSevenBytes := by
  refine ⟨fun _ => rfl, fun s b hs => ⟨?_, ?_, ?_⟩⟩
  · exact fun u => (exec_loadC_rtu hs u).trans (endDone_eq s _)
  · exact fun x0 x1 x2 x3 x4 x5 x6 => (exec_loadC_tcp hs x0 x1 x2 x3 x4 x5 x6).trans (endDone_eq s _)
  · exact fun d h1 h7 => ⟨_, (exec_loadC_refused hs h1 h7).trans (endRefuse_eq s b)⟩

/-! ### A command under the lock -/

section
variable {s : State} {b : Bank}

theorem underLock_waits (hs : s.ready b) (h : s.lock ≠ .free ∨ s.fsm ≠ .idle) (c : Cur) (write : State → State) (e : Ending) :
    underLock s c write e = .next s := by
  have hbusy : s.lockFree = false := Bool.eq_false_iff.mpr fun hfree =>
    have ⟨hlock, hfsm⟩ := lockFree_iff.mp hfree
    h.elim (absurd hlock) (absurd hfsm)
  rw [underLock, withRequester_ready hs, whenLockFree_waits hbusy]

/-- A `SET` command receives no frame (R139). -/
theorem frameRecord_configures {c : Cur} (hc : c = .setbaud ∨ c = .setpoll ∨ c = .seterr) (r : Nat) (b : Bank) (e : Ending) :
    frameRecord r b c e = [] := by
  refine if_neg fun ⟨hframe, _⟩ => ?_
  rcases hc with rfl | rfl | rfl <;> exact hframe.elim Cur.noConfusion Cur.noConfusion

/-- The completion of a `SET` command: its ending, the configuration registers it wrote, and the lock free again (R139, R157). -/
theorem complete_configures {u : State} {c : Cur} (hu : s.Configures u c) (hlock : s.lock = .free) (hfsm : s.fsm = .idle)
    (p : Params) (b : Bank) (e : Ending) : u.complete p s.active b e = { s.conclude s.active b e with
      baud := u.baud, delayPoll := u.delayPoll, delayErr := u.delayErr, cur := .none } := by
  obtain ⟨hc, hsame, -⟩ := hu
  have hcur : u.cur = c := by rw [hsame]; rfl
  have hx : u.cur ≠ .xchg := by rcases hc with rfl | rfl | rfl <;> rw [hcur] <;> exact Cur.noConfusion
  rw [complete_eq, if_neg hx, frameRecord_configures (hcur ▸ hc), List.append_nil, hsame, ← hlock, ← hfsm]
  rfl

/-- A `SET` command that finds the lock free completes in the one step (R157). -/
theorem underLock_granted (hs : s.ready b) (hlock : s.lock = .free) (hfsm : s.fsm = .idle) {c : Cur} {write : State → State}
    (hu : s.Configures (write (s.takeLock s.active c)) c) (e : Ending) :
    underLock s c write e = .next { s.conclude s.active b e with
      baud := (write (s.takeLock s.active c)).baud
      delayPoll := (write (s.takeLock s.active c)).delayPoll
      delayErr := (write (s.takeLock s.active c)).delayErr
      cur := .none } := by
  rw [underLock, withRequester_ready hs, whenLockFree_free (lockFree_iff.mpr ⟨hlock, hfsm⟩),
    complete_configures hu hlock hfsm]

/-- `done(0)` as a state (R189). -/
theorem conclude_done (s : State) (b : Bank) :
    s.conclude s.active b (.status SUCCESS) = s.endedWith { b with status := 0#16, fault := .none } :=
  Host.Outcome.next.inj (endDone_eq s b)

/-- `fatal(CONFIG_ERROR)` as a state; its bit of `FLOG` is bit 3 (R67, R189). -/
theorem conclude_configError (s : State) (b : Bank) : s.conclude s.active b (.fatal .configError) = s.endedInError
    { b with status := 0x8000#16, fault := .raised .configError, flog := b.flog ||| 0x08#8 } (.fatal .configError) :=
  Host.Outcome.next.inj (endFatal_eq s b .configError)

/-! ### The three `SET` commands -/

/-- The allow-list (R26). -/
theorem baudLegal_iff {w : Word} : baudLegal w = true ↔ w = 9600#32 ∨ w = 19200#32 ∨ w = 38400#32 := by
  simp [baudLegal, Config.BAUD_SET]

theorem exec_setbaud_listed {w : Word} (h : baudLegal w = true) (s : State) :
    exec (.setbaud w) s = underLock s .setbaud (fun t => { t with baud := w }) (.status SUCCESS) := if_pos h

theorem exec_setbaud_unlisted {w : Word} (h : ¬ baudLegal w = true) (s : State) :
    exec (.setbaud w) s = underLock s .setbaud (fun t => t) (.fatal .configError) := if_neg h

theorem configures_baud (s : State) {w : Word} (h : baudLegal w = true) :
    s.Configures { s.takeLock s.active .setbaud with baud := w } .setbaud := ⟨.inl rfl, rfl, fun _ => h⟩

theorem configures_nothing (s : State) : s.Configures (s.takeLock s.active .setbaud) .setbaud := ⟨.inl rfl, rfl, id⟩

theorem configures_delayPoll (s : State) (w : Word) :
    s.Configures { s.takeLock s.active .setpoll with delayPoll := w } .setpoll := ⟨.inr (.inl rfl), rfl, id⟩

theorem configures_delayErr (s : State) (w : Word) :
    s.Configures { s.takeLock s.active .seterr with delayErr := w } .seterr := ⟨.inr (.inr rfl), rfl, id⟩

/-- Every `SET` command runs under the lock and writes configuration registers only (R157). -/
theorem exec_set {i : Instr} (hi : i.opcode ∈ [Opcode.setbaud, .setpoll, .seterr]) (s : State) :
    ∃ c write e, exec i s = underLock s c write e ∧ s.Configures (write (s.takeLock s.active c)) c := by
  cases i with
  | setbaud w =>
    by_cases hw : baudLegal w = true
    · exact ⟨_, _, _, exec_setbaud_listed hw s, configures_baud s hw⟩
    · exact ⟨_, _, _, exec_setbaud_unlisted hw s, configures_nothing s⟩
  | setpoll w => exact ⟨.setpoll, fun t => { t with delayPoll := w }, _, rfl, configures_delayPoll s w⟩
  | seterr w => exact ⟨.seterr, fun t => { t with delayErr := w }, _, rfl, configures_delayErr s w⟩
  | _ => simp [Instr.opcode] at hi

theorem exec_set_waits {i : Instr} (hi : i.opcode ∈ [Opcode.setbaud, .setpoll, .seterr]) (hs : s.ready b)
    (h : s.lock ≠ .free ∨ s.fsm ≠ .idle) : exec i s = .next s := by
  obtain ⟨c, write, e, hexec, -⟩ := exec_set hi s
  exact hexec.trans (underLock_waits hs h c write e)

end

/-- Settles O20: waiting, a rate of the list, any other rate. -/
theorem setBaudAcceptsTheAllowList : Obligations.SetBaudAcceptsTheAllowList := by
  refine ⟨fun _ => rfl, fun s b w hs h => exec_set_waits (by simp [Instr.opcode]) hs h,
    fun s b w hs hlock hfsm => ⟨fun hw => ?_, fun h1 h2 h3 => ⟨.fatal .configError, ?_⟩⟩⟩
  · have hlegal := baudLegal_iff.mpr hw
    rw [exec_setbaud_listed hlegal, underLock_granted hs hlock hfsm (configures_baud s hlegal), conclude_done]
    rfl
  · have hillegal : ¬ baudLegal w = true := by simp [baudLegal_iff, h1, h2, h3]
    rw [exec_setbaud_unlisted hillegal, underLock_granted hs hlock hfsm (configures_nothing s), conclude_configError]
    rfl

/-- Settles O21: waiting, and granted. -/
theorem setDelaysWriteTheirRegister : Obligations.SetDelaysWriteTheirRegister := by
  refine ⟨fun _ => ⟨rfl, rfl⟩, fun s b w hs h => ⟨?_, ?_⟩, fun s b w hs hlock hfsm => ⟨?_, ?_⟩⟩
  · exact exec_set_waits (by simp [Instr.opcode]) hs h
  · exact exec_set_waits (by simp [Instr.opcode]) hs h
  · rw [exec, execSetpoll, underLock_granted hs hlock hfsm (configures_delayPoll s w), conclude_done]
    rfl
  · rw [exec, execSeterr, underLock_granted hs hlock hfsm (configures_delayErr s w), conclude_done]
    rfl

/-! ### While the lock is held -/

/-- No transition of the sequencer writes `BAUD`, `DELAY_POLL` or `DELAY_ERR` (R157). -/
theorem sequencerTurn_config {p : Params} {s t : State} (h : sequencerTurn p s = .next t) :
    t.baud = s.baud ∧ t.delayPoll = s.delayPoll ∧ t.delayErr = s.delayErr := by
  obtain ⟨r, b, -, -, hk⟩ := sequencerTurn_next h
  rcases hk with ⟨-, rfl⟩ | ⟨-, u, rfl, ⟨c, -, rfl⟩ | ⟨-, -, rfl⟩⟩ | ⟨-, ⟨-, e, -, rfl⟩ | ⟨x, q, u, -, rfl, ⟨e, -, rfl⟩ | hr⟩⟩
  · exact ⟨rfl, rfl, rfl⟩
  · exact ⟨rfl, rfl, rfl⟩
  · exact ⟨rfl, rfl, rfl⟩
  · exact ⟨rfl, rfl, rfl⟩
  · exact ⟨rfl, rfl, rfl⟩
  · rw [hr.same]
    exact ⟨rfl, rfl, rfl⟩

/-- Settles O22: the commands by `exec_set`; a step while the lock is held is the sequencer's, or one of those of O50. -/
theorem setCommandsRunUnderTheLock : Obligations.SetCommandsRunUnderTheLock := by
  refine ⟨fun i hi s b hs => ⟨exec_set_waits hi hs, fun hlock hfsm => ?_⟩, fun s t r hl hreset h => ?_⟩
  · obtain ⟨c, write, e, hexec, hu⟩ := exec_set hi s
    exact ⟨_, hexec.trans (underLock_granted hs hlock hfsm hu e), hfsm, hlock, rfl, rfl⟩
  · by_cases hturn : nextTurn s = .sequencer
    · exact sequencerTurn_config ((stepWith_sequencer _ hturn).symm.trans h)
    · obtain ⟨⟨-, -, -, -, -, -, hpoll, herr, hbaud, -⟩, -⟩ := lockExcludesOtherCommands.1 s t r hl h hreset hturn
      exact ⟨hbaud, hpoll, herr⟩

end Sys2Proof.Machine

/-!
PROOFS. The exceptional cases (`60_exceptions.md` R185, R190, R196). A command that breaks its precondition is refused, one that takes the lock
waits for it, and only a refused one of these runs without a grant. Then that the model goes on: each command on a ready bank and each
transition of the sequencer in a legal state answers a next state, so that a step is stopped only by a byte string it cannot decode.
-/

namespace Sys2Proof.Machine

/-! ### Refused -/

section
variable {s : State} {b : Bank} {i : Instr}

/-- A command that breaks its precondition ends by `refuse()`, whoever holds the lock (R185). -/
theorem exec_refused (hs : s.ready b) (h : refusedBy i b = true) : exec i s = endRefuse s b := by
  cases i with
  | encapRtu => exact exec_encapRtu_refused hs (bne_iff_ne.mp h)
  | encapTcp => exact exec_encapTcp_refused hs (bne_iff_ne.mp h)
  | xchg timeout explen => exact exec_xchg_refused hs (beq_iff_eq.mp h) timeout explen
  | loadP data => exact exec_loadP_refused hs (of_decide_eq_true h)
  | loadR data => exact exec_loadR_refused hs (of_decide_eq_true h)
  | loadT data => exact exec_loadT_refused hs (of_decide_eq_true h)
  | loadC data =>
    have hlen : data.length ≠ 1 ∧ data.length ≠ 7 := by simpa [refusedBy] using h
    exact exec_loadC_refused hs hlen.1 hlen.2
  | _ => exact absurd h Bool.false_ne_true

/-! ### Waiting for the lock -/

theorem lockFree_eq_false (h : s.lock ≠ .free ∨ s.fsm ≠ .idle) : s.lockFree = false :=
  Bool.eq_false_iff.mpr fun hfree =>
    have ⟨hlock, hfsm⟩ := lockFree_iff.mp hfree
    h.elim (absurd hlock) (absurd hfsm)

/-- A lock-taking command that is not refused waits while the lock is not free (R196). -/
theorem exec_waits (hs : s.ready b) (htakes : takesLock i = true) (hrefused : refusedBy i b = false)
    (h : s.lock ≠ .free ∨ s.fsm ≠ .idle) : exec i s = .next s := by
  have hbusy := lockFree_eq_false h
  cases i with
  | tx | rx _ _ => exact (withRequester_ready hs _).trans (whenLockFree_waits hbusy _)
  | xchg timeout explen =>
    have hframe : b.txbuf ≠ [] := beq_eq_false_iff_ne.mp hrefused
    exact (withRequester_ready hs _).trans ((if_neg hframe).trans (whenLockFree_waits hbusy _))
  | setbaud _ | setpoll _ | seterr _ => exact exec_set_waits (by simp [Instr.opcode]) hs h
  | _ => exact absurd htakes Bool.false_ne_true

/-- The commands that need a grant are the lock-taking ones that are not refused (R125, R185, R196). -/
theorem needsLock_of_ok {bytes : List Byte} (hd : decode bytes = .ok i) (b : Bank) :
    needsLock bytes b = (takesLock i && !refusedBy i b) := by
  rw [needsLock, hd]
  cases i with
  | xchg timeout explen =>
    show (!b.txbuf.isEmpty) = !(b.txbuf == [])
    cases b.txbuf <;> rfl
  | _ => rfl

end

/-- Settles O23. -/
theorem refusalChangesOnlyTheVerdict : Obligations.RefusalChangesOnlyTheVerdict :=
  fun s b _ hs h => ⟨.fatal .refused, (exec_refused hs h).trans (endRefuse_eq s b)⟩

/-- Settles O24. -/
theorem lockTakingCommandsWait : Obligations.LockTakingCommandsWait :=
  fun _ _ _ => exec_waits

/-! ### The command selected for a step -/

section
variable {s : State} {r : Nat}

/-- A command runs at its own turn only if its requester can run it without the lock (R196). -/
theorem runnable_of_turn (h : nextTurn s = .command r) : runnable s r (s.env.hosts.getD r []) = true := by
  obtain ⟨-, -, hruns⟩ := firstRequester_some (nextTurn_command h).2
  exact hruns

/-- The requester selected, at its own turn or by a grant, is ready and has a command at its port. -/
theorem selects_ready {u : State} (h : s.Selects r u) :
    ∃ b c rest, u.ready b ∧ s.env.hosts.getD r [] = c :: rest ∧ u.env.hosts.getD r [] = c :: rest := by
  rcases h with ⟨hturn, rfl⟩ | ⟨hturn, rfl⟩
  · obtain ⟨b, c, rest, hl, hb, hport, -⟩ := runnable_true (runnable_of_turn hturn)
    exact ⟨b, c, rest, ⟨hb, hl⟩, hport, hport⟩
  · obtain ⟨-, -, hwaits⟩ := grantTo_some (nextTurn_grant hturn).2.2
    obtain ⟨b, c, rest, hl, hb, hport, -⟩ := waiting_true hwaits
    exact ⟨b, c, rest, ⟨hb, hl⟩, hport, (congrArg (·.getD r []) (takeGrant_hosts s.env)).trans hport⟩

end

/-- Settles O43: the command of such a turn does not need the lock, so by `needsLock_of_ok` it takes none or is refused. -/
theorem ungrantedCommandsTakeNoLock : Obligations.UngrantedCommandsTakeNoLock := by
  intro s r i b hturn hdecoded hbank
  obtain ⟨b', c, rest, hl, hb, hport, -, hneeds⟩ := runnable_true (runnable_of_turn hturn)
  obtain rfl : b' = b := Option.some.inj (hb.symm.trans hbank)
  rw [portCommand_of hport] at hdecoded
  rw [needsLock_of_ok hdecoded] at hneeds
  refine ⟨hl, fun htakes => ?_⟩
  simpa [htakes] using hneeds

/-! ### What answers a next state -/

/-- The answer is a next state: neither a fault nor a refusal of the model (R190). -/
def Answers (o : Result) : Prop := ∃ t, o = .next t

theorem answers_next (t : State) : Answers (.next t) := ⟨t, rfl⟩

theorem answers_finish (s : State) (b : Bank) (e : Ending) : Answers (finish s b e) := answers_next _

section
variable {s : State} {b : Bank}

theorem answers_withRequester (hs : s.ready b) {k : Bank → Result} (hk : Answers (k b)) : Answers (withRequester s k) := by
  rwa [withRequester_ready hs]

theorem answers_whenLockFree {k : Result} (hk : Answers k) : Answers (whenLockFree s k) := by
  unfold whenLockFree
  split
  · exact hk
  · exact answers_next s

/-- Every `SET` command answers, by its run under the lock (R157). -/
theorem exec_set_answers (hs : s.ready b) {i : Instr} (hi : i.opcode ∈ [Opcode.setbaud, .setpoll, .seterr]) :
    Answers (exec i s) := by
  obtain ⟨c, write, e, hexec, -⟩ := exec_set hi s
  rw [hexec]
  exact answers_withRequester hs (answers_whenLockFree (answers_next _))

/-- Every command answers a next state on a ready bank. -/
theorem exec_answers (hs : s.ready b) (i : Instr) : Answers (exec i s) := by
  cases i with
  | crcInit | crcUpd _ | mkctxRtu _ _ | mkctxTcp _ _ => exact answers_withRequester hs (answers_finish _ _ _)
  | encapRtu | encapTcp | decapRtu | xctxRtu | decapTcp | xctxTcp | loadP _ | loadR _ | loadT _ | loadC _ =>
    refine answers_withRequester hs ?_
    split <;> exact answers_finish _ _ _
  | tx | rx _ _ => exact answers_withRequester hs (answers_whenLockFree (answers_next _))
  | xchg _ _ =>
    refine answers_withRequester hs ?_
    split
    · exact answers_finish _ _ _
    · exact answers_whenLockFree (answers_next _)
  | setbaud _ | setpoll _ | seterr _ => exact exec_set_answers hs (by simp [Instr.opcode])

/-- The bytes of a command that the port does not deliver: none, cut short, or too long (U12). -/
def Issue.Undelivered (c : Issue) : Prop :=
  decode c.bytes = .error .empty ∨ decode c.bytes = .error .cutShort ∨ decode c.bytes = .error .leftOver

/-- The command at a requester's port answers a next state, unless its bytes are no command that the port delivers (R75, U12). -/
theorem runCommand_answers (hs : s.ready b) {r : Nat} {c : Issue} {rest : List Issue}
    (hport : s.env.hosts.getD r [] = c :: rest) : Answers (runCommand r s) ∨
      (runCommand r s = .refused .malformedCommand ∧ c.Undelivered) := by
  cases hd : decode c.bytes with
  | ok i =>
    rw [runCommand_ok hport hd]
    exact .inl (exec_answers hs i)
  | error e =>
    rw [runCommand_error hport hd]
    cases e with
    | illegalOpcode x => exact .inl (answers_withRequester hs (answers_finish _ _ _))
    | empty => exact .inr ⟨rfl, .inl hd⟩
    | cutShort => exact .inr ⟨rfl, .inr (.inl hd)⟩
    | leftOver => exact .inr ⟨rfl, .inr (.inr hd)⟩

end

/-! ### The transitions of the sequencer -/

section
variable {s : State} {r : Nat} {b : Bank} (hl : s.lock = .held r) (hb : s.banks[r]? = some b)
include hl hb

/-- A receive state has something to do with a byte and without one. -/
theorem answers_receiveTurn (f g : State → Nat → Bank → State) : Answers (receiveTurn s f g) := by
  cases hq : s.serq with
  | nil => exact ⟨_, receiveTurn_silence hl hb hq f g⟩
  | cons x q => exact ⟨_, receiveTurn_byte hl hb hq f g⟩

/-- In `SEND` the sequencer runs a `TX`, or an `XCHG` with a frame (R124, R128). -/
theorem answers_send (p : Params) (hf : s.fsm = .send) (hcur : s.cur = .tx ∨ (s.cur = .xchg ∧ b.txbuf ≠ [])) :
    Answers (sequencerTurn p s) := by
  rcases hcur with htx | ⟨hxchg, hframe⟩
  · exact ⟨_, sequencerTurn_send_tx p hl hb hf htx⟩
  · obtain ⟨u, rest, hcons⟩ := List.exists_cons_of_ne_nil hframe
    rw [sequencerTurn_send_xchg p hl hb hf hxchg hcons]
    split <;> exact answers_next _

theorem sequencerTurn_answers (p : Params) (hlegal : sequencerLegal s b = true) : Answers (sequencerTurn p s) := by
  cases hf : s.fsm with
  | idle => simp [sequencerLegal, hf] at hlegal
  | pace => exact ⟨_, sequencerTurn_pace p hl hb hf⟩
  | send => exact answers_send hl hb p hf ((sequencerLegal_writing (.inr hf)).mp hlegal)
  | head => exact sequencerTurn_head p s hf ▸ answers_receiveTurn hl hb _ _
  | bodyLen => exact sequencerTurn_bodyLen p s hf ▸ answers_receiveTurn hl hb _ _
  | bodyGap => exact sequencerTurn_bodyGap p s hf ▸ answers_receiveTurn hl hb _ _

end

/-- Under the invariant a sequencer that is not idle has an owner to work for (R32, R124). -/
theorem lockLegal_busy {s : State} (h : lockLegal s = true) (hf : s.fsm ≠ .idle) :
    ∃ r b, s.lock = .held r ∧ s.banks[r]? = some b ∧ sequencerLegal s b = true := by
  cases hl : s.lock with
  | free => exact absurd ((lockLegal_free hl).mp h).1 hf
  | held r =>
    cases hb : s.banks[r]? with
    | none => simp [lockLegal, hl, hb] at h
    | some b => exact ⟨r, b, rfl, hb, lockLegal_held hl hb ▸ h⟩

/-- An idle sequencer has no turn (R123). -/
theorem fsm_ne_idle_of_turn {s : State} (h : nextTurn s = .sequencer) : s.fsm ≠ .idle := by
  intro hf
  have hready := (nextTurn_sequencer_iff.mp h).2
  simp [sequencerReady, hf] at hready

/-! ### The step -/

/-- The step of a selected command answers a next state, unless its bytes are no command that the port delivers. -/
theorem selects_answers {s u : State} {r : Nat} (h : s.Selects r u) : Answers (runCommand r u) ∨
    (runCommand r u = .refused .malformedCommand ∧ ∃ r c rest, s.env.hosts.getD r [] = c :: rest ∧ c.Undelivered) := by
  obtain ⟨b, c, rest, hready, hport, hselected⟩ := selects_ready h
  exact (runCommand_answers hready hselected).imp id fun ⟨hstop, hbytes⟩ => ⟨hstop, r, c, rest, hport, hbytes⟩

/-- Settles O47, turn by turn: a selected command by `selects_answers`, a transition by the invariant of the lock; the other turns always answer. -/
theorem stepNeverFaults : Obligations.StepNeverFaults := by
  intro s hinv
  obtain ⟨hreset, hcommand, hgrant, hline, hsequencer, htick⟩ := stepWith_turn Config.params s
  unfold step
  cases hturn : nextTurn s with
  | reset => exact .inl ⟨_, hreset hturn⟩
  | command r => exact hcommand r hturn ▸ selects_answers (.inl ⟨hturn, rfl⟩)
  | grant r => exact hgrant r hturn ▸ selects_answers (.inr ⟨hturn, rfl⟩)
  | line => exact .inl ⟨_, hline hturn⟩
  | sequencer =>
    obtain ⟨-, -, hlock⟩ := inv_iff.mp hinv
    obtain ⟨r, b, hl, hb, hlegal⟩ := lockLegal_busy hlock (fsm_ne_idle_of_turn hturn)
    exact .inl (hsequencer hturn ▸ sequencerTurn_answers hl hb _ hlegal)
  | tick => exact .inl ⟨_, htick hturn⟩

end Sys2Proof.Machine

/-!
PROOFS. The reset event (`70_reset_and_hazards.md` R200, R203). The state it leaves takes from the state before it only the number of banks, `NOW`
and the outside world.
-/

namespace Sys2Proof.Machine

/-- Settles O56: the step is the reset event, which is the reset state at the present instant with the issued commands dropped. -/
theorem resetAbandonsEverything : Obligations.ResetAbandonsEverything := by
  intro s hturn
  have hstep : step s = .next (resetEvent s) := (stepWith_turn Config.params s).1 hturn
  exact ⟨resetEvent s, hstep, by simp [resetEvent, State.resetAt]⟩

end Sys2Proof.Machine
